-- ==== Sys2Proof/Word.lean ====
section
/-!
DEFINITION. The byte and the 32-bit word (spec/00_scope.md R12).
-/

namespace Sys2Proof

/-- A byte is 8 bits, numbered from 0 at the least significant end (00_scope.md R12). -/
abbrev Byte := BitVec 8

/-- A 32-bit word: a tuning word, an amplitude control value, one word of a finalized profile. -/
abbrev Word := BitVec 32

/-- A set of channels as the high nibble of CSR: bit i of the set is CSR bit 4+i (10_state.md R31, R33). -/
abbrev ChSet := BitVec 4

/-- A register address: 7 bits, because bit 7 of the address byte is the direction flag (20_memory.md R50; log 30). -/
abbrev RegAddr := BitVec 7

end Sys2Proof
end

