-- ==== Sys2Proof/Config.lean ====
section
/-!
DEFINITION. The vocabulary of the block (modes, channels, registers, events, the chip's register file), the parameters of
00_scope.md R10 and R11 as a plain structure with the spec's defaults, and the free values the spec leaves open, each an
opaque constant.
-/

namespace Sys2Proof

/-- The four communication modes (10_state.md R29). -/
inductive Mode
  | singleBitTwoWire
  | singleBitThreeWire
  | twoBitSerial
  | fourBitSerial
  deriving DecidableEq, Repr, Inhabited

/-- One of the four channels, by its CSR bit: channel one is bit 4, …, channel four is bit 7 (10_state.md R31, R33). -/
inductive Channel
  | one
  | two
  | three
  | four
  deriving DecidableEq, Repr, Inhabited

/-- The six chip registers the block reaches (10_state.md R32). -/
inductive Reg
  | csr
  | fr1
  | cftw0
  | cpow0
  | acr
  | lsrr
  deriving DecidableEq, Repr, Inhabited

/-- The block's two output pins (00_scope.md R13; 60_exceptions.md R240). -/
inductive Line
  | reset
  | update
  deriving DecidableEq, Repr, Inhabited

/-- The four kinds of external event (00_scope.md R8, R13). A failed event stands in the trace too (60_exceptions.md R233):
`accepted` is false, or a read has no answer (log 19). -/
inductive Event
  /-- `W(bytes)`: one bus write transaction. -/
  | write (bytes : List Byte) (accepted : Bool)
  /-- `R(h, n, d)`: one bus read transaction with header byte h; none when the oracle failed it. -/
  | read (header : Byte) (n : Nat) (answer : Option (List Byte))
  /-- `P(line, level)`: one pin change, by its logical level. -/
  | pin (line : Line) (level : Bool) (accepted : Bool)
  /-- `T(us)`: a wait of at least this many microseconds. -/
  | delay (us : Nat)
  deriving DecidableEq, Repr, Inhabited

/-- One draw of the bus-and-pin oracle (20_memory.md R63; 60_exceptions.md R240; log 6). -/
inductive Draw
  /-- The event fails: `A_Bus`, or `Pin`. -/
  | fail
  /-- The event succeeds, and a read is answered by the reference chip (20_memory.md R64). -/
  | echo
  /-- The event succeeds, and a read is answered by these bytes (log 8). -/
  | data (bytes : List Byte)
  deriving DecidableEq, Repr, Inhabited

/-- The registers that exist once per channel (10_state.md R32, R37 to R40). -/
structure LaneRegs where
  cftw0 : BitVec 32
  cpow0 : BitVec 16
  acr   : BitVec 24
  lsrr  : BitVec 16
  deriving DecidableEq, Repr, Inhabited

/-- The chip's six registers, the per-channel ones four times (10_state.md R32; 20_memory.md R64). -/
structure RegFile where
  csr   : BitVec 8
  fr1   : BitVec 24
  one   : LaneRegs
  two   : LaneRegs
  three : LaneRegs
  four  : LaneRegs
  deriving DecidableEq, Repr, Inhabited

/-- The parameter REG other than CFTW0, whose address the source fixes (00_scope.md R10, R11; 10_state.md R32). -/
structure RegMap where
  csr   : RegAddr := 0x00#7
  fr1   : RegAddr := 0x01#7
  cpow0 : RegAddr := 0x05#7
  acr   : RegAddr := 0x06#7
  lsrr  : RegAddr := 0x07#7
  deriving DecidableEq, Repr, Inhabited

/-- The parameter MODE_CODE: the code of each mode in CSR[2:0] (10_state.md R29). -/
structure ModeCodes where
  singleBitTwoWire   : BitVec 3 := 0b000#3
  singleBitThreeWire : BitVec 3 := 0b010#3
  twoBitSerial       : BitVec 3 := 0b100#3
  fourBitSerial      : BitVec 3 := 0b110#3
  deriving DecidableEq, Repr, Inhabited

/-- The channel each of the names TWO, THREE and FOUR stands for; ONE is fixed (10_state.md R31; 00_scope.md R11). -/
structure ChannelNames where
  two   : Channel := .two
  three : Channel := .three
  four  : Channel := .four
  deriving DecidableEq, Repr, Inhabited

/-- The two settings of CODEC_ARITH and DECODE_ROUND (40_codec.md R100). -/
inductive Arith
  | exact
  | binary32
  deriving DecidableEq, Repr, Inhabited

/-- The two settings of WORD_VIEW_ENDIAN (20_memory.md R55). -/
inductive Endian
  | little
  | big
  deriving DecidableEq, Repr, Inhabited

/-- The two settings of READ_DURING_STREAM (41_transport.md R137). -/
inductive StreamReads
  | reject
  | pass
  deriving DecidableEq, Repr, Inhabited

/-- The parameters a model takes as its configuration, with the defaults of 00_scope.md R10 (R11; log 1). -/
structure Config where
  reg              : RegMap := {}
  modeCode         : ModeCodes := {}
  names            : ChannelNames := {}
  /-- The FR1 payload byte that holds the multiplier field and the VCO bit (decision D21; log 26). -/
  fr1Byte          : Fin 3 := 0
  vcoThresholdHz   : Rat := 200000000
  codecArith       : Arith := .exact
  decodeRound      : Arith := .exact
  wordEndian       : Endian := .little
  readDuringStream : StreamReads := .reject
  resetActiveHigh  : Bool := true
  /-- The other reading of "dwell on each side": a wait before the rising edge (70_reset_and_hazards.md R263; log 25). -/
  latchLeadDwell   : Bool := false
  /-- The payload of the LSRR pad record (93_implementation_defined.md U9; log 25). -/
  padLsrr          : BitVec 16 := 0
  /-- The payload of the CSR pad record; none is the default MODE_CODE(q.mode) (U9; log 25). -/
  padCsr           : Option Byte := none
  deriving DecidableEq, Repr, Inhabited

/-- Every parameter at its default (00_scope.md R10). -/
def Config.default : Config := {}

/-! The constants of 00_scope.md R10 that no parameter changes. -/

/-- `NARROW_MAX_PAYLOAD` (41_transport.md R134). -/
abbrev narrowMaxPayload : Nat := 2

/-- `PROFILE_CAP` (43_profile.md R205). -/
abbrev profileCap : Nat := 32

/-- `T_DWELL_US` (70_reset_and_hazards.md R267). -/
abbrev tDwellUs : Nat := 5

/-- `ALL_CHANNELS` as a channel set (10_state.md R31). -/
abbrev allChannels : ChSet := 0xF#4

/-- `REF_MIN_HZ` (40_codec.md R101). -/
abbrev refMinHz : Rat := 1000000

/-- `REF_MIN_PLL_HZ`, which applies when the multiplier is not 1 (40_codec.md R101). -/
abbrev refMinPllHz : Rat := 10000000

/-! The free values. Each is opaque: nothing can prove a value of it, so a statement that mentions one holds for every
value. The arguments are the plain data the spec lets the value depend on. -/

/-- The oracle's draw for the next event, where the script of the state has run out; it may depend on the whole earlier
trace (20_memory.md R63; decisions D33, D37, D41; log 6). -/
opaque Config.oracleDraw : List Event → Draw

/-- How many bytes of a failed write transaction the chip received: any prefix of it (20_memory.md R63; decision D37;
log 10). -/
opaque Config.deliveredBytes : List Event → Nat

/-- What a register holds of whose payload a failed write transaction delivered a part only (20_memory.md R63; log 10). -/
opaque Config.chipAfterFailedWrite : List Event → RegFile

/-- The chip's contents in active use after its reset (10_state.md R43; 93_implementation_defined.md U1; log 12). -/
opaque Config.chipAfterReset : List Event → RegFile

/-- The chip's written contents after a byte sequence it cannot parse (93_implementation_defined.md U22; log 14). -/
opaque Config.chipAfterBadStream : List Event → RegFile

/-- Byte k of the reference chip's answer where the answer is unspecified (20_memory.md R64; log 29). -/
opaque Config.unspecifiedRead : List Event → Nat → Byte

/-- A byte of the profile buffer that nothing has written (10_state.md R27; log 5). -/
opaque Config.unspecifiedByte : Nat → Byte

/-- `multiplier * reference` evaluated in binary32, whose evaluation the spec does not give (decision D2; log 21). -/
opaque Config.binary32Product : Byte → Rat → Rat

/-- `target / system * 2^32` truncated, evaluated in binary32 (decision D2; log 21). -/
opaque Config.binary32Ftw : Rat → Rat → Nat

/-- `turns * 2^14` truncated, evaluated in binary32 (decision D2; log 21). -/
opaque Config.binary32Pow : Rat → Int

/-- `amplitude * 2^10` truncated, evaluated in binary32 (decision D2; log 21). -/
opaque Config.binary32Code : Rat → Nat

/-- A decoder result that is beyond the largest finite binary32 (40_codec.md R100 gives no result there; log 22). -/
opaque Config.binary32Overflow : Rat → Rat

end Sys2Proof
end

