-- ==== Sys2Proof/Syntax.lean ====
section
/-!
DEFINITION. The instructions: one constructor for each of the 30 rows of spec/opcode_table.json (30_encoding.md R83 and
R72 to R77), and the packets they arrive in.
-/

namespace Sys2Proof

/-- The 26 commands of 30_encoding.md R83 and the 4 wire forms of R72, R73, R75 and R77. -/
inductive Instr
  -- codec, 40_codec.md
  | validateClocking (ref : Rat) (mult : Byte)
  | freqToFtw (hz sys : Rat)
  | ftwToFreq (ftw : Word) (sys : Rat)
  | phaseToPow (turns : Rat)
  | powToPhase (pow : BitVec 16)
  | ampToAcr (amp : Rat)
  | acrToAmp (a0 a1 a2 : Byte)
  -- transport, 41_transport.md
  | configureMode (m : Mode)
  | startStream
  | xportWrite (addr : Byte) (data : List Byte)
  | xportRead (addr : Byte) (n : Byte)
  | streamWrite (bytes : List Byte)
  -- controller, 70_reset_and_hazards.md and 42_channel_mux.md
  | init (m : Mode) (ref : Rat) (mult : Byte)
  | setFrequency (cs : ChSet) (hz : Rat)
  | getFrequency (ch : Channel)
  | setPhase (cs : ChSet) (turns : Rat)
  | getPhase (ch : Channel)
  | setAmplitude (cs : ChSet) (amp : Rat)
  | getAmplitude (ch : Channel)
  | configureSystemClock (ref : Rat) (mult : Byte)
  | selfTest
  | freeze
  -- profile, 43_profile.md
  | profileNew (m : Mode)
  | profileUpdateChannels (cs : ChSet) (ftw : Option Word) (pow : Option (BitVec 16)) (acr : Option Word)
  | profileSetSystemClock (ref : Rat) (mult : Byte)
  | profileFinalize
  -- wire forms, 30_encoding.md
  | frameWideWrite (a : RegAddr) (payload : List Byte)
  | frameWideRead (a : RegAddr)
  | frameNarrowWrite (a : RegAddr) (payload : List Byte)
  | profileRecord (a : RegAddr) (payload : List Byte)
  deriving DecidableEq, Repr, Inhabited

/-- A typed operand, carried beside the opcode and not packed into bits (30_encoding.md R83). -/
inductive Operand
  /-- A Mode, by its index. -/
  | mode (index : Nat)
  /-- A channel set: one byte. -/
  | chSet (flags : Byte)
  /-- One channel: a channel set byte. -/
  | ch (flag : Byte)
  | u8 (v : Byte)
  | u16 (v : BitVec 16)
  | u32 (v : Word)
  | q (v : Rat)
  | bytes (v : List Byte)
  | optU16 (v : Option (BitVec 16))
  | optU32 (v : Option Word)
  deriving DecidableEq, Repr, Inhabited

/-- What is put before the block: a host command (30_encoding.md R83), one frame on the bus, which decodes by the
adapter's mode (R82), or one record of a stream (R77); log 15, log 17. -/
inductive Packet
  | command (opcode : Byte) (operands : List Operand)
  | frame (bytes : List Byte)
  | record (bytes : List Byte)
  deriving DecidableEq, Repr, Inhabited

end Sys2Proof
end

