-- ==== Sys2Proof/Machine/Operands.lean ====
section
/-!
DEFINITION. Every operand form: modes and their codes, channels and channel sets, the register table, big-endian
payloads, the CSR and FR1 bytes, bus symbols and the narrow expansion (10_state.md R29 to R40; 30_encoding.md R70 to R80,
R85). Nothing here reads the state.
-/

namespace Sys2Proof.Machine

/-! Modes. -/

/-- The operand index of a Mode (30_encoding.md R83). -/
def modeIndex : Mode → Nat
  | .singleBitTwoWire => 0
  | .singleBitThreeWire => 1
  | .twoBitSerial => 2
  | .fourBitSerial => 3

/-- The Mode of an operand index; an index above 3 is illegal (30_encoding.md R83, R84). -/
def modeOfIndex : Nat → Option Mode
  | 0 => some .singleBitTwoWire
  | 1 => some .singleBitThreeWire
  | 2 => some .twoBitSerial
  | 3 => some .fourBitSerial
  | _ => none

/-- `MODE_CODE(m)` (10_state.md R29). -/
def modeCode (cfg : Config) : Mode → BitVec 3
  | .singleBitTwoWire => cfg.modeCode.singleBitTwoWire
  | .singleBitThreeWire => cfg.modeCode.singleBitThreeWire
  | .twoBitSerial => cfg.modeCode.twoBitSerial
  | .fourBitSerial => cfg.modeCode.fourBitSerial

/-! Channels. -/

/-- The channel's flag, as a channel set (10_state.md R31). -/
def channelFlag : Channel → ChSet
  | .one => 0b0001#4
  | .two => 0b0010#4
  | .three => 0b0100#4
  | .four => 0b1000#4

/-- The one channel of a set that is exactly one flag (30_encoding.md R84). -/
def channelOfSet (cs : ChSet) : Option Channel :=
  if cs = 0b0001#4 then some .one
  else if cs = 0b0010#4 then some .two
  else if cs = 0b0100#4 then some .three
  else if cs = 0b1000#4 then some .four
  else none

/-- A channel set as its byte: the flags in bits 7:4, bits 3:0 zero (10_state.md R31). -/
def chSetByte (cs : ChSet) : Byte := cs ++ 0#4

/-- The channel set of a byte; a byte with any of bits 3:0 set is none (30_encoding.md R84). -/
def chSetOfByte (b : Byte) : Option ChSet :=
  if b.extractLsb' 0 4 = 0#4 then some (b.extractLsb' 4 4) else none

/-! The register table (10_state.md R32). -/

/-- The register's width in bytes. -/
def regWidth : Reg → Nat
  | .csr => 1
  | .fr1 => 3
  | .cftw0 => 4
  | .cpow0 => 2
  | .acr => 3
  | .lsrr => 2

/-- The register's address. -/
def regAddr (cfg : Config) : Reg → RegAddr
  | .csr => cfg.reg.csr
  | .fr1 => cfg.reg.fr1
  | .cftw0 => 0x04#7
  | .cpow0 => cfg.reg.cpow0
  | .acr => cfg.reg.acr
  | .lsrr => cfg.reg.lsrr

/-- The six registers, in the table's order. -/
def allRegs : List Reg := [.csr, .fr1, .cftw0, .cpow0, .acr, .lsrr]

/-- The register at an address (20_memory.md R65). -/
def regOfAddr (cfg : Config) (a : RegAddr) : Option Reg := allRegs.find? fun r => regAddr cfg r == a

/-- A write's address byte: bit 7 is 0 (30_encoding.md R71). -/
def writeByte (a : RegAddr) : Byte := 0#1 ++ a

/-- A read's header byte `0x80 | A` (30_encoding.md R73). -/
def readByte (a : RegAddr) : Byte := 1#1 ++ a

/-- The register address in bits 6:0 of an address byte (30_encoding.md R71). -/
def addrOfByte (b : Byte) : RegAddr := b.extractLsb' 0 7

/-- `WF(addr, n)`: the address of one of the six registers, with a byte count equal to that register's width
(20_memory.md R52). -/
def wellFormedTxn (cfg : Config) (addr : Byte) (n : Nat) : Bool :=
  allRegs.any fun r => writeByte (regAddr cfg r) == addr && regWidth r == n

/-! Byte sequences (00_scope.md R12; 20_memory.md R53). -/

/-- `be_n(v)`: the n-byte big-endian sequence of `v mod 2^(8n)`. -/
def beBytes : Nat → Nat → List Byte
  | 0, _ => []
  | n + 1, v => BitVec.ofNat 8 (v / 2 ^ (8 * n)) :: beBytes n v

/-- `from_be(s)`: the value of a big-endian sequence. -/
def fromBe (s : List Byte) : Nat := s.foldl (fun v b => v * 256 + b.toNat) 0

/-- `be_4(ftw)`, the CFTW0 payload (30_encoding.md R78). -/
def ftwPayload (ftw : Word) : List Byte := beBytes 4 ftw.toNat

/-- `be_2(pow)`, the CPOW0 payload (30_encoding.md R78). -/
def powPayload (pow : BitVec 16) : List Byte := beBytes 2 pow.toNat

/-- `be_4(acr)[1..3]`, the low 3 bytes, the ACR payload (30_encoding.md R78). -/
def acrPayload (acr : Word) : List Byte := (beBytes 4 acr.toNat).drop 1

/-- One 32-bit word of four bytes in buffer order (20_memory.md R55). -/
def wordOf (e : Endian) (b0 b1 b2 b3 : Byte) : Word :=
  match e with
  | .little => b3 ++ b2 ++ b1 ++ b0
  | .big => b0 ++ b1 ++ b2 ++ b3

/-- The word view of a byte sequence (20_memory.md R55; 43_profile.md R204). -/
def wordsOf (e : Endian) : List Byte → List Word
  | b0 :: b1 :: b2 :: b3 :: rest => wordOf e b0 b1 b2 b3 :: wordsOf e rest
  | _ => []

/-! CSR and FR1 payloads. -/

/-- `csr_byte(m, cs) = MODE_CODE(m) | cs` (30_encoding.md R79). -/
def csrByte (cfg : Config) (m : Mode) (cs : ChSet) : Byte := (0#5 ++ modeCode cfg m) ||| chSetByte cs

/-- The channel nibble of a CSR byte, bits 7:4 (10_state.md R33). -/
def csrChannels (b : Byte) : ChSet := b.extractLsb' 4 4

/-- `vco(eff)`: strictly above the threshold (40_codec.md R108). -/
def vcoBit (cfg : Config) (eff : Rat) : Bool := decide (cfg.vcoThresholdHz < eff)

/-- The VCO bit in bit 7 and `mult mod 32` in bits 6:2 of the FR1 field byte (30_encoding.md R80; 10_state.md R36). -/
def fr1Field (cfg : Config) (mult : Byte) (eff : Rat) : Byte :=
  ((if vcoBit cfg eff then 1#8 else 0#8) <<< 7) ||| ((mult &&& 0x1F#8) <<< 2)

/-- `fr1_merge(old, mult, eff)`: the field byte keeps its bits 1:0, the other two bytes are kept (30_encoding.md R80). -/
def fr1Merge (cfg : Config) (old : List Byte) (mult : Byte) (eff : Rat) : List Byte :=
  old.modify cfg.fr1Byte fun f => fr1Field cfg mult eff ||| (f &&& 0x03#8)

/-- `fr1_fresh(mult, eff)`: every other bit is 0 (30_encoding.md R80). -/
def fr1Fresh (cfg : Config) (mult : Byte) (eff : Rat) : List Byte :=
  [0x00#8, 0x00#8, 0x00#8].set cfg.fr1Byte (fr1Field cfg mult eff)

/-! The bus (30_encoding.md R70, R74, R85). -/

/-- A frame as its 4-bit symbols: each byte's high nibble, then its low nibble; bit i of a symbol is on line IOi
(30_encoding.md R70). -/
def symbols (frame : List Byte) : List (BitVec 4) :=
  frame.flatMap fun y => [y.extractLsb' 4 4, y.extractLsb' 0 4]

/-- One expanded byte: the higher logical bit at position 4, the next at position 0 (30_encoding.md R74). -/
def expandPair (hi lo : Bool) : Byte := (0#3 ++ BitVec.ofBool hi) ++ (0#3 ++ BitVec.ofBool lo)

/-- `X(b)`: the four expanded bytes of a logical byte, most significant bits first (30_encoding.md R74). -/
def expand (b : Byte) : List Byte :=
  [expandPair (b.getLsbD 7) (b.getLsbD 6), expandPair (b.getLsbD 5) (b.getLsbD 4),
   expandPair (b.getLsbD 3) (b.getLsbD 2), expandPair (b.getLsbD 1) (b.getLsbD 0)]

/-- An expanded byte that the narrow encoder can produce: `e & 0xEE = 0` (30_encoding.md R81, R85). -/
def expandedOk (e : Byte) : Bool := e &&& 0xEE#8 == 0#8

/-- The two logical bits of an expanded byte. -/
def pairOf (e : Byte) : BitVec 2 := BitVec.ofBool (e.getLsbD 4) ++ BitVec.ofBool (e.getLsbD 0)

/-- `Xinv` on one group of four expanded bytes; none when the group is malformed (30_encoding.md R85). -/
def unexpand (e0 e1 e2 e3 : Byte) : Option Byte :=
  if expandedOk e0 && expandedOk e1 && expandedOk e2 && expandedOk e3 then
    some (pairOf e0 ++ pairOf e1 ++ pairOf e2 ++ pairOf e3)
  else none

/-- The logical bytes of a narrow frame, group by group (30_encoding.md R85). -/
def unexpandAll : List Byte → Option (List Byte)
  | [] => some []
  | e0 :: e1 :: e2 :: e3 :: rest =>
    match unexpand e0 e1 e2 e3, unexpandAll rest with
    | some b, some bs => some (b :: bs)
    | _, _ => none
  | _ => none

/-- The wide write frame `[A] ++ payload` (30_encoding.md R72), which is also a profile record (R77). -/
def wideFrame (addr : Byte) (payload : List Byte) : List Byte := addr :: payload

/-- The narrow write frame `X(A) ++ X(d0) ++ …` (30_encoding.md R75). -/
def narrowFrame (addr : Byte) (payload : List Byte) : List Byte := (addr :: payload).flatMap expand

end Sys2Proof.Machine
end

