-- ==== Sys2Proof/WellFormed.lean ====
section
/-!
DEFINITION. Which instructions are legal (30_encoding.md R84, 20_memory.md R52, 41_transport.md R134), and which
configurations give every register its own address. What the types already rule out (a Mode above 3, a channel set with
bits 3:0, a Ch that is not one flag, a Bytes(3) of another length) is refused by the decoder.
-/

namespace Sys2Proof

open Sys2Proof.Machine

/-- Operand legality (30_encoding.md R84): a channel set marked non-empty is not 0; a wire form moves one of the six
registers whole (20_memory.md R52), and a narrow frame at most two payload bytes (30_encoding.md R75; log 15 on a longer one). -/
def Instr.wellFormed (cfg : Config) : Instr → Bool
  | .validateClocking _ _ => true
  | .freqToFtw _ _ => true
  | .ftwToFreq _ _ => true
  | .phaseToPow _ => true
  | .powToPhase _ => true
  | .ampToAcr _ => true
  | .acrToAmp _ _ _ => true
  | .configureMode _ => true
  | .startStream => true
  | .xportWrite _ _ => true
  | .xportRead _ _ => true
  | .streamWrite _ => true
  | .init _ _ _ => true
  | .setFrequency cs _ => cs != 0
  | .getFrequency _ => true
  | .setPhase cs _ => cs != 0
  | .getPhase _ => true
  | .setAmplitude cs _ => cs != 0
  | .getAmplitude _ => true
  | .configureSystemClock _ _ => true
  | .selfTest => true
  | .freeze => true
  | .profileNew _ => true
  | .profileUpdateChannels cs _ _ _ => cs != 0
  | .profileSetSystemClock _ _ => true
  | .profileFinalize => true
  | .frameWideWrite a p => wellFormedTxn cfg (writeByte a) p.length
  | .frameWideRead a => (regOfAddr cfg a).isSome
  | .frameNarrowWrite a p => decide (p.length ≤ narrowMaxPayload) && wellFormedTxn cfg (writeByte a) p.length
  | .profileRecord a p => wellFormedTxn cfg (writeByte a) p.length

/-- The six register addresses are six addresses, so that an address names one register (log 30). -/
def Config.wf (cfg : Config) : Bool := decide ((allRegs.map (regAddr cfg)).Nodup)

end Sys2Proof
end

