-- ==== Sys2Proof/Decode.lean ====
section
/-!
DEFINITION. The decoder, total on every packet and rejecting by name, and after it the encoder, both written from the same
tables: the command opcodes of 30_encoding.md R83, operand legality R84, frames R71 to R77 and R85.
-/

namespace Sys2Proof

open Sys2Proof.Machine

/-- Why a packet is no instruction. -/
inductive DecodeError
  /-- An opcode value that 30_encoding.md R83 reserves. -/
  | reservedOpcode
  /-- Operands of the wrong kind or number, or an illegal operand value (30_encoding.md R84). -/
  | illegalOperand
  /-- A frame that does not move one of the six registers whole (20_memory.md R52; 30_encoding.md R81). -/
  | illFormedTransaction
  /-- A byte sequence that is no frame of the adapter's mode (30_encoding.md R81, R85; log 27). -/
  | malformedFrame
  deriving DecidableEq, Repr

/-- The 26 command opcodes (30_encoding.md R83). -/
inductive Opcode
  | validateClocking | freqToFtw | ftwToFreq | phaseToPow | powToPhase | ampToAcr | acrToAmp
  | configureMode | startStream | xportWrite | xportRead | streamWrite
  | init | setFrequency | getFrequency | setPhase | getPhase | setAmplitude | getAmplitude
  | configureSystemClock | selfTest | freeze
  | profileNew | profileUpdateChannels | profileSetSystemClock | profileFinalize
  deriving DecidableEq, Repr, Inhabited

/-- The opcode byte (30_encoding.md R83; spec/opcode_table.json). -/
def opcodeByte : Opcode → Byte
  | .validateClocking => 0x01#8
  | .freqToFtw => 0x02#8
  | .ftwToFreq => 0x03#8
  | .phaseToPow => 0x04#8
  | .powToPhase => 0x05#8
  | .ampToAcr => 0x06#8
  | .acrToAmp => 0x07#8
  | .configureMode => 0x10#8
  | .startStream => 0x11#8
  | .xportWrite => 0x12#8
  | .xportRead => 0x13#8
  | .streamWrite => 0x14#8
  | .init => 0x20#8
  | .setFrequency => 0x23#8
  | .getFrequency => 0x24#8
  | .setPhase => 0x25#8
  | .getPhase => 0x26#8
  | .setAmplitude => 0x27#8
  | .getAmplitude => 0x28#8
  | .configureSystemClock => 0x29#8
  | .selfTest => 0x2A#8
  | .freeze => 0x2B#8
  | .profileNew => 0x30#8
  | .profileUpdateChannels => 0x31#8
  | .profileSetSystemClock => 0x32#8
  | .profileFinalize => 0x33#8

/-- The opcodes, in the table's order. -/
def allOpcodes : List Opcode :=
  [.validateClocking, .freqToFtw, .ftwToFreq, .phaseToPow, .powToPhase, .ampToAcr, .acrToAmp,
   .configureMode, .startStream, .xportWrite, .xportRead, .streamWrite,
   .init, .setFrequency, .getFrequency, .setPhase, .getPhase, .setAmplitude, .getAmplitude,
   .configureSystemClock, .selfTest, .freeze,
   .profileNew, .profileUpdateChannels, .profileSetSystemClock, .profileFinalize]

/-- The opcode of a byte; every other value is reserved (30_encoding.md R83). -/
def opcodeOfByte (b : Byte) : Option Opcode := allOpcodes.find? fun o => opcodeByte o == b

/-! Operands (30_encoding.md R83, R84). -/

/-- A Mode operand: an index above 3 is refused. -/
def readMode (n : Nat) : Except DecodeError Mode :=
  match modeOfIndex n with
  | some m => .ok m
  | none => .error .illegalOperand

/-- A non-empty channel set operand: bits 3:0 must be 0, and 0 is refused. -/
def readChSet (b : Byte) : Except DecodeError ChSet :=
  match chSetOfByte b with
  | some cs => if cs = 0 then .error .illegalOperand else .ok cs
  | none => .error .illegalOperand

/-- A Ch operand: exactly one flag. -/
def readCh (b : Byte) : Except DecodeError Channel :=
  match (chSetOfByte b).bind channelOfSet with
  | some ch => .ok ch
  | none => .error .illegalOperand

/-- The command of an opcode and its operands, in the order of the table (30_encoding.md R83, R84). -/
def decodeOperands (o : Opcode) (operands : List Operand) : Except DecodeError Instr :=
  match o with
  | .validateClocking =>
    match operands with
    | [.q ref, .u8 mult] => .ok (.validateClocking ref mult)
    | _ => .error .illegalOperand
  | .freqToFtw =>
    match operands with
    | [.q hz, .q sys] => .ok (.freqToFtw hz sys)
    | _ => .error .illegalOperand
  | .ftwToFreq =>
    match operands with
    | [.u32 ftw, .q sys] => .ok (.ftwToFreq ftw sys)
    | _ => .error .illegalOperand
  | .phaseToPow =>
    match operands with
    | [.q turns] => .ok (.phaseToPow turns)
    | _ => .error .illegalOperand
  | .powToPhase =>
    match operands with
    | [.u16 pow] => .ok (.powToPhase pow)
    | _ => .error .illegalOperand
  | .ampToAcr =>
    match operands with
    | [.q amp] => .ok (.ampToAcr amp)
    | _ => .error .illegalOperand
  | .acrToAmp =>
    match operands with
    | [.bytes [a0, a1, a2]] => .ok (.acrToAmp a0 a1 a2)
    | _ => .error .illegalOperand
  | .configureMode =>
    match operands with
    | [.mode n] => (readMode n).map .configureMode
    | _ => .error .illegalOperand
  | .startStream =>
    match operands with
    | [] => .ok .startStream
    | _ => .error .illegalOperand
  | .xportWrite =>
    match operands with
    | [.u8 addr, .bytes data] => .ok (.xportWrite addr data)
    | _ => .error .illegalOperand
  | .xportRead =>
    match operands with
    | [.u8 addr, .u8 n] => .ok (.xportRead addr n)
    | _ => .error .illegalOperand
  | .streamWrite =>
    match operands with
    | [.bytes bytes] => .ok (.streamWrite bytes)
    | _ => .error .illegalOperand
  | .init =>
    match operands with
    | [.mode n, .q ref, .u8 mult] => (readMode n).map fun m => .init m ref mult
    | _ => .error .illegalOperand
  | .setFrequency =>
    match operands with
    | [.chSet b, .q hz] => (readChSet b).map fun cs => .setFrequency cs hz
    | _ => .error .illegalOperand
  | .getFrequency =>
    match operands with
    | [.ch b] => (readCh b).map .getFrequency
    | _ => .error .illegalOperand
  | .setPhase =>
    match operands with
    | [.chSet b, .q turns] => (readChSet b).map fun cs => .setPhase cs turns
    | _ => .error .illegalOperand
  | .getPhase =>
    match operands with
    | [.ch b] => (readCh b).map .getPhase
    | _ => .error .illegalOperand
  | .setAmplitude =>
    match operands with
    | [.chSet b, .q amp] => (readChSet b).map fun cs => .setAmplitude cs amp
    | _ => .error .illegalOperand
  | .getAmplitude =>
    match operands with
    | [.ch b] => (readCh b).map .getAmplitude
    | _ => .error .illegalOperand
  | .configureSystemClock =>
    match operands with
    | [.q ref, .u8 mult] => .ok (.configureSystemClock ref mult)
    | _ => .error .illegalOperand
  | .selfTest =>
    match operands with
    | [] => .ok .selfTest
    | _ => .error .illegalOperand
  | .freeze =>
    match operands with
    | [] => .ok .freeze
    | _ => .error .illegalOperand
  | .profileNew =>
    match operands with
    | [.mode n] => (readMode n).map .profileNew
    | _ => .error .illegalOperand
  | .profileUpdateChannels =>
    match operands with
    | [.chSet b, .optU32 ftw, .optU16 pow, .optU32 acr] =>
      (readChSet b).map fun cs => .profileUpdateChannels cs ftw pow acr
    | _ => .error .illegalOperand
  | .profileSetSystemClock =>
    match operands with
    | [.q ref, .u8 mult] => .ok (.profileSetSystemClock ref mult)
    | _ => .error .illegalOperand
  | .profileFinalize =>
    match operands with
    | [] => .ok .profileFinalize
    | _ => .error .illegalOperand

/-- A host command (30_encoding.md R83). -/
def decodeCommand (opcode : Byte) (operands : List Operand) : Except DecodeError Instr :=
  match opcodeOfByte opcode with
  | some o => decodeOperands o operands
  | none => .error .reservedOpcode

/-! Frames (30_encoding.md R71 to R77, R82, R85). -/

/-- A wide-mode frame: bit 7 of byte 0 is the direction; a write's payload is width(A) bytes, and a read is its header
alone, since the chip drives the response (30_encoding.md R72, R73, R85). -/
def decodeWide (cfg : Config) : List Byte → Except DecodeError Instr
  | [] => .error .malformedFrame
  | b :: rest =>
    match regOfAddr cfg (addrOfByte b) with
    | none => .error .illFormedTransaction
    | some r =>
      if b.getLsbD 7 then
        if rest = [] then .ok (.frameWideRead (addrOfByte b)) else .error .malformedFrame
      else if rest.length = regWidth r then .ok (.frameWideWrite (addrOfByte b) rest)
      else .error .illFormedTransaction

/-- A narrow-mode frame: groups of four expanded bytes; the first group is the address with bit 7 = 0, the rest a payload
of at most two bytes and of the register's width (30_encoding.md R75, R82, R85).

DESIGN CHOICE (log 15): expanded bytes that carry a 3- or 4-byte register whole (FR1, CFTW0, ACR), put before the block as a
packet, are refused as illFormedTransaction; R75 gives them no frame, and 41_transport.md R134 gives A_Length to XPORT_WRITE
only. Safe: the model stops. -/
def decodeNarrow (cfg : Config) (bytes : List Byte) : Except DecodeError Instr :=
  match unexpandAll bytes with
  | none => .error .malformedFrame
  | some [] => .error .malformedFrame
  | some (b :: rest) =>
    if b.getLsbD 7 then .error .malformedFrame
    else
      match regOfAddr cfg (addrOfByte b) with
      | none => .error .illFormedTransaction
      | some r =>
        if rest.length = regWidth r ∧ rest.length ≤ narrowMaxPayload then .ok (.frameNarrowWrite (addrOfByte b) rest)
        else .error .illFormedTransaction

/-- A frame on the bus. No mode bit changes decoding except the adapter's mode (30_encoding.md R82); the two modes the
adapter does not support have no frame (41_transport.md R136). -/
def decodeFrame (cfg : Config) (mode : Mode) (bytes : List Byte) : Except DecodeError Instr :=
  match mode with
  | .fourBitSerial => decodeWide cfg bytes
  | .singleBitTwoWire => decodeNarrow cfg bytes
  | .singleBitThreeWire => .error .malformedFrame
  | .twoBitSerial => .error .malformedFrame

/-- What an observer of the bus reads in a whole frame, in the adapter's mode: the instruction, and a read's response, which
is the width(A) bytes after its header (30_encoding.md R82, R85). A write has no response. -/
def observeFrame (cfg : Config) (mode : Mode) (bytes : List Byte) : Except DecodeError (Instr × List Byte) :=
  match (decodeFrame cfg mode (bytes.take 1)), bytes.drop 1 with
  | .ok (.frameWideRead a), response =>
    if (regOfAddr cfg a).any (regWidth · == response.length) then .ok (.frameWideRead a, response)
    else .error .malformedFrame
  | _, _ => (decodeFrame cfg mode bytes).map (·, [])

/-- The record at the head of a stream, and the rest of the stream (30_encoding.md R77: the reader advances strictly by
each register's fixed known width). -/
def takeRecord (cfg : Config) : List Byte → Option ((Reg × List Byte) × List Byte)
  | [] => none
  | b :: rest =>
    if b.getLsbD 7 then none
    else
      match regOfAddr cfg (addrOfByte b) with
      | none => none
      | some r => if regWidth r ≤ rest.length then some ((r, rest.take (regWidth r)), rest.drop (regWidth r)) else none

/-- The records of a stream, with as much fuel as it has bytes; none when it does not parse (93_implementation_defined.md
U22). -/
def takeRecords (cfg : Config) : Nat → List Byte → Option (List (Reg × List Byte))
  | _, [] => some []
  | 0, _ :: _ => none
  | fuel + 1, b :: bs =>
    match takeRecord cfg (b :: bs) with
    | none => none
    | some (rec, rest) => (takeRecords cfg fuel rest).map (rec :: ·)

/-- A whole stream as its records (43_profile.md R208). -/
def streamRecords (cfg : Config) (bytes : List Byte) : Option (List (Reg × List Byte)) :=
  takeRecords cfg bytes.length bytes

/-- One record standing alone. -/
def decodeRecord (cfg : Config) : List Byte → Except DecodeError Instr
  | [] => .error .malformedFrame
  | b :: rest =>
    if b.getLsbD 7 then .error .malformedFrame
    else
      match regOfAddr cfg (addrOfByte b) with
      | none => .error .illFormedTransaction
      | some r =>
        if rest.length = regWidth r then .ok (.profileRecord (addrOfByte b) rest) else .error .illFormedTransaction

/-- The instruction of a packet, in the adapter's mode. -/
def decode (cfg : Config) (mode : Mode) : Packet → Except DecodeError Instr
  | .command opcode operands => decodeCommand opcode operands
  | .frame bytes => decodeFrame cfg mode bytes
  | .record bytes => decodeRecord cfg bytes

/-! The encoder. -/

/-- A command packet. -/
def commandPacket (o : Opcode) (operands : List Operand) : Packet := .command (opcodeByte o) operands

/-- The packet of an instruction: the opcode with its operands in the table's order (30_encoding.md R83), or the frame or
record bytes (R72, R73, R75, R77). -/
def encode : Instr → Packet
  | .validateClocking ref mult => commandPacket .validateClocking [.q ref, .u8 mult]
  | .freqToFtw hz sys => commandPacket .freqToFtw [.q hz, .q sys]
  | .ftwToFreq ftw sys => commandPacket .ftwToFreq [.u32 ftw, .q sys]
  | .phaseToPow turns => commandPacket .phaseToPow [.q turns]
  | .powToPhase pow => commandPacket .powToPhase [.u16 pow]
  | .ampToAcr amp => commandPacket .ampToAcr [.q amp]
  | .acrToAmp a0 a1 a2 => commandPacket .acrToAmp [.bytes [a0, a1, a2]]
  | .configureMode m => commandPacket .configureMode [.mode (modeIndex m)]
  | .startStream => commandPacket .startStream []
  | .xportWrite addr data => commandPacket .xportWrite [.u8 addr, .bytes data]
  | .xportRead addr n => commandPacket .xportRead [.u8 addr, .u8 n]
  | .streamWrite bytes => commandPacket .streamWrite [.bytes bytes]
  | .init m ref mult => commandPacket .init [.mode (modeIndex m), .q ref, .u8 mult]
  | .setFrequency cs hz => commandPacket .setFrequency [.chSet (chSetByte cs), .q hz]
  | .getFrequency ch => commandPacket .getFrequency [.ch (chSetByte (channelFlag ch))]
  | .setPhase cs turns => commandPacket .setPhase [.chSet (chSetByte cs), .q turns]
  | .getPhase ch => commandPacket .getPhase [.ch (chSetByte (channelFlag ch))]
  | .setAmplitude cs amp => commandPacket .setAmplitude [.chSet (chSetByte cs), .q amp]
  | .getAmplitude ch => commandPacket .getAmplitude [.ch (chSetByte (channelFlag ch))]
  | .configureSystemClock ref mult => commandPacket .configureSystemClock [.q ref, .u8 mult]
  | .selfTest => commandPacket .selfTest []
  | .freeze => commandPacket .freeze []
  | .profileNew m => commandPacket .profileNew [.mode (modeIndex m)]
  | .profileUpdateChannels cs ftw pow acr =>
    commandPacket .profileUpdateChannels [.chSet (chSetByte cs), .optU32 ftw, .optU16 pow, .optU32 acr]
  | .profileSetSystemClock ref mult => commandPacket .profileSetSystemClock [.q ref, .u8 mult]
  | .profileFinalize => commandPacket .profileFinalize []
  | .frameWideWrite a p => .frame (wideFrame (writeByte a) p)
  | .frameWideRead a => .frame [readByte a]
  | .frameNarrowWrite a p => .frame (narrowFrame (writeByte a) p)
  | .profileRecord a p => .record (wideFrame (writeByte a) p)

/-- Whether an instruction's packet decodes in the given adapter mode: a frame belongs to one mode (30_encoding.md R82),
everything else to every mode. -/
def wireModeOk (mode : Mode) : Instr → Bool
  | .frameWideWrite _ _ => mode == .fourBitSerial
  | .frameWideRead _ => mode == .fourBitSerial
  | .frameNarrowWrite _ _ => mode == .singleBitTwoWire
  | _ => true

/-! The rows of spec/opcode_table.json, and the host's reading of a row's bits. -/

/-- One row: the first byte must equal `pattern` under `mask`. -/
structure TableRow where
  mnemonic : String
  mask     : Byte
  pattern  : Byte
  deriving DecidableEq, Repr

/-- The row of an instruction (spec/opcode_table.json). -/
def tableRow : Instr → TableRow
  | .validateClocking _ _ => ⟨"VALIDATE_CLOCKING", 0xFF#8, 0x01#8⟩
  | .freqToFtw _ _ => ⟨"FREQ_TO_FTW", 0xFF#8, 0x02#8⟩
  | .ftwToFreq _ _ => ⟨"FTW_TO_FREQ", 0xFF#8, 0x03#8⟩
  | .phaseToPow _ => ⟨"PHASE_TO_POW", 0xFF#8, 0x04#8⟩
  | .powToPhase _ => ⟨"POW_TO_PHASE", 0xFF#8, 0x05#8⟩
  | .ampToAcr _ => ⟨"AMP_TO_ACR", 0xFF#8, 0x06#8⟩
  | .acrToAmp _ _ _ => ⟨"ACR_TO_AMP", 0xFF#8, 0x07#8⟩
  | .configureMode _ => ⟨"CONFIGURE_MODE", 0xFF#8, 0x10#8⟩
  | .startStream => ⟨"START_STREAM", 0xFF#8, 0x11#8⟩
  | .xportWrite _ _ => ⟨"XPORT_WRITE", 0xFF#8, 0x12#8⟩
  | .xportRead _ _ => ⟨"XPORT_READ", 0xFF#8, 0x13#8⟩
  | .streamWrite _ => ⟨"STREAM_WRITE", 0xFF#8, 0x14#8⟩
  | .init _ _ _ => ⟨"INIT", 0xFF#8, 0x20#8⟩
  | .setFrequency _ _ => ⟨"SET_FREQUENCY", 0xFF#8, 0x23#8⟩
  | .getFrequency _ => ⟨"GET_FREQUENCY", 0xFF#8, 0x24#8⟩
  | .setPhase _ _ => ⟨"SET_PHASE", 0xFF#8, 0x25#8⟩
  | .getPhase _ => ⟨"GET_PHASE", 0xFF#8, 0x26#8⟩
  | .setAmplitude _ _ => ⟨"SET_AMPLITUDE", 0xFF#8, 0x27#8⟩
  | .getAmplitude _ => ⟨"GET_AMPLITUDE", 0xFF#8, 0x28#8⟩
  | .configureSystemClock _ _ => ⟨"CONFIGURE_SYSTEM_CLOCK", 0xFF#8, 0x29#8⟩
  | .selfTest => ⟨"SELF_TEST", 0xFF#8, 0x2A#8⟩
  | .freeze => ⟨"FREEZE", 0xFF#8, 0x2B#8⟩
  | .profileNew _ => ⟨"PROFILE_NEW", 0xFF#8, 0x30#8⟩
  | .profileUpdateChannels _ _ _ _ => ⟨"PROFILE_UPDATE_CHANNELS", 0xFF#8, 0x31#8⟩
  | .profileSetSystemClock _ _ => ⟨"PROFILE_SET_SYSTEM_CLOCK", 0xFF#8, 0x32#8⟩
  | .profileFinalize => ⟨"PROFILE_FINALIZE", 0xFF#8, 0x33#8⟩
  | .frameWideWrite _ _ => ⟨"FRAME_WIDE_WRITE", 0x80#8, 0x00#8⟩
  | .frameWideRead _ => ⟨"FRAME_WIDE_READ", 0x80#8, 0x80#8⟩
  | .frameNarrowWrite _ _ => ⟨"FRAME_NARROW_WRITE", 0xFE#8, 0x00#8⟩
  | .profileRecord _ _ => ⟨"PROFILE_RECORD", 0x80#8, 0x00#8⟩

/-- The first byte of a packet: the opcode, or the first byte on the bus. -/
def firstByte : Packet → Option Byte
  | .command opcode _ => some opcode
  | .frame bytes => bytes.head?
  | .record bytes => bytes.head?

/-- The operands that stand beside an opcode when only the opcode's bits are given: the zero of each operand type, and
channel ONE where the type (a Ch, a non-empty ChSet) has no zero (log 18). -/
def blankOperands : Opcode → List Operand
  | .validateClocking => [.q 0, .u8 0]
  | .freqToFtw => [.q 0, .q 0]
  | .ftwToFreq => [.u32 0, .q 0]
  | .phaseToPow => [.q 0]
  | .powToPhase => [.u16 0]
  | .ampToAcr => [.q 0]
  | .acrToAmp => [.bytes [0, 0, 0]]
  | .configureMode => [.mode 0]
  | .startStream => []
  | .xportWrite => [.u8 0, .bytes []]
  | .xportRead => [.u8 0, .u8 0]
  | .streamWrite => [.bytes []]
  | .init => [.mode 0, .q 0, .u8 0]
  | .setFrequency => [.chSet 0x10#8, .q 0]
  | .getFrequency => [.ch 0x10#8]
  | .setPhase => [.chSet 0x10#8, .q 0]
  | .getPhase => [.ch 0x10#8]
  | .setAmplitude => [.chSet 0x10#8, .q 0]
  | .getAmplitude => [.ch 0x10#8]
  | .configureSystemClock => [.q 0, .u8 0]
  | .selfTest => []
  | .freeze => []
  | .profileNew => [.mode 0]
  | .profileUpdateChannels => [.chSet 0x10#8, .optU32 none, .optU16 none, .optU32 none]
  | .profileSetSystemClock => [.q 0, .u8 0]
  | .profileFinalize => []

/-- The bytes of w that a row's bits give, the first byte least significant. -/
def wordBytes (nbits w : Nat) : List Byte := (List.range (nbits / 8)).map fun k => BitVec.ofNat 8 (w / 2 ^ (8 * k))

/-- The wide frame that starts with these bytes, its missing payload bytes 0 (log 18). -/
def blankFrame (cfg : Config) : List Byte → List Byte
  | [] => []
  | b :: rest =>
    if b.getLsbD 7 then [b]
    else
      match regOfAddr cfg (addrOfByte b) with
      | some r => b :: (rest ++ List.replicate (regWidth r) 0#8).take (regWidth r)
      | none => b :: rest

/-- The packet a table row's bits stand for: the command of the opcode, else the wide frame of the byte (log 18). -/
def tablePacket (cfg : Config) (nbits w : Nat) : Packet :=
  match opcodeOfByte (BitVec.ofNat 8 w) with
  | some o => .command (opcodeByte o) (blankOperands o)
  | none => .frame (blankFrame cfg (wordBytes nbits w))

/-- The adapter mode in which that packet decodes: a wide frame needs FourBitSerial (log 18). -/
def tableMode (mode : Mode) (w : Nat) : Mode :=
  match opcodeOfByte (BitVec.ofNat 8 w) with
  | some _ => mode
  | none => .fourBitSerial

/-- The instruction the decoder reads from a table row's bits (log 18). -/
def decodeTableWord (nbits w : Nat) : Option Instr :=
  match decode Config.default (tableMode .singleBitTwoWire w) (tablePacket Config.default nbits w) with
  | .ok i => some i
  | .error _ => none

end Sys2Proof
end

