-- ==== Sys2Proof/Machine/State.lean ====
section
/-!
DEFINITION. The state: the block's own fields (10_state.md R20), the configuration (00_scope.md R10, R11), the
environment as data (20_memory.md R63, R64), the observation (00_scope.md R8; 60_exceptions.md R246) and the host's queue;
the errors, results, refusals and (empty) faults; and the state at the start of a run (70_reset_and_hazards.md R260).
-/

namespace Sys2Proof.Machine

/-- The ten error codes (60_exceptions.md R230). -/
inductive Err
  | interface
  | check
  | bounds
  | pin
  | frequency
  | aInvalidState
  | aInvalidAddress
  | aLength
  | aBus
  | pOverflow
  deriving DecidableEq, Repr, Inhabited

/-- The value of a successful command (30_encoding.md R83, column result). -/
inductive Value
  | none
  | q (v : Rat)
  | u16 (v : BitVec 16)
  | u32 (v : Word)
  | bytes (v : List Byte)
  | bool (v : Bool)
  | mode (v : Mode)
  | words (v : List Word)
  deriving DecidableEq, Repr, Inhabited

/-- A command's result, when it is not refused (60_exceptions.md R230). -/
inductive CmdResult
  | ok (v : Value)
  | err (e : Err)
  deriving DecidableEq, Repr, Inhabited

/-- The controller's lifecycle (10_state.md R24). -/
inductive Phase
  | absent
  | idle
  | resetAsserted
  | resetReleased
  | narrowModeSelected
  | csrWritten
  | latched1
  | desiredModeSelected
  | csrVerified
  | clockConfigured
  | latched2
  | ready
  | failed
  | frozen
  deriving DecidableEq, Repr, Inhabited

/-- The profile's status (10_state.md R27). -/
inductive ProfileStatus
  | absent
  | opened
  | finalized
  deriving DecidableEq, Repr, Inhabited

/-- The adapter (10_state.md R21, R22). -/
structure Adapter where
  mode      : Mode
  streaming : Bool
  deriving DecidableEq, Repr, Inhabited

/-- The controller (10_state.md R23, R24). -/
structure Controller where
  phase : Phase
  refHz : Rat
  mult  : Byte
  mode  : Mode
  deriving DecidableEq, Repr, Inhabited

/-- The logical levels last driven on the pins (10_state.md R26). -/
structure Pins where
  reset  : Bool
  update : Bool
  deriving DecidableEq, Repr, Inhabited

/-- The profile buffer's bytes, as address and byte pairs with addresses strictly rising; an address that is not listed
has no value (10_state.md R27; log 5). -/
abbrev Memory := List Host.Cell

/-- The profile (10_state.md R27). -/
structure Profile where
  buf    : Memory
  cursor : Nat
  mode   : Mode
  status : ProfileStatus
  deriving DecidableEq, Repr, Inhabited

/-- The reference chip: written contents (20_memory.md R64) and contents in active use (10_state.md R41; log 11). -/
structure Chip where
  written : RegFile
  active  : RegFile
  deriving DecidableEq, Repr, Inhabited

/-- Who draws when the script has run out: the free oracle, or the echo oracle (log 6). -/
inductive OracleRest
  | free
  | echo
  deriving DecidableEq, Repr, Inhabited

/-- The bus, the chip and the pins, as data (20_memory.md R63, R64; log 6). -/
structure Env where
  script : List Draw
  rest   : OracleRest
  chip   : Chip
  deriving DecidableEq, Repr, Inhabited

/-- The machine's state. -/
structure State where
  /-- The parameters; no step writes them (log 1). -/
  cfg     : Config
  a       : Adapter
  c       : Controller
  p       : Pins
  q       : Profile
  env     : Env
  /-- The events so far, oldest first (log 19). -/
  trace   : List Event
  /-- The command results so far, oldest first (log 19). -/
  results : List CmdResult
  /-- What the host and the bus have put before the block, next first (log 17). -/
  inbox   : List Packet
  deriving DecidableEq, Repr, Inhabited

/-- The block has no fault and no stuck state of its own (60_exceptions.md R245; log 23): nobody raises one. -/
inductive Fault
  deriving DecidableEq, Repr

/-- The refusals: `refuse(reason)` of 60_exceptions.md R244, under the spec's names. Each is SAFE: the run has no next
state, so nothing is claimed of it. -/
inductive Refusal
  /-- Raised by `exec` for an instruction without a meaning yet; safe. No arm uses it. -/
  | notModelled (mnemonic : String)
  /-- Raised by `step` for an opcode value outside the table (30_encoding.md R83); safe. -/
  | reservedOpcode
  /-- Raised by `step` at decode (30_encoding.md R84), by a meaning given an empty channel set (R84), and by
  PROFILE_SET_SYSTEM_CLOCK (43_profile.md R203); safe. -/
  | illegalOperand
  /-- Raised by FREQ_TO_FTW, and by SET_FREQUENCY through it, for sys ≤ 0 (40_codec.md R102); safe. -/
  | nonPositiveSystemClock
  /-- Raised by XPORT_WRITE, XPORT_READ and the wire forms for a transaction that does not move a register whole
  (20_memory.md R52); safe. -/
  | illFormedTransaction
  /-- Raised by STREAM_WRITE for a length that is no multiple of 4 (41_transport.md R140); safe. -/
  | unalignedStream
  /-- Raised by the controller commands outside Ready (42_channel_mux.md R160); safe. -/
  | notReady
  /-- Raised by INIT while a controller exists (70_reset_and_hazards.md R261); safe. -/
  | controllerExists
  /-- Raised by the host's transport commands and the wire forms while a controller owns the transport (60_exceptions.md R237;
  log 33); safe. -/
  | transportOwned
  /-- Raised by the profile commands with no open profile (43_profile.md R206); safe. -/
  | noOpenProfile
  /-- Raised by `step` for a byte sequence that is no frame of the adapter's mode (30_encoding.md R81, R85; log 27); safe. -/
  | malformedFrame
  deriving DecidableEq, Repr

/-- The three outcomes of a step, over this machine's types. -/
abbrev StepOutcome := Host.Outcome State Fault Refusal

/-- A lane with every register 0 (log 9). -/
def LaneRegs.reset : LaneRegs := { cftw0 := 0, cpow0 := 0, acr := 0, lsrr := 0 }

/-- A register file with every byte 0 (log 9; the start of the echo oracle in 95_test_vectors.md). -/
def RegFile.reset : RegFile :=
  { csr := 0, fr1 := 0, one := LaneRegs.reset, two := LaneRegs.reset, three := LaneRegs.reset, four := LaneRegs.reset }

/-- The state at the start of a run (70_reset_and_hazards.md R260; 10_state.md R42), and the values the model names where
the spec states none (log 2, log 3, log 4, log 7, log 9). -/
def State.reset : State :=
  { cfg := Config.default
    a := { mode := .singleBitTwoWire, streaming := false }
    c := { phase := .absent, refHz := 0, mult := 0, mode := .singleBitTwoWire }
    p := { reset := false, update := false }
    q := { buf := [], cursor := 0, mode := .singleBitTwoWire, status := .absent }
    env := { script := [], rest := .free, chip := { written := RegFile.reset, active := RegFile.reset } }
    trace := []
    results := []
    inbox := [] }

end Sys2Proof.Machine
end

