-- ==== Sys2Proof/Machine/Chip.lean ====
section
/-!
DEFINITION. The reference chip ("echo oracle", 20_memory.md R64): which channels a per-channel access reaches, register
writes and reads, the frames and streams it receives, and the latch commit and reset of the contents in active use
(10_state.md R33, R41, R43; 20_memory.md R61). It is one oracle among those the script can write; no normative rule
depends on it.
-/

namespace Sys2Proof.Machine

/-- The registers of one channel. -/
def laneOf (f : RegFile) : Channel → LaneRegs
  | .one => f.one
  | .two => f.two
  | .three => f.three
  | .four => f.four

/-- A per-channel register of a lane takes a payload; CSR and FR1 are not per channel (10_state.md R32). -/
def writeLane (r : Reg) (payload : List Byte) (l : LaneRegs) : LaneRegs :=
  match r with
  | .csr => l
  | .fr1 => l
  | .cftw0 => { l with cftw0 := BitVec.ofNat 32 (fromBe payload) }
  | .cpow0 => { l with cpow0 := BitVec.ofNat 16 (fromBe payload) }
  | .acr => { l with acr := BitVec.ofNat 24 (fromBe payload) }
  | .lsrr => { l with lsrr := BitVec.ofNat 16 (fromBe payload) }

/-- The per-channel write of every channel whose flag is set in CSR[7:4] (20_memory.md R64; 42_channel_mux.md R163). -/
def writeLanes (r : Reg) (payload : List Byte) (f : RegFile) : RegFile :=
  { f with
    one := if f.csr.getLsbD 4 then writeLane r payload f.one else f.one
    two := if f.csr.getLsbD 5 then writeLane r payload f.two else f.two
    three := if f.csr.getLsbD 6 then writeLane r payload f.three else f.three
    four := if f.csr.getLsbD 7 then writeLane r payload f.four else f.four }

/-- A register write into a register file (20_memory.md R64). -/
def writeReg (r : Reg) (payload : List Byte) (f : RegFile) : RegFile :=
  match r with
  | .csr => { f with csr := BitVec.ofNat 8 (fromBe payload) }
  | .fr1 => { f with fr1 := BitVec.ofNat 24 (fromBe payload) }
  | .cftw0 => writeLanes .cftw0 payload f
  | .cpow0 => writeLanes .cpow0 payload f
  | .acr => writeLanes .acr payload f
  | .lsrr => writeLanes .lsrr payload f

/-- The bytes of a per-channel register of a lane. -/
def readLane (r : Reg) (l : LaneRegs) : List Byte :=
  match r with
  | .csr => []
  | .fr1 => []
  | .cftw0 => beBytes 4 l.cftw0.toNat
  | .cpow0 => beBytes 2 l.cpow0.toNat
  | .acr => beBytes 3 l.acr.toNat
  | .lsrr => beBytes 2 l.lsrr.toNat

/-- The answer to a register read; none where the channel nibble is no single channel (20_memory.md R64). -/
def readReg (r : Reg) (f : RegFile) : Option (List Byte) :=
  match r with
  | .csr => some (beBytes 1 f.csr.toNat)
  | .fr1 => some (beBytes 3 f.fr1.toNat)
  | .cftw0 => (channelOfSet (csrChannels f.csr)).map fun ch => readLane .cftw0 (laneOf f ch)
  | .cpow0 => (channelOfSet (csrChannels f.csr)).map fun ch => readLane .cpow0 (laneOf f ch)
  | .acr => (channelOfSet (csrChannels f.csr)).map fun ch => readLane .acr (laneOf f ch)
  | .lsrr => (channelOfSet (csrChannels f.csr)).map fun ch => readLane .lsrr (laneOf f ch)

/-- The active CSR after a CSR write: the channel enables act at once, the mode bits wait for the latch (10_state.md R33,
R41). -/
def enableChannels (written active : Byte) : Byte := (written &&& 0xF0#8) ||| (active &&& 0x0F#8)

/-- The chip after its written contents become `f`.

DESIGN CHOICE (log 35): a CSR byte with bit 3 set or with a reserved mode code (bit 0 set) enables its channels as any other
byte does, though 93_implementation_defined.md U6 (30_encoding.md R81) leaves the chip's response to it open. Unsafe. -/
def Chip.withWritten (chip : Chip) (f : RegFile) : Chip :=
  { written := f, active := { chip.active with csr := enableChannels f.csr chip.active.csr } }

/-- The chip after a register write. -/
def Chip.write (chip : Chip) (r : Reg) (payload : List Byte) : Chip := chip.withWritten (writeReg r payload chip.written)

/-- The latch commit (20_memory.md R61); log 35 on a CSR byte that U6 leaves open. -/
def Chip.commit (chip : Chip) : Chip := { chip with active := chip.written }

/-- The chip's reset: active contents unspecified but for the narrow mode (10_state.md R43; log 12). -/
def Chip.assertReset (cfg : Config) (trace : List Event) (chip : Chip) : Chip :=
  let f := Config.chipAfterReset trace
  { chip with active := { f with csr := (f.csr &&& 0xF8#8) ||| (0#5 ++ modeCode cfg .singleBitTwoWire) } }

/-- How a write transaction's bytes are to be read by the chip. -/
inductive WireForm
  | wide
  | narrow
  | stream
  deriving DecidableEq, Repr, Inhabited

/-- The register writes a transaction's bytes are, as an observer of the bus decodes them (30_encoding.md R85; 43_profile.md
R208); none where they do not parse. -/
def wireWrites (cfg : Config) (form : WireForm) (bytes : List Byte) : Option (List (Reg × List Byte)) :=
  match form with
  | .stream => streamRecords cfg bytes
  | .wide =>
    match decodeWide cfg bytes with
    | .ok (.frameWideWrite a payload) => (regOfAddr cfg a).map fun r => [(r, payload)]
    | _ => none
  | .narrow =>
    match decodeNarrow cfg bytes with
    | .ok (.frameNarrowWrite a payload) => (regOfAddr cfg a).map fun r => [(r, payload)]
    | _ => none

/-- The chip after a write transaction it received (20_memory.md R64; 43_profile.md R208; log 14). -/
def Chip.receive (cfg : Config) (trace : List Event) (form : WireForm) (bytes : List Byte) (chip : Chip) : Chip :=
  match wireWrites cfg form bytes with
  | some ws => ws.foldl (fun c w => c.write w.1 w.2) chip
  | none => chip.withWritten (Config.chipAfterBadStream trace)

/-- The logical bytes in so many bytes on the bus: a narrow frame takes four for one (30_encoding.md R75). -/
def logicalBytes (form : WireForm) (n : Nat) : Nat :=
  match form with
  | .wide => n
  | .narrow => n / 4
  | .stream => n

/-- Register r as in `g`, in the channels a write reaches; every other register as in `f` (log 10). -/
def spoilReg (r : Reg) (g f : RegFile) : RegFile :=
  match r with
  | .csr => { f with csr := g.csr }
  | .fr1 => { f with fr1 := g.fr1 }
  | .cftw0 | .cpow0 | .acr | .lsrr =>
    { f with
      one := if f.csr.getLsbD 4 then writeLane r (readLane r g.one) f.one else f.one
      two := if f.csr.getLsbD 5 then writeLane r (readLane r g.two) f.two else f.two
      three := if f.csr.getLsbD 6 then writeLane r (readLane r g.three) f.three else f.three
      four := if f.csr.getLsbD 7 then writeLane r (readLane r g.four) f.four else f.four }

/-- The chip after the first n logical bytes of these register writes: each whole write is made; a write of which only the
address arrived changes nothing; one of whose payload a part arrived leaves its register free (20_memory.md R63; log 10). -/
def Chip.deliver (g : RegFile) : Nat → List (Reg × List Byte) → Chip → Chip
  | _, [], chip => chip
  | n, (r, v) :: ws, chip =>
    if 1 + v.length ≤ n then Chip.deliver g (n - (1 + v.length)) ws (chip.write r v)
    else if n ≤ 1 then chip
    else chip.withWritten (spoilReg r g chip.written)

/-- The chip after a failed write transaction, of which it received any prefix (20_memory.md R63; decision D37; log 10). -/
def Chip.receivePart (cfg : Config) (trace : List Event) (form : WireForm) (bytes : List Byte) (chip : Chip) : Chip :=
  match wireWrites cfg form bytes with
  | some ws => chip.deliver (Config.chipAfterFailedWrite trace) (logicalBytes form (Config.deliveredBytes trace)) ws
  | none => chip.withWritten (Config.chipAfterFailedWrite trace)

/-- The reference chip's answer to a read of n bytes (20_memory.md R64; log 29). -/
def Chip.answer (cfg : Config) (trace : List Event) (header : Byte) (n : Nat) (chip : Chip) : List Byte :=
  match (regOfAddr cfg (addrOfByte header)).bind fun r => readReg r chip.written with
  | some d => d
  | none => (List.range n).map (Config.unspecifiedRead trace)

end Sys2Proof.Machine
end

