-- ==== Sys2Proof/Machine/Ops.lean ====
section
/-!
DEFINITION. The named operations over the state that every meaning is written with: field updates, the profile buffer,
raising an error and ending a command (60_exceptions.md R230, R231, R244), the oracle's draws, the four primitives
BusWrite, BusRead, PinSet and Delay (00_scope.md R13), the adapter's checks (41_transport.md R132 to R137) and the
controller's register accesses (42_channel_mux.md R161).
-/

namespace Sys2Proof.Machine

/-- A procedure of the block: it ends with a value or with an error, and on an error everything it did stays
(00_scope.md R13 `raise`; 60_exceptions.md R231). -/
abbrev Proc := EStateM Err State

/-! ## Field updates -/

/-- Append one event to the trace. -/
def State.emit (s : State) (e : Event) : State := { s with trace := s.trace ++ [e] }

/-- Append one command result. -/
def State.report (s : State) (r : CmdResult) : State := { s with results := s.results ++ [r] }

def State.setAdapterMode (s : State) (m : Mode) : State := { s with a := { s.a with mode := m } }

def State.setStreaming (s : State) (b : Bool) : State := { s with a := { s.a with streaming := b } }

def State.setPhase (s : State) (ph : Phase) : State := { s with c := { s.c with phase := ph } }

def State.setControllerMode (s : State) (m : Mode) : State := { s with c := { s.c with mode := m } }

def State.setClock (s : State) (ref : Rat) (mult : Byte) : State := { s with c := { s.c with refHz := ref, mult := mult } }

def State.setPin (s : State) (line : Line) (level : Bool) : State :=
  match line with
  | .reset => { s with p := { s.p with reset := level } }
  | .update => { s with p := { s.p with update := level } }

def State.setProfile (s : State) (q : Profile) : State := { s with q := q }

def State.setChip (s : State) (chip : Chip) : State := { s with env := { s.env with chip := chip } }

def State.setScript (s : State) (ds : List Draw) : State := { s with env := { s.env with script := ds } }

def State.setInbox (s : State) (ps : List Packet) : State := { s with inbox := ps }

/-! ## Derived values -/

/-- `system_hz = c.mult * c.ref_hz`, exact (10_state.md R25). -/
def State.systemHz (s : State) : Rat := (s.c.mult.toNat : Rat) * s.c.refHz

/-- The level last driven on a pin. -/
def State.pinLevel (s : State) : Line → Bool
  | .reset => s.p.reset
  | .update => s.p.update

/-- The reset pin's electrical level (10_state.md R26; decision D28; log 32). -/
def State.resetElectrical (s : State) : Bool := if s.cfg.resetActiveHigh then s.p.reset else !s.p.reset

/-! ## The profile buffer (20_memory.md R50; 10_state.md R27; log 5) -/

/-- The byte at an address; an address nothing has written has no value. -/
def Memory.read? : Memory → Nat → Option Byte
  | [], _ => none
  | (k, b) :: m, a => if k = a then some b else Memory.read? m a

/-- Write one byte, keeping the addresses strictly rising. -/
def Memory.write : Memory → Nat → Byte → Memory
  | [], a, b => [(a, b)]
  | (k, c) :: m, a, b =>
    if a < k then (a, b) :: (k, c) :: m
    else if a = k then (a, b) :: m
    else (k, c) :: Memory.write m a b

/-- Write bytes from an address on. -/
def Memory.writeBytes : Memory → Nat → List Byte → Memory
  | m, _, [] => m
  | m, a, b :: bs => Memory.writeBytes (Memory.write m a b) (a + 1) bs

/-- The addresses rise strictly and lie in the buffer's address space 0..31. -/
def Memory.wf (m : Memory) : Bool :=
  decide (m.Pairwise fun x y => x.1 < y.1) && m.all fun x => decide (x.1 < profileCap)

/-- The byte PROFILE_FINALIZE takes from an address: a free value where nothing has been written (log 5). -/
def Memory.byteAt (m : Memory) (a : Nat) : Byte := (m.read? a).getD (Config.unspecifiedByte a)

/-- The bytes at addresses 0 up to n. -/
def Memory.bytesBelow (m : Memory) (n : Nat) : List Byte := (List.range n).map m.byteAt

/-! ## Errors, results and refusals -/

/-- `raise e`: end the command with the error (60_exceptions.md R231). This is the block's one way to stop on an error; it
has no trap entry and no return (R238). -/
def raise {α : Type} (e : Err) : Proc α := fun s => .error e s

/-- A check that raises an error when it fails. -/
def require (b : Bool) (e : Err) : Proc Unit := fun s => if b then .ok () s else .error e s

/-- A computation that may raise an error and touches no state (40_codec.md R114). -/
def orRaise {α : Type} : Except Err α → Proc α
  | .ok v => fun s => .ok v s
  | .error e => fun s => .error e s

/-- Change the state. -/
def change (f : State → State) : Proc Unit := fun s => .ok () (f s)

/-- Read the state. -/
def look {α : Type} (f : State → α) : Proc α := fun s => .ok (f s) s

/-- The host gets the result `Ok(v)` or `Err(e)` (60_exceptions.md R230). -/
def finish : EStateM.Result Err State Value → State
  | .ok v s => s.report (.ok v)
  | .error e s => s.report (.err e)

/-- Run a command's procedure to its end. -/
def complete (body : Proc Value) (s : State) : StepOutcome := .next (finish (body s))

/-- What a check that precedes every event decides (60_exceptions.md R234). -/
inductive Gate (α : Type)
  | refuse (r : Refusal)
  | raise (e : Err)
  | pass (v : α)
  deriving DecidableEq, Repr

/-- A command whose checks have been made: refused, ended with an error, or run. -/
def gated {α : Type} (g : Gate α) (body : α → Proc Value) (s : State) : StepOutcome :=
  match g with
  | .refuse r => .refused r
  | .raise e => complete (raise e) s
  | .pass v => complete (body v) s

/-- The numeric code of an error (60_exceptions.md R230). -/
def errCode : Err → Byte
  | .interface => 0x01#8
  | .check => 0x02#8
  | .bounds => 0x03#8
  | .pin => 0x04#8
  | .frequency => 0x05#8
  | .aInvalidState => 0x11#8
  | .aInvalidAddress => 0x12#8
  | .aLength => 0x13#8
  | .aBus => 0x14#8
  | .pOverflow => 0x21#8

/-- The refusal of a packet that is no instruction (60_exceptions.md R244). -/
def refusalOf : DecodeError → Refusal
  | .reservedOpcode => .reservedOpcode
  | .illegalOperand => .illegalOperand
  | .illFormedTransaction => .illFormedTransaction
  | .malformedFrame => .malformedFrame

/-! ## The oracle and the primitives (00_scope.md R13; 20_memory.md R63) -/

/-- The oracle's draw for the k-th event from here, when the trace stands as given: the script's k-th entry, else the
rest's (log 6). -/
def State.drawAt (s : State) (k : Nat) (trace : List Event) : Draw :=
  match s.env.script.drop k with
  | d :: _ => d
  | [] =>
    match s.env.rest with
    | .echo => .echo
    | .free => Config.oracleDraw trace

/-- The oracle's draw for the next event. -/
def State.draw (s : State) : Draw := s.drawAt 0 s.trace

/-- The state after the draw. -/
def State.drawn (s : State) : State := s.setScript (s.env.script.drop 1)

/-- `BusWrite(bytes)`: one write transaction. On failure the event stands, the chip may have received any prefix, and the
adapter error is A_Bus (20_memory.md R63; log 10). -/
def busWrite (form : WireForm) (bytes : List Byte) : Proc Unit := fun s =>
  if s.draw = .fail then
    .error .aBus
      ((s.drawn.emit (.write bytes false)).setChip (s.env.chip.receivePart s.cfg s.trace form bytes))
  else .ok () ((s.drawn.emit (.write bytes true)).setChip (s.env.chip.receive s.cfg s.trace form bytes))

/-- The answer a draw gives to a read of n bytes; none when it fails the read (20_memory.md R63; log 8). -/
def answerOf (cfg : Config) (trace : List Event) (chip : Chip) (d : Draw) (header : Byte) (n : Nat) : Option (List Byte) :=
  match d with
  | .fail => none
  | .echo => some (chip.answer cfg trace header n)
  | .data bytes => some ((List.range n).map fun k => bytes.getD k 0)

/-- The oracle's answer to the next read. -/
def State.readAnswer (s : State) (header : Byte) (n : Nat) : Option (List Byte) :=
  answerOf s.cfg s.trace s.env.chip s.draw header n

/-- `BusRead(h, n)`: one read transaction. A read has no side effect on the chip (20_memory.md R59). -/
def busRead (header : Byte) (n : Nat) : Proc (List Byte) := fun s =>
  match s.readAnswer header n with
  | some d => .ok d (s.drawn.emit (.read header n (some d)))
  | none => .error .aBus (s.drawn.emit (.read header n none))

/-- The chip's side of a pin change: the rising edge of update commits, asserting reset resets (20_memory.md R61;
10_state.md R43; log 11, log 12). -/
def State.chipAfterPin (s : State) (line : Line) (level : Bool) : Chip :=
  match line with
  | .update => if level && !s.p.update then s.env.chip.commit else s.env.chip
  | .reset => if level then s.env.chip.assertReset s.cfg s.trace else s.env.chip

/-- `PinSet(line, level)`: a failed change leaves the level as it was (60_exceptions.md R240; 70_reset_and_hazards.md R264;
log 13). -/
def pinSet (line : Line) (level : Bool) : Proc Unit := fun s =>
  if s.draw = .fail then .error .pin (s.drawn.emit (.pin line level false))
  else .ok () (((s.drawn.emit (.pin line level true)).setChip (s.chipAfterPin line level)).setPin line level)

/-- `Delay(us)`: a wait of at least us microseconds; it never fails (60_exceptions.md R239; log 24). -/
def delay (us : Nat) : Proc Unit := change fun s => s.emit (.delay us)

/-! ## The adapter's checks (41_transport.md R132 to R137, R140) -/

/-- The narrow path: the payload limit, then the width (41_transport.md R134). -/
def narrowGate (cfg : Config) (addr : Byte) (data : List Byte) : Gate (WireForm × List Byte) :=
  if narrowMaxPayload < data.length then .raise .aLength
  else if wellFormedTxn cfg addr data.length then .pass (.narrow, narrowFrame addr data)
  else .refuse .illFormedTransaction

/-- The wide path: no register write during a stream, then the width (41_transport.md R135). -/
def wideGate (cfg : Config) (streaming : Bool) (addr : Byte) (data : List Byte) : Gate (WireForm × List Byte) :=
  if streaming then .raise .aInvalidState
  else if wellFormedTxn cfg addr data.length then .pass (.wide, wideFrame addr data)
  else .refuse .illFormedTransaction

/-- The checks of XPORT_WRITE, in order, and the transaction it sends (41_transport.md R132 to R136). -/
def writeGate (s : State) (addr : Byte) (data : List Byte) : Gate (WireForm × List Byte) :=
  if addr.getLsbD 7 then .raise .aInvalidAddress
  else
    match s.a.mode with
    | .singleBitTwoWire => narrowGate s.cfg addr data
    | .fourBitSerial => wideGate s.cfg s.a.streaming addr data
    | .singleBitThreeWire => .raise .aInvalidState
    | .twoBitSerial => .raise .aInvalidState

/-- The wide read path: the streaming test under READ_DURING_STREAM = reject, then the width; the answer is the header byte
(41_transport.md R137). -/
def wideReadGate (cfg : Config) (streaming : Bool) (addr : Byte) (n : Nat) : Gate Byte :=
  if streaming && cfg.readDuringStream == .reject then .raise .aInvalidState
  else if wellFormedTxn cfg addr n then .pass (addr ||| 0x80#8)
  else .refuse .illFormedTransaction

/-- The checks of XPORT_READ, in order (41_transport.md R132, R136, R137). -/
def readGate (s : State) (addr : Byte) (n : Nat) : Gate Byte :=
  if addr.getLsbD 7 then .raise .aInvalidAddress
  else
    match s.a.mode with
    | .fourBitSerial => wideReadGate s.cfg s.a.streaming addr n
    | .singleBitTwoWire => .raise .aInvalidState
    | .singleBitThreeWire => .raise .aInvalidState
    | .twoBitSerial => .raise .aInvalidState

/-! ## The controller's register accesses (42_channel_mux.md R161) -/

/-- A procedure whose adapter errors surface as Interface (41_transport.md R141). -/
def asInterface {α : Type} (body : Proc α) : Proc α := fun s =>
  match body s with
  | .ok v t => .ok v t
  | .error _ t => .error .interface t

/-- `ctl_write(reg, v)`. The controller's transactions are well formed, so the adapter never refuses one
(20_memory.md R52; Laws/Ops.lean, ctlWrite_gate_ne_refuse). -/
def ctlWrite (r : Reg) (v : List Byte) : Proc Unit := fun s =>
  match writeGate s (writeByte (regAddr s.cfg r)) v with
  | .pass (form, frame) => asInterface (busWrite form frame) s
  | .raise _ => .error .interface s
  | .refuse _ => .error .interface s

/-- `ctl_read(reg, n)`, with n the register's width. -/
def ctlRead (r : Reg) : Proc (List Byte) := fun s =>
  match readGate s (writeByte (regAddr s.cfg r)) (regWidth r) with
  | .pass header => asInterface (busRead header (regWidth r)) s
  | .raise _ => .error .interface s
  | .refuse _ => .error .interface s

end Sys2Proof.Machine
end

