-- ==== Sys2Proof/Machine/Flags.lean ====
section
/-!
DEFINITION. The status bits and the tests of them. The block has no arithmetic flags (10_state.md R30); its status bits are
a.streaming, c.phase and q.status, and no command writes one as a side effect of arithmetic.
-/

namespace Sys2Proof.Machine

/-- No controller owns the transport, so the host may use it and may run INIT (60_exceptions.md R237; 70_reset_and_hazards.md
R261). The construction states exist only inside INIT and count as owned (log 20). -/
def hostOwns : Phase → Bool
  | .absent => true
  | .failed => true
  | .frozen => true
  | .idle => false
  | .resetAsserted => false
  | .resetReleased => false
  | .narrowModeSelected => false
  | .csrWritten => false
  | .latched1 => false
  | .desiredModeSelected => false
  | .csrVerified => false
  | .clockConfigured => false
  | .latched2 => false
  | .ready => false

/-- The gate of the host's transport commands (60_exceptions.md R237), and of the wire forms (log 33). -/
def ifHostOwns (s : State) (k : StepOutcome) : StepOutcome :=
  if hostOwns s.c.phase then k else .refused .transportOwned

/-- The gate of the steady-state controller commands (42_channel_mux.md R160). -/
def ifReady (s : State) (k : StepOutcome) : StepOutcome :=
  if s.c.phase = .ready then k else .refused .notReady

/-- The gate of the profile commands after PROFILE_NEW (43_profile.md R206). -/
def ifProfileOpen (s : State) (k : StepOutcome) : StepOutcome :=
  if s.q.status = .opened then k else .refused .noOpenProfile

/-- The legality of a channel set marked non-empty, tested before everything else (30_encoding.md R84; 60_exceptions.md
R234). -/
def ifNonEmpty (cs : ChSet) (k : StepOutcome) : StepOutcome :=
  if cs = 0 then .refused .illegalOperand else k

end Sys2Proof.Machine
end

