-- ==== Sys2Proof/Machine/Codec.lean ====
section
/-!
DEFINITION. The fixed-point unit codec (40_codec.md): the seven conversions as functions that touch no state, binary32
rounding for DECODE_ROUND = binary32, and the seven codec commands.
-/

namespace Sys2Proof.Machine

/-! ## Binary32 rounding (40_codec.md R100; log 22) -/

/-- The power of two with an integer exponent. -/
def pow2 (e : Int) : Rat := if 0 ≤ e then ((2 ^ e.toNat : Nat) : Rat) else 1 / ((2 ^ (-e).toNat : Nat) : Rat)

/-- The nearest integer to a non-negative rational, ties to even. -/
def roundHalfEven (x : Rat) : Int :=
  let f := x.floor
  let r := x - f
  if r < 1 / 2 then f
  else if 1 / 2 < r then f + 1
  else if f % 2 = 0 then f
  else f + 1

/-- The exponent of the binade of a positive rational: the greatest e with 2^e at most x. -/
def binade (x : Rat) : Int :=
  let e := (Nat.log2 x.num.natAbs : Int) - (Nat.log2 x.den : Int)
  if x < pow2 e then e - 1 else e

/-- A positive rational rounded to 24 significant bits, or to the subnormal spacing 2^-149. -/
def roundMagnitude (x : Rat) : Rat :=
  let ulp := pow2 (max (binade x) (-126) - 23)
  (roundHalfEven (x / ulp) : Rat) * ulp

/-- The nearest binary32 value, ties to even; a free value beyond the largest finite one. -/
def roundBinary32 (x : Rat) : Rat :=
  if x = 0 then 0
  else
    let m := roundMagnitude (if x < 0 then -x else x)
    if pow2 128 ≤ m then Config.binary32Overflow x
    else if x < 0 then -m else m

/-- A decoder's result under DECODE_ROUND (40_codec.md R100). -/
def decoded (cfg : Config) (x : Rat) : Rat :=
  match cfg.decodeRound with
  | .exact => x
  | .binary32 => roundBinary32 x

/-! ## The conversions -/

/-- The legal multipliers {1} ∪ [4, 20] (40_codec.md R101). -/
def multLegal (mult : Byte) : Bool := mult.toNat == 1 || (4 ≤ mult.toNat && mult.toNat ≤ 20)

/-- `multiplier * reference` under CODEC_ARITH (40_codec.md R100, R101). -/
def effHz (cfg : Config) (ref : Rat) (mult : Byte) : Rat :=
  match cfg.codecArith with
  | .exact => (mult.toNat : Rat) * ref
  | .binary32 => Config.binary32Product mult ref

/-- The supported bands; the bypass band only with multiplier 1 (40_codec.md R101). -/
def inBand (mult : Byte) (eff : Rat) : Bool :=
  (decide (255000000 ≤ eff) && decide (eff ≤ 500000000)) ||
  (decide (100000000 ≤ eff) && decide (eff ≤ 160000000)) ||
  (mult.toNat == 1 && decide (0 ≤ eff) && decide (eff < 100000000))

/-- VALIDATE_CLOCKING (40_codec.md R101). -/
def validateClocking (cfg : Config) (ref : Rat) (mult : Byte) : Except Err Rat :=
  if !multLegal mult then .error .bounds
  else if mult.toNat ≠ 1 ∧ ref < refMinPllHz then .error .bounds
  else if ref < refMinHz then .error .bounds
  else if inBand mult (effHz cfg ref mult) then .ok (effHz cfg ref mult)
  else .error .frequency

/-- `floor(hz * 2^32 / sys)` under CODEC_ARITH (40_codec.md R102). -/
def ftwFloor (cfg : Config) (hz sys : Rat) : Int :=
  match cfg.codecArith with
  | .exact => (hz * 4294967296 / sys).floor
  | .binary32 => (Config.binary32Ftw hz sys : Int)

/-- FREQ_TO_FTW for sys > 0 (40_codec.md R102). -/
def freqToFtw (cfg : Config) (hz sys : Rat) : Except Err Word :=
  if hz < 0 ∨ sys / 2 < hz then .error .bounds else .ok (BitVec.ofInt 32 (ftwFloor cfg hz sys))

/-- FTW_TO_FREQ (40_codec.md R103). -/
def ftwToFreq (cfg : Config) (ftw : Word) (sys : Rat) : Rat := decoded cfg ((ftw.toNat : Rat) * sys / 4294967296)

/-- `floor(turns * 2^14)` under CODEC_ARITH (40_codec.md R104). -/
def powFloor (cfg : Config) (turns : Rat) : Int :=
  match cfg.codecArith with
  | .exact => (turns * 16384).floor
  | .binary32 => Config.binary32Pow turns

/-- PHASE_TO_POW: the floor modulo 2^14 (40_codec.md R104). -/
def phaseToPow (cfg : Config) (turns : Rat) : BitVec 16 := 0#2 ++ BitVec.ofInt 14 (powFloor cfg turns)

/-- POW_TO_PHASE (40_codec.md R105). -/
def powToPhase (cfg : Config) (pow : BitVec 16) : Rat := decoded cfg (((pow &&& 0x3FFF#16).toNat : Rat) / 16384)

/-- `floor(amp * 1024)` under CODEC_ARITH (40_codec.md R106). -/
def codeFloor (cfg : Config) (amp : Rat) : Int :=
  match cfg.codecArith with
  | .exact => (amp * 1024).floor
  | .binary32 => (Config.binary32Code amp : Int)

/-- AMP_TO_ACR (40_codec.md R106). -/
def ampToAcr (cfg : Config) (amp : Rat) : Except Err Word :=
  if amp < 0 ∨ 1 < amp then .error .bounds
  else if codeFloor cfg amp < 1024 then .ok (0x1000#32 ||| BitVec.ofInt 32 (codeFloor cfg amp))
  else .ok 0#32

/-- ACR_TO_AMP of a 24-bit value (40_codec.md R107). -/
def acrValueToAmp (cfg : Config) (v : BitVec 24) : Rat :=
  if v.getLsbD 12 then decoded cfg (((v &&& 0x3FF#24).toNat : Rat) / 1024) else 1

/-- ACR_TO_AMP of a payload, most significant byte first (40_codec.md R107). -/
def acrToAmp (cfg : Config) (payload : List Byte) : Rat := acrValueToAmp cfg (BitVec.ofNat 24 (fromBe payload))

/-! ## The commands (40_codec.md R114: accepted in every lifecycle state, no event, no state) -/

/-- VALIDATE_CLOCKING (40_codec.md R101). -/
def execValidateClocking (ref : Rat) (mult : Byte) (s : State) : StepOutcome :=
  complete (do
    let eff ← orRaise (validateClocking s.cfg ref mult)
    return .q eff) s

/-- FREQ_TO_FTW; a system clock ≤ 0 is refused first (40_codec.md R102). -/
def execFreqToFtw (hz sys : Rat) (s : State) : StepOutcome :=
  if sys ≤ 0 then .refused .nonPositiveSystemClock
  else complete (do
    let ftw ← orRaise (freqToFtw s.cfg hz sys)
    return .u32 ftw) s

/-- FTW_TO_FREQ (40_codec.md R103). -/
def execFtwToFreq (ftw : Word) (sys : Rat) (s : State) : StepOutcome :=
  complete (return .q (ftwToFreq s.cfg ftw sys)) s

/-- PHASE_TO_POW (40_codec.md R104). -/
def execPhaseToPow (turns : Rat) (s : State) : StepOutcome :=
  complete (return .u16 (phaseToPow s.cfg turns)) s

/-- POW_TO_PHASE (40_codec.md R105). -/
def execPowToPhase (pow : BitVec 16) (s : State) : StepOutcome :=
  complete (return .q (powToPhase s.cfg pow)) s

/-- AMP_TO_ACR (40_codec.md R106). -/
def execAmpToAcr (amp : Rat) (s : State) : StepOutcome :=
  complete (do
    let acr ← orRaise (ampToAcr s.cfg amp)
    return .u32 acr) s

/-- ACR_TO_AMP (40_codec.md R107). -/
def execAcrToAmp (a0 a1 a2 : Byte) (s : State) : StepOutcome :=
  complete (return .q (acrToAmp s.cfg [a0, a1, a2])) s

end Sys2Proof.Machine
end

