-- ==== Sys2Proof/Machine/Controller.lean ====
section
/-!
DEFINITION. The controller: the multiplex procedures MODIFY_CHANNEL and READ_CHANNEL (42_channel_mux.md R165, R166), the
steady-state commands (R167 to R175), and the bring-up command INIT with its latch pulse (70_reset_and_hazards.md R262,
R263).
-/

namespace Sys2Proof.Machine

/-- `csr_for(cs)` (42_channel_mux.md R162). -/
def csrFor (s : State) (cs : ChSet) : Byte := csrByte s.cfg s.c.mode cs

/-- MODIFY_CHANNEL: select the channels, then write the register; CSR is not restored (42_channel_mux.md R165, R176). -/
def modifyChannel (cs : ChSet) (r : Reg) (v : List Byte) : Proc Unit := do
  let w ← look (csrFor · cs)
  ctlWrite .csr [w]
  ctlWrite r v

/-- The one byte of a CSR read. -/
def readCsr : Proc Byte := do
  let d ← ctlRead .csr
  return d.headD 0

/-- The restore of READ_CHANNEL. Where this write fails CSR is left as it was, at `csr_for(ch)`, and not restored: the rule
says so of this one write, of which a prefix would else be open (42_channel_mux.md R166; 70_reset_and_hazards.md R271; decision
D18). -/
def restoreCsr (saved : Byte) : Proc Unit := fun s =>
  match ctlWrite .csr [saved] s with
  | .ok v t => .ok v t
  | .error e t => .error e (t.setChip s.env.chip)

/-- READ_CHANNEL: save CSR, select the channel, read the register, restore CSR; an error stops it at once
(42_channel_mux.md R166). -/
def readChannel (ch : Channel) (r : Reg) : Proc (List Byte) := do
  let saved ← readCsr
  let w ← look (csrFor · (channelFlag ch))
  ctlWrite .csr [w]
  let d ← ctlRead r
  restoreCsr saved
  return d

/-- SET_FREQUENCY (42_channel_mux.md R167). -/
def execSetFrequency (cs : ChSet) (hz : Rat) (s : State) : StepOutcome :=
  ifNonEmpty cs (ifReady s (
    if s.systemHz ≤ 0 then .refused .nonPositiveSystemClock
    else complete (do
      let ftw ← orRaise (freqToFtw s.cfg hz s.systemHz)
      modifyChannel cs .cftw0 (ftwPayload ftw)
      return .q (ftwToFreq s.cfg ftw s.systemHz)) s))

/-- GET_FREQUENCY (42_channel_mux.md R168). -/
def execGetFrequency (ch : Channel) (s : State) : StepOutcome :=
  ifReady s (complete (do
    let d ← readChannel ch .cftw0
    return .q (ftwToFreq s.cfg (BitVec.ofNat 32 (fromBe d)) s.systemHz)) s)

/-- SET_PHASE (42_channel_mux.md R169). -/
def execSetPhase (cs : ChSet) (turns : Rat) (s : State) : StepOutcome :=
  ifNonEmpty cs (ifReady s (complete (do
    let pow := phaseToPow s.cfg turns
    modifyChannel cs .cpow0 (powPayload pow)
    return .q (powToPhase s.cfg pow)) s))

/-- GET_PHASE (42_channel_mux.md R170). -/
def execGetPhase (ch : Channel) (s : State) : StepOutcome :=
  ifReady s (complete (do
    let d ← readChannel ch .cpow0
    return .q (powToPhase s.cfg (BitVec.ofNat 16 (fromBe d)))) s)

/-- SET_AMPLITUDE (42_channel_mux.md R171). -/
def execSetAmplitude (cs : ChSet) (amp : Rat) (s : State) : StepOutcome :=
  ifNonEmpty cs (ifReady s (complete (do
    let acr ← orRaise (ampToAcr s.cfg amp)
    modifyChannel cs .acr (acrPayload acr)
    return .q (acrToAmp s.cfg (acrPayload acr))) s))

/-- GET_AMPLITUDE (42_channel_mux.md R172). -/
def execGetAmplitude (ch : Channel) (s : State) : StepOutcome :=
  ifReady s (complete (do
    let d ← readChannel ch .acr
    return .q (acrToAmp s.cfg d)) s)

/-- The body of CONFIGURE_SYSTEM_CLOCK: validate, read FR1, write it back, then store the clock (42_channel_mux.md R173). -/
def configureClock (ref : Rat) (mult : Byte) : Proc Rat := do
  let cfg ← look (·.cfg)
  let eff ← orRaise (validateClocking cfg ref mult)
  let old ← ctlRead .fr1
  ctlWrite .fr1 (fr1Merge cfg old mult eff)
  change (·.setClock ref mult)
  return eff

/-- CONFIGURE_SYSTEM_CLOCK (42_channel_mux.md R173). -/
def execConfigureSystemClock (ref : Rat) (mult : Byte) (s : State) : StepOutcome :=
  ifReady s (complete (do
    let eff ← configureClock ref mult
    return .q eff) s)

/-- The end of SELF_TEST, after the channel enables were seen set: clear them, look, and restore CSR. -/
def selfTestClear (saved w : Byte) : Proc Value := do
  ctlWrite .csr [w &&& 0x0F#8]
  let w' ← readCsr
  if csrChannels w' = 0#4 then do
    ctlWrite .csr [saved]
    return .bool true
  else return .bool false

/-- SELF_TEST; a soft mismatch is the result false, with no restore (42_channel_mux.md R174). -/
def selfTestBody : Proc Value := do
  let saved ← readCsr
  ctlWrite .csr [saved ||| 0xF0#8]
  let w ← readCsr
  if csrChannels w = 0xF#4 then selfTestClear saved w else return .bool false

/-- SELF_TEST (42_channel_mux.md R174). -/
def execSelfTest (s : State) : StepOutcome := ifReady s (complete selfTestBody s)

/-- FREEZE (42_channel_mux.md R175). -/
def execFreeze (s : State) : StepOutcome :=
  ifReady s (complete (do
    change (·.setPhase .frozen)
    return .mode s.c.mode) s)

/-! ## Bring-up (70_reset_and_hazards.md) -/

/-- The wait before the rising edge, made only under the other reading of "dwell on each side" (70_reset_and_hazards.md
R263; log 25). -/
def leadDwell : Proc Unit := fun s => if s.cfg.latchLeadDwell then delay tDwellUs s else .ok () s

/-- LatchPulse: high, dwell, low, dwell (70_reset_and_hazards.md R263). -/
def latchPulse : Proc Unit := do
  leadDwell
  pinSet .update true
  delay tDwellUs
  pinSet .update false
  delay tDwellUs

/-- Enter a phase of the lifecycle. -/
def enter (ph : Phase) : Proc Unit := change (·.setPhase ph)

/-- INIT from Idle to NarrowModeSelected: reset the chip and select the narrow mode (70_reset_and_hazards.md R262). -/
def initReset (m : Mode) : Proc Unit := do
  enter .idle
  change (·.setControllerMode m)
  pinSet .update false
  pinSet .reset true
  enter .resetAsserted
  delay tDwellUs
  pinSet .reset false
  enter .resetReleased
  change (·.setAdapterMode .singleBitTwoWire)
  enter .narrowModeSelected

/-- INIT from CsrWritten to CsrVerified: write the mode, latch it, change over and read it back (70_reset_and_hazards.md
R262, R268). -/
def initMode (m : Mode) : Proc Unit := do
  let w ← look fun s => csrByte s.cfg m allChannels
  ctlWrite .csr [w]
  enter .csrWritten
  latchPulse
  enter .latched1
  change (·.setAdapterMode m)
  delay tDwellUs
  enter .desiredModeSelected
  let r ← readCsr
  require (r == w) .check
  enter .csrVerified

/-- INIT from ClockConfigured to Ready: configure the clock and commit it (70_reset_and_hazards.md R262). -/
def initClock (ref : Rat) (mult : Byte) : Proc Unit := do
  let _ ← configureClock ref mult
  enter .clockConfigured
  latchPulse
  enter .latched2
  enter .ready

/-- The INIT sequence (70_reset_and_hazards.md R262). -/
def initSequence (m : Mode) (ref : Rat) (mult : Byte) : Proc Unit := do
  initReset m
  initMode m
  initClock ref mult

/-- On any error of the construction the phase is Failed, then the error is raised (70_reset_and_hazards.md R262, R264). -/
def orFailed (body : Proc Unit) : Proc Value := fun s =>
  match body s with
  | .ok _ t => .ok .none t
  | .error e t => .error e (t.setPhase .failed)

/-- INIT; refused while a controller exists (70_reset_and_hazards.md R261). -/
def execInit (m : Mode) (ref : Rat) (mult : Byte) (s : State) : StepOutcome :=
  if hostOwns s.c.phase then complete (orFailed (initSequence m ref mult)) s else .refused .controllerExists

end Sys2Proof.Machine
end

