-- ==== Sys2Proof/Machine/Profile.lean ====
section
/-!
DEFINITION. The profile serializer (43_profile.md): records appended to its own buffer, padded and read out as 32-bit
words. No command emits an event or touches the adapter, the controller or the chip (R207).
-/

namespace Sys2Proof.Machine

/-- ADD_WRITE(A, p): append one record (43_profile.md R201). -/
def Profile.addWrite (q : Profile) (a : RegAddr) (payload : List Byte) : Profile :=
  { q with buf := q.buf.writeBytes q.cursor (writeByte a :: payload), cursor := q.cursor + 1 + payload.length }

/-- Append the register's record. -/
def Profile.addReg (q : Profile) (cfg : Config) (r : Reg) (payload : List Byte) : Profile :=
  q.addWrite (regAddr cfg r) payload

/-- PROFILE_NEW: an empty, open profile; the buffer's old bytes are gone (43_profile.md R200; log 5). -/
def execProfileNew (m : Mode) (s : State) : StepOutcome :=
  complete (do
    change (·.setProfile { buf := [], cursor := 0, mode := m, status := .opened })
    return .none) s

/-- The bytes PROFILE_UPDATE_CHANNELS appends (43_profile.md R202). -/
def updateNeed (ftw : Option Word) (pow : Option (BitVec 16)) (acr : Option Word) : Nat :=
  2 + (if ftw.isSome then 5 else 0) + (if pow.isSome then 3 else 0) + (if acr.isSome then 4 else 0)

/-- Append a record for a value that is present. -/
def Profile.addOpt {α : Type} (q : Profile) (cfg : Config) (r : Reg) (payload : α → List Byte) : Option α → Profile
  | some v => q.addReg cfg r (payload v)
  | none => q

/-- The records of PROFILE_UPDATE_CHANNELS, in the fixed order CSR, CFTW0, CPOW0, ACR (43_profile.md R202). -/
def Profile.addUpdate (q : Profile) (cfg : Config) (cs : ChSet) (ftw : Option Word) (pow : Option (BitVec 16))
    (acr : Option Word) : Profile :=
  (((q.addReg cfg .csr [csrByte cfg q.mode cs]).addOpt cfg .cftw0 ftwPayload ftw).addOpt cfg .cpow0 powPayload pow).addOpt
    cfg .acr acrPayload acr

/-- The room test: P_Overflow with nothing appended when the length would pass PROFILE_CAP (43_profile.md R205). -/
def requireRoom (s : State) (need : Nat) : Proc Unit := require (decide (s.q.cursor + need ≤ profileCap)) .pOverflow

/-- PROFILE_UPDATE_CHANNELS (43_profile.md R202). -/
def execProfileUpdateChannels (cs : ChSet) (ftw : Option Word) (pow : Option (BitVec 16)) (acr : Option Word) (s : State) :
    StepOutcome :=
  ifNonEmpty cs (ifProfileOpen s (complete (do
    requireRoom s (updateNeed ftw pow acr)
    change fun t => t.setProfile (t.q.addUpdate t.cfg cs ftw pow acr)
    return .none) s))

/-- PROFILE_SET_SYSTEM_CLOCK: no clocking validation (43_profile.md R203). -/
def execProfileSetSystemClock (ref : Rat) (mult : Byte) (s : State) : StepOutcome :=
  ifProfileOpen s (
    if 31 < mult.toNat ∨ ref < 0 then .refused .illegalOperand
    else complete (do
      requireRoom s 4
      change fun t => t.setProfile (t.q.addReg t.cfg .fr1 (fr1Fresh t.cfg mult (effHz t.cfg ref mult)))
      return .q (effHz s.cfg ref mult)) s)

/-- The payload of the LSRR pad record (43_profile.md R204; log 25). -/
def lsrrPad (cfg : Config) : List Byte := beBytes 2 cfg.padLsrr.toNat

/-- The payload of the CSR pad record: MODE_CODE(q.mode), no channel enabled (43_profile.md R204; log 25). -/
def csrPad (cfg : Config) (m : Mode) : Byte := cfg.padCsr.getD (csrByte cfg m 0)

/-- The length of the LSRR pad: 3 when the cursor is odd (43_profile.md R204). -/
def pad1 (cursor : Nat) : Nat := if cursor % 2 = 1 then 3 else 0

/-- The length of the CSR pad: 2 when 2 bytes remain unaligned (43_profile.md R204). -/
def pad2 (cursor : Nat) : Nat := if (cursor + pad1 cursor) % 4 = 2 then 2 else 0

/-- The pad records appended (43_profile.md R204). -/
def Profile.padded (q : Profile) (cfg : Config) : Profile :=
  let q1 := if q.cursor % 2 = 1 then q.addReg cfg .lsrr (lsrrPad cfg) else q
  if q1.cursor % 4 = 2 then q1.addReg cfg .csr [csrPad cfg q1.mode] else q1

/-- The bytes of the profile, in buffer order (43_profile.md R204, R208). -/
def Profile.bytes (q : Profile) : List Byte := q.buf.bytesBelow q.cursor

/-- PROFILE_FINALIZE (43_profile.md R204). -/
def execProfileFinalize (s : State) : StepOutcome :=
  ifProfileOpen s (complete (do
    requireRoom s (pad1 s.q.cursor + pad2 s.q.cursor)
    change fun t => t.setProfile { t.q.padded t.cfg with status := .finalized }
    let bytes ← look (·.q.bytes)
    return .words (wordsOf s.cfg.wordEndian bytes)) s)

end Sys2Proof.Machine
end

