-- ==== Sys2Proof/Machine/Transport.lean ====
section
/-!
DEFINITION. The transport re-encoding adapter's commands (41_transport.md): CONFIGURE_MODE, START_STREAM, XPORT_WRITE,
XPORT_READ and STREAM_WRITE; and the four wire forms of 30_encoding.md as transactions of the adapter (log 15). All are
refused while a controller owns the transport (10_state.md R34; 60_exceptions.md R237; log 33).
-/

namespace Sys2Proof.Machine

/-- Send a write transaction; the command's result is none. -/
def sendWrite (w : WireForm × List Byte) : Proc Value := do
  busWrite w.1 w.2
  return .none

/-- Send a read transaction of n bytes; the command's result is the answer. -/
def sendRead (n : Nat) (header : Byte) : Proc Value := do
  let d ← busRead header n
  return .bytes d

/-- CONFIGURE_MODE (41_transport.md R130). -/
def execConfigureMode (m : Mode) (s : State) : StepOutcome :=
  ifHostOwns s (complete (do
    change (·.setAdapterMode m)
    return .none) s)

/-- START_STREAM (41_transport.md R131). -/
def execStartStream (s : State) : StepOutcome :=
  ifHostOwns s (complete (do
    change (·.setStreaming true)
    return .none) s)

/-- XPORT_WRITE (41_transport.md R133). -/
def execXportWrite (addr : Byte) (data : List Byte) (s : State) : StepOutcome :=
  ifHostOwns s (gated (writeGate s addr data) sendWrite s)

/-- XPORT_READ (41_transport.md R137). -/
def execXportRead (addr n : Byte) (s : State) : StepOutcome :=
  ifHostOwns s (gated (readGate s addr n.toNat) (sendRead n.toNat) s)

/-- The checks of STREAM_WRITE: an active wide-mode stream, then a length that is a multiple of 4 (41_transport.md R140). -/
def streamGate (s : State) (bytes : List Byte) : Gate (WireForm × List Byte) :=
  if s.a.mode ≠ .fourBitSerial ∨ s.a.streaming = false then .raise .aInvalidState
  else if bytes.length % 4 ≠ 0 then .refuse .unalignedStream
  else .pass (.stream, bytes)

/-- STREAM_WRITE (41_transport.md R140). -/
def execStreamWrite (bytes : List Byte) (s : State) : StepOutcome :=
  ifHostOwns s (gated (streamGate s bytes) sendWrite s)

/-! ## The wire forms (30_encoding.md R72, R73, R75, R77; log 15, log 16, log 33) -/

/-- FRAME_WIDE_WRITE: the wide write frame on the bus, under the wide path's checks (30_encoding.md R72; 41_transport.md
R135). -/
def execFrameWideWrite (a : RegAddr) (payload : List Byte) (s : State) : StepOutcome :=
  ifHostOwns s (gated
    (if s.a.mode = .fourBitSerial then wideGate s.cfg s.a.streaming (writeByte a) payload else .raise .aInvalidState)
    sendWrite s)

/-- The width of the register at an address; 0, which no register has, at any other address. -/
def widthAt (cfg : Config) (a : RegAddr) : Nat :=
  match regOfAddr cfg a with
  | some r => regWidth r
  | none => 0

/-- FRAME_WIDE_READ: the header on the bus and width(A) response bytes from the chip (30_encoding.md R73; 41_transport.md
R137). -/
def execFrameWideRead (a : RegAddr) (s : State) : StepOutcome :=
  ifHostOwns s (gated
    (if s.a.mode = .fourBitSerial then wideReadGate s.cfg s.a.streaming (writeByte a) (widthAt s.cfg a)
     else .raise .aInvalidState)
    (sendRead (widthAt s.cfg a)) s)

/-- FRAME_NARROW_WRITE: the narrow write frame on the bus, under the narrow path's checks (30_encoding.md R75;
41_transport.md R134). -/
def execFrameNarrowWrite (a : RegAddr) (payload : List Byte) (s : State) : StepOutcome :=
  ifHostOwns s (gated
    (if s.a.mode = .singleBitTwoWire then narrowGate s.cfg (writeByte a) payload else .raise .aInvalidState)
    sendWrite s)

/-- The checks of one record of a stream: an active wide-mode stream, then the register's width (30_encoding.md R77). -/
def recordGate (s : State) (a : RegAddr) (payload : List Byte) : Gate (WireForm × List Byte) :=
  if s.a.mode ≠ .fourBitSerial ∨ s.a.streaming = false then .raise .aInvalidState
  else if wellFormedTxn s.cfg (writeByte a) payload.length then .pass (.stream, wideFrame (writeByte a) payload)
  else .refuse .illFormedTransaction

/-- PROFILE_RECORD: one record of a continuous stream, which the chip applies as a wide write (30_encoding.md R77;
43_profile.md R208). -/
def execProfileRecord (a : RegAddr) (payload : List Byte) (s : State) : StepOutcome :=
  ifHostOwns s (gated (recordGate s a payload) sendWrite s)

end Sys2Proof.Machine
end

