-- ==== Sys2Proof/Machine/Dispatch.lean ====
section
/-!
DEFINITION. The dispatch: one arm for each constructor of Instr.
-/

namespace Sys2Proof.Machine

/-- The meaning of every instruction (spec/opcode_table.json). -/
def exec (i : Instr) (s : State) : Host.Outcome State Fault Refusal :=
  match i with
  | .validateClocking ref mult => Sys2Proof.Machine.execValidateClocking ref mult s
  | .freqToFtw hz sys => Sys2Proof.Machine.execFreqToFtw hz sys s
  | .ftwToFreq ftw sys => Sys2Proof.Machine.execFtwToFreq ftw sys s
  | .phaseToPow turns => Sys2Proof.Machine.execPhaseToPow turns s
  | .powToPhase pow => Sys2Proof.Machine.execPowToPhase pow s
  | .ampToAcr amp => Sys2Proof.Machine.execAmpToAcr amp s
  | .acrToAmp a0 a1 a2 => Sys2Proof.Machine.execAcrToAmp a0 a1 a2 s
  | .configureMode m => Sys2Proof.Machine.execConfigureMode m s
  | .startStream => Sys2Proof.Machine.execStartStream s
  | .xportWrite addr data => Sys2Proof.Machine.execXportWrite addr data s
  | .xportRead addr n => Sys2Proof.Machine.execXportRead addr n s
  | .streamWrite bytes => Sys2Proof.Machine.execStreamWrite bytes s
  | .init m ref mult => Sys2Proof.Machine.execInit m ref mult s
  | .setFrequency cs hz => Sys2Proof.Machine.execSetFrequency cs hz s
  | .getFrequency ch => Sys2Proof.Machine.execGetFrequency ch s
  | .setPhase cs turns => Sys2Proof.Machine.execSetPhase cs turns s
  | .getPhase ch => Sys2Proof.Machine.execGetPhase ch s
  | .setAmplitude cs amp => Sys2Proof.Machine.execSetAmplitude cs amp s
  | .getAmplitude ch => Sys2Proof.Machine.execGetAmplitude ch s
  | .configureSystemClock ref mult => Sys2Proof.Machine.execConfigureSystemClock ref mult s
  | .selfTest => Sys2Proof.Machine.execSelfTest s
  | .freeze => Sys2Proof.Machine.execFreeze s
  | .profileNew m => Sys2Proof.Machine.execProfileNew m s
  | .profileUpdateChannels cs ftw pow acr => Sys2Proof.Machine.execProfileUpdateChannels cs ftw pow acr s
  | .profileSetSystemClock ref mult => Sys2Proof.Machine.execProfileSetSystemClock ref mult s
  | .profileFinalize => Sys2Proof.Machine.execProfileFinalize s
  | .frameWideWrite a payload => Sys2Proof.Machine.execFrameWideWrite a payload s
  | .frameWideRead a => Sys2Proof.Machine.execFrameWideRead a s
  | .frameNarrowWrite a payload => Sys2Proof.Machine.execFrameNarrowWrite a payload s
  | .profileRecord a payload => Sys2Proof.Machine.execProfileRecord a payload s

end Sys2Proof.Machine
end

