-- ==== Sys2Proof/Machine/Step.lean ====
section
/-!
DEFINITION. One step: the block takes the next packet before it, decodes it and runs it to completion
(00_scope.md R8, R9; 20_memory.md R60).
-/

namespace Sys2Proof.Machine

/-- One step. With nothing before the block, nothing happens (60_exceptions.md R235; log 17). -/
def step (s : State) : Host.Outcome State Fault Refusal :=
  match s.inbox with
  | [] => .next s
  | p :: ps =>
    match decode s.cfg s.a.mode p with
    | .ok i => exec i (s.setInbox ps)
    | .error e => .refused (refusalOf e)

/-- The state with a table row's instruction next before the block, in the adapter mode in which it decodes (log 18). -/
def State.withFetchWord (s : State) (nbits w : Nat) : State :=
  (s.setAdapterMode (tableMode s.a.mode w)).setInbox (tablePacket s.cfg nbits w :: s.inbox)

end Sys2Proof.Machine
end

