-- ==== Sys2Proof/Safety.lean ====
section
/-!
DEFINITION. The terms claims are stated in: the invariant of the block, what a procedure that only uses the bus may change,
which events are bus transactions, and when the oracle accepts a run of events.
-/

namespace Sys2Proof

/-- The codec commands (40_codec.md). -/
def Instr.isCodec : Instr → Bool
  | .validateClocking _ _ => true
  | .freqToFtw _ _ => true
  | .ftwToFreq _ _ => true
  | .phaseToPow _ => true
  | .powToPhase _ => true
  | .ampToAcr _ => true
  | .acrToAmp _ _ _ => true
  | _ => false

/-- The transport commands (41_transport.md). -/
def Instr.isTransport : Instr → Bool
  | .configureMode _ => true
  | .startStream => true
  | .xportWrite _ _ => true
  | .xportRead _ _ => true
  | .streamWrite _ => true
  | _ => false

/-- The steady-state controller commands (42_channel_mux.md). -/
def Instr.isSteady : Instr → Bool
  | .setFrequency _ _ => true
  | .getFrequency _ => true
  | .setPhase _ _ => true
  | .getPhase _ => true
  | .setAmplitude _ _ => true
  | .getAmplitude _ => true
  | .configureSystemClock _ _ => true
  | .selfTest => true
  | .freeze => true
  | _ => false

/-- The profile commands (43_profile.md). -/
def Instr.isProfile : Instr → Bool
  | .profileNew _ => true
  | .profileUpdateChannels _ _ _ _ => true
  | .profileSetSystemClock _ _ => true
  | .profileFinalize => true
  | _ => false

/-- The wire forms (30_encoding.md R72, R73, R75, R77). -/
def Instr.isWire : Instr → Bool
  | .frameWideWrite _ _ => true
  | .frameWideRead _ => true
  | .frameNarrowWrite _ _ => true
  | .profileRecord _ _ => true
  | _ => false

/-- INIT (70_reset_and_hazards.md). -/
def Instr.isInit : Instr → Bool
  | .init _ _ _ => true
  | _ => false

end Sys2Proof

namespace Sys2Proof.Machine

/-- Between commands the lifecycle is Absent, Failed, Ready or Frozen (10_state.md R24). -/
def betweenCommands (ph : Phase) : Bool := hostOwns ph || ph == .ready

/-- The profile's shape: the cursor stays within the buffer, exactly the bytes below it are written, and a finalized profile
is a whole number of words (10_state.md R27; 43_profile.md R204, R205). -/
structure Profile.WF (q : Profile) : Prop where
  cursor_le : q.cursor ≤ profileCap
  buf_wf    : q.buf.wf = true
  written   : ∀ a, (q.buf.read? a).isSome = decide (a < q.cursor)
  aligned   : q.status = .finalized → q.cursor % 4 = 0

/-- What holds while a controller exists: the wide mode on both sides, no stream, a validated clock, both pins at rest
(10_state.md R23, R26, R34; 70_reset_and_hazards.md R265). -/
structure State.ReadyOk (s : State) : Prop where
  adapter    : s.a.mode = .fourBitSerial
  controller : s.c.mode = s.a.mode
  streaming  : s.a.streaming = false
  clock      : ∃ eff, validateClocking s.cfg s.c.refHz s.c.mult = .ok eff
  pins       : s.p = { reset := false, update := false }

/-- The block's invariant. -/
structure State.Inv (s : State) : Prop where
  between : betweenCommands s.c.phase = true
  ready   : s.c.phase = .ready → s.ReadyOk
  profile : s.q.WF

/-- A bus transaction, W or R (00_scope.md R8). -/
def Event.isBus : Event → Bool
  | .write _ _ => true
  | .read _ _ _ => true
  | .pin _ _ _ => false
  | .delay _ => false

/-- The event did not fail (60_exceptions.md R233). -/
def Event.accepted : Event → Bool
  | .write _ ok => ok
  | .read _ _ d => d.isSome
  | .pin _ _ ok => ok
  | .delay _ => true

/-- The codes a failed event is reported with: Pin for a pin change; for a bus transaction A_Bus, or Interface where a
controller made it (60_exceptions.md R233, R236; 42_channel_mux.md R161). -/
def Event.blames : Event → Err → Bool
  | .write _ _, e => e == .aBus || e == .interface
  | .read _ _ _, e => e == .aBus || e == .interface
  | .pin _ _ _, e => e == .pin
  | .delay _, _ => false

/-- Every event but the last succeeded, and the last is the failed one that e reports. -/
def FailedLast (es : List Event) (e : Err) : Prop :=
  ∃ fs ev, es = fs ++ [ev] ∧ fs.all Event.accepted = true ∧ Event.accepted ev = false ∧ Event.blames ev e = true

/-- The contents in active use are the same but for the channel enables, which act at once (10_state.md R33, R41; log 35
on a CSR byte with bit 3 or bit 0 set). -/
structure SameActive (f g : RegFile) : Prop where
  mode  : g.csr &&& 0x0F#8 = f.csr &&& 0x0F#8
  fr1   : g.fr1 = f.fr1
  one   : g.one = f.one
  two   : g.two = f.two
  three : g.three = f.three
  four  : g.four = f.four

/-- A step of a procedure that only uses the bus: it appends W and R events and moves the environment on, and nothing
else changes. -/
structure BusOnly (s t : State) : Prop where
  cfg     : t.cfg = s.cfg
  a       : t.a = s.a
  c       : t.c = s.c
  p       : t.p = s.p
  q       : t.q = s.q
  results : t.results = s.results
  inbox   : t.inbox = s.inbox
  trace   : ∃ es, t.trace = s.trace ++ es ∧ es.all Event.isBus = true
  active  : SameActive s.env.chip.active t.env.chip.active

/-- The state in which a procedure ends, with a value or with an error. -/
def endState {α : Type} : EStateM.Result Err State α → State
  | .ok _ t => t
  | .error _ t => t

/-- Every run of a procedure relates its first state to its last. -/
def Within {α : Type} (R : State → State → Prop) (body : Proc α) : Prop := ∀ s, R s (endState (body s))

/-- The oracle accepts these events one after the other, from the k-th draw on; a delay takes no draw. -/
def AcceptsAll (s : State) : Nat → List Event → List Event → Prop
  | _, _, [] => True
  | k, trace, .delay us :: es => AcceptsAll s k (trace ++ [.delay us]) es
  | k, trace, .write bytes ok :: es => s.drawAt k trace ≠ .fail ∧ AcceptsAll s (k + 1) (trace ++ [.write bytes ok]) es
  | k, trace, .read h n d :: es => s.drawAt k trace ≠ .fail ∧ AcceptsAll s (k + 1) (trace ++ [.read h n d]) es
  | k, trace, .pin line level ok :: es =>
    s.drawAt k trace ≠ .fail ∧ AcceptsAll s (k + 1) (trace ++ [.pin line level ok]) es

/-- The W event of an accepted wide write of a register (30_encoding.md R72). -/
def wideW (cfg : Config) (r : Reg) (v : List Byte) : Event := .write (writeByte (regAddr cfg r) :: v) true

/-- The R event of a register read answered with d (30_encoding.md R73). -/
def readR (cfg : Config) (r : Reg) (d : List Byte) : Event :=
  .read (readByte (regAddr cfg r)) (regWidth r) (some d)

/-- The k-th draw answers a read of the register with d, the trace and the chip standing as given. -/
def Answers (s : State) (k : Nat) (trace : List Event) (chip : Chip) (r : Reg) (d : List Byte) : Prop :=
  answerOf s.cfg trace chip (s.drawAt k trace) (readByte (regAddr s.cfg r)) (regWidth r) = some d

/-- The adapter is in the wide mode with no stream, which is where a controller's accesses go through. -/
structure State.Wide (s : State) : Prop where
  mode      : s.a.mode = .fourBitSerial
  streaming : s.a.streaming = false

/-- The environment after k draws, with the given chip. -/
def State.envAfter (s : State) (k : Nat) (chip : Chip) : Env :=
  { script := s.env.script.drop k, rest := s.env.rest, chip := chip }

/-- The state after k draws and the events es, with the given chip; nothing else differs. -/
def State.after (s : State) (k : Nat) (chip : Chip) (es : List Event) : State :=
  { s with env := s.envAfter k chip, trace := s.trace ++ es }

/-- What a failed write of v to register r can leave of the chip, of which any prefix arrived: a write of CSR is made or it is
not; of the other written registers only r can differ, and only in the selected channels (20_memory.md R63; log 10). -/
structure LeftByFailedWrite (r : Reg) (v : List Byte) (chip chip' : Chip) : Prop where
  made   : r = .csr → chip' = chip ∨ chip' = chip.write .csr v
  csr    : r ≠ .csr → chip'.written.csr = chip.written.csr
  fr1    : r ≠ .fr1 → chip'.written.fr1 = chip.written.fr1
  lane   : ∀ ch q, q ≠ r ∨ channelFlag ch &&& csrChannels chip.written.csr = 0 →
    readLane q (laneOf chip'.written ch) = readLane q (laneOf chip.written ch)
  active : SameActive chip.active chip'.active

/-- Where the k-th draw, made after the events es with the chip as given, fails the write of v to r by these bytes, the
instruction ends there with the error e (60_exceptions.md R231, R233). -/
def WriteFails (i : Instr) (s : State) (e : Err) (k : Nat) (chip : Chip) (es : List Event) (bytes : List Byte) (r : Reg)
    (v : List Byte) : Prop :=
  s.drawAt k (s.trace ++ es) = .fail →
    ∃ chip', LeftByFailedWrite r v chip chip' ∧
      exec i s = .next ((s.after (k + 1) chip' (es ++ [.write bytes false])).report (.err e))

/-- Where the k-th draw fails the read of r, the instruction ends there with the error e, and the chip is as it was. -/
def ReadFails (i : Instr) (s : State) (e : Err) (k : Nat) (chip : Chip) (es : List Event) (r : Reg) : Prop :=
  s.drawAt k (s.trace ++ es) = .fail →
    exec i s =
      .next ((s.after (k + 1) chip (es ++ [.read (readByte (regAddr s.cfg r)) (regWidth r) none])).report (.err e))

/-- A controller's wide write that fails is Interface (42_channel_mux.md R161). -/
def CtlWriteFails (i : Instr) (s : State) (k : Nat) (chip : Chip) (es : List Event) (r : Reg) (v : List Byte) : Prop :=
  WriteFails i s .interface k chip es (writeByte (regAddr s.cfg r) :: v) r v

/-- Where the k-th draw fails READ_CHANNEL's restore of CSR, the instruction ends there with Interface, and CSR is not restored:
the chip is as it was (42_channel_mux.md R166; 70_reset_and_hazards.md R271; decision D18). -/
def RestoreFails (i : Instr) (s : State) (k : Nat) (chip : Chip) (es : List Event) (saved : Byte) : Prop :=
  s.drawAt k (s.trace ++ es) = .fail →
    exec i s = .next
      ((s.after (k + 1) chip (es ++ [.write [writeByte (regAddr s.cfg .csr), saved] false])).report (.err .interface))

/-- The events of INIT up to the CSR read-back. -/
def initHead (cfg : Config) (w : Byte) (pulse : List Event) : List Event :=
  [.pin .update false true, .pin .reset true true, .delay 5, .pin .reset false true,
   .write ((writeByte (regAddr cfg .csr) :: [w]).flatMap expand) true] ++ pulse ++ [.delay 5]

end Sys2Proof.Machine
end

