-- ==== Sys2Proof/Certificates/Slice0/Obligations.lean ====
section
/-!
DEFINITION. The statements for the provers. Each docstring names the rule of spec/ it formalises, or the model's choice it
rests on. `WriteFails` and `ReadFails` (Safety.lean) say how an instruction ends when one of its transactions fails.
`s.envAfter k chip` is the environment after k draws of the oracle; `AcceptsAll` says that the oracle accepts the
events it is given, which is how a transaction that does not fail is written (20_memory.md R63).
-/

open Sys2Proof Sys2Proof.Machine

/-! ## Encoding -/

/-- 30_encoding.md section 4 and R72 to R77: the decoder gives back every well-formed instruction, with every operand. -/
def Obligations.DecodeEncodeRoundTrip : Prop :=
  ∀ (cfg : Config) (mode : Mode) (i : Instr), cfg.wf = true → i.wellFormed cfg = true → wireModeOk mode i = true →
    decode cfg mode (encode i) = .ok i

/-- 30_encoding.md R84, R85: a packet that decodes is the one encoding of a well-formed instruction, so no reserved bit,
operand value or frame length is let through. -/
def Obligations.DecodedPacketIsItsEncoding : Prop :=
  ∀ (cfg : Config) (mode : Mode) (p : Packet) (i : Instr), decode cfg mode p = .ok i →
    encode i = p ∧ i.wellFormed cfg = true ∧ wireModeOk mode i = true

/-- 30_encoding.md R83, R86 and 95_test_vectors.md: packets and frame bytes written out from the tables decode to the
instruction they stand for, and a read frame with its response is read as such by an observer (R82, R85). That the header by
itself, put before the block, decodes as that read is the model's choice (log 27). -/
def Obligations.WrittenOutWordsDecode : Prop :=
  decode Config.default .singleBitTwoWire (.command 0x23#8 [.chSet 0x30#8, .q 1000000]) =
      .ok (.setFrequency 0b0011#4 1000000) ∧
  decode Config.default .singleBitTwoWire (.command 0x20#8 [.mode 3, .q 25000000, .u8 4#8]) =
      .ok (.init .fourBitSerial 25000000 4#8) ∧
  decode Config.default .fourBitSerial (.frame [0x04#8, 0x12#8, 0x34#8, 0x56#8, 0x78#8]) =
      .ok (.frameWideWrite 0x04#7 [0x12#8, 0x34#8, 0x56#8, 0x78#8]) ∧
  decode Config.default .fourBitSerial (.frame [0x85#8]) = .ok (.frameWideRead 0x05#7) ∧
  decode Config.default .singleBitTwoWire
      (.frame [0x00#8, 0x00#8, 0x00#8, 0x00#8, 0x11#8, 0x11#8, 0x01#8, 0x10#8]) =
      .ok (.frameNarrowWrite 0x00#7 [0xF6#8]) ∧
  decode Config.default .fourBitSerial (.record [0x07#8, 0x00#8, 0x00#8]) = .ok (.profileRecord 0x07#7 [0x00#8, 0x00#8]) ∧
  observeFrame Config.default .fourBitSerial [0x85#8, 0x10#8, 0x00#8] = .ok (.frameWideRead 0x05#7, [0x10#8, 0x00#8])

/-- 30_encoding.md section 4: every opcode value outside the table is refused as reserved, and no other. -/
def Obligations.ReservedOpcodesRefused : Prop :=
  ∀ (s : State) (b : Byte) (operands : List Operand) (ps : List Packet),
    step (s.setInbox (.command b operands :: ps)) = .refused .reservedOpcode ↔
      b.toNat ∉ [0x01, 0x02, 0x03, 0x04, 0x05, 0x06, 0x07, 0x10, 0x11, 0x12, 0x13, 0x14, 0x20, 0x23, 0x24, 0x25, 0x26,
        0x27, 0x28, 0x29, 0x2A, 0x2B, 0x30, 0x31, 0x32, 0x33]

/-- 30_encoding.md R84: operand legality is tested at decode, before any effect; XPORT_READ's n, XPORT_WRITE's length and,
in each of the eleven commands with a Q operand, every rational are let through. -/
def Obligations.IllegalOperandsRefused : Prop :=
  ∀ (s : State) (ps : List Packet),
    (∀ n, 3 < n → ∀ (ref : Rat) (mult : Byte),
      step (s.setInbox (.command 0x10#8 [.mode n] :: ps)) = .refused .illegalOperand ∧
      step (s.setInbox (.command 0x20#8 [.mode n, .q ref, .u8 mult] :: ps)) = .refused .illegalOperand ∧
      step (s.setInbox (.command 0x30#8 [.mode n] :: ps)) = .refused .illegalOperand) ∧
    (∀ b : Byte, b &&& 0x0F#8 ≠ 0#8 ∨ b = 0#8 → ∀ (x : Rat) (ftw acr : Option Word) (pow : Option (BitVec 16)),
      step (s.setInbox (.command 0x23#8 [.chSet b, .q x] :: ps)) = .refused .illegalOperand ∧
      step (s.setInbox (.command 0x25#8 [.chSet b, .q x] :: ps)) = .refused .illegalOperand ∧
      step (s.setInbox (.command 0x27#8 [.chSet b, .q x] :: ps)) = .refused .illegalOperand ∧
      step (s.setInbox (.command 0x31#8 [.chSet b, .optU32 ftw, .optU16 pow, .optU32 acr] :: ps)) =
        .refused .illegalOperand) ∧
    (∀ b : Byte, b ∉ [0x10#8, 0x20#8, 0x40#8, 0x80#8] →
      step (s.setInbox (.command 0x24#8 [.ch b] :: ps)) = .refused .illegalOperand ∧
      step (s.setInbox (.command 0x26#8 [.ch b] :: ps)) = .refused .illegalOperand ∧
      step (s.setInbox (.command 0x28#8 [.ch b] :: ps)) = .refused .illegalOperand) ∧
    (∀ acr : List Byte, acr.length ≠ 3 →
      step (s.setInbox (.command 0x07#8 [.bytes acr] :: ps)) = .refused .illegalOperand) ∧
    (∀ (addr n : Byte) (data : List Byte),
      decode s.cfg s.a.mode (.command 0x12#8 [.u8 addr, .bytes data]) = .ok (.xportWrite addr data) ∧
      decode s.cfg s.a.mode (.command 0x13#8 [.u8 addr, .u8 n]) = .ok (.xportRead addr n)) ∧
    (∀ (x y : Rat) (mult : Byte) (ftw : Word) (m : Mode) (cs : ChSet), cs ≠ 0 →
      decode s.cfg s.a.mode (.command 0x01#8 [.q x, .u8 mult]) = .ok (.validateClocking x mult) ∧
      decode s.cfg s.a.mode (.command 0x02#8 [.q x, .q y]) = .ok (.freqToFtw x y) ∧
      decode s.cfg s.a.mode (.command 0x03#8 [.u32 ftw, .q x]) = .ok (.ftwToFreq ftw x) ∧
      decode s.cfg s.a.mode (.command 0x04#8 [.q x]) = .ok (.phaseToPow x) ∧
      decode s.cfg s.a.mode (.command 0x06#8 [.q x]) = .ok (.ampToAcr x) ∧
      decode s.cfg s.a.mode (.command 0x20#8 [.mode (modeIndex m), .q x, .u8 mult]) = .ok (.init m x mult) ∧
      decode s.cfg s.a.mode (.command 0x23#8 [.chSet (cs ++ 0#4), .q x]) = .ok (.setFrequency cs x) ∧
      decode s.cfg s.a.mode (.command 0x25#8 [.chSet (cs ++ 0#4), .q x]) = .ok (.setPhase cs x) ∧
      decode s.cfg s.a.mode (.command 0x27#8 [.chSet (cs ++ 0#4), .q x]) = .ok (.setAmplitude cs x) ∧
      decode s.cfg s.a.mode (.command 0x29#8 [.q x, .u8 mult]) = .ok (.configureSystemClock x mult) ∧
      decode s.cfg s.a.mode (.command 0x32#8 [.q x, .u8 mult]) = .ok (.profileSetSystemClock x mult))

/-- 00_scope.md R8, R9: a step takes the next packet before the block and runs the instruction it decodes to; a packet that
is no instruction is refused; with nothing before the block nothing happens (the last by log 17). -/
def Obligations.StepRunsDecoded : Prop :=
  ∀ (s : State) (p : Packet) (ps : List Packet),
    (∀ i, decode s.cfg s.a.mode p = .ok i → step (s.setInbox (p :: ps)) = exec i (s.setInbox ps)) ∧
    (∀ e, decode s.cfg s.a.mode p = .error e → step (s.setInbox (p :: ps)) = .refused (refusalOf e)) ∧
    step (s.setInbox []) = .next (s.setInbox [])

/-- 30_encoding.md R74: logical bit k goes to expanded byte 3 − k/2 at bit 4·(k mod 2), and every other bit is 0. Also
(R75, R85) the length of a narrow frame, and that decoding it gives its logical bytes back. -/
def Obligations.NarrowExpansionInverts : Prop :=
  (∀ (b : Byte) (k : Nat), k < 8 → ∃ e, (expand b)[3 - k / 2]? = some e ∧ e.getLsbD (4 * (k % 2)) = b.getLsbD k) ∧
  (∀ (b : Byte), (expand b).length = 4 ∧ ∀ e ∈ expand b, ∀ k, k ≠ 0 → k ≠ 4 → e.getLsbD k = false) ∧
  (∀ (addr : Byte) (payload : List Byte),
    (narrowFrame addr payload).length = 4 * (1 + payload.length) ∧
    unexpandAll (narrowFrame addr payload) = some (addr :: payload))

/-- 30_encoding.md R76: in every symbol of a narrow frame, lines IO1, IO2 and IO3 are 0; and (R70, R74) line IO0 carries the
logical bits, most significant first. -/
def Obligations.NarrowFramesKeepLinesLow : Prop :=
  ∀ (addr : Byte) (payload : List Byte),
    (∀ sym ∈ symbols (narrowFrame addr payload),
      sym.getLsbD 1 = false ∧ sym.getLsbD 2 = false ∧ sym.getLsbD 3 = false) ∧
    (symbols (narrowFrame addr payload)).map (·.getLsbD 0) =
      (addr :: payload).flatMap fun b => [7, 6, 5, 4, 3, 2, 1, 0].map fun k => b.getLsbD k

/-- 30_encoding.md R79: csr_byte(m, cs) = MODE_CODE(m) | cs; bits 7:4 are cs, bit 3 is 0, bits 2:0 are MODE_CODE(m). -/
def Obligations.CsrByteFields : Prop :=
  ∀ (cfg : Config) (m : Mode) (cs : ChSet),
    csrByte cfg m cs = (0#5 ++ modeCode cfg m) ||| (cs ++ 0#4) ∧
    (csrByte cfg m cs).extractLsb' 4 4 = cs ∧
    (csrByte cfg m cs).getLsbD 3 = false ∧
    (csrByte cfg m cs).extractLsb' 0 3 = modeCode cfg m

/-- 30_encoding.md section 3, with the field in byte 0: fr1_merge keeps bits 1:0 of f0 and the bytes f1 and f2, and
fr1_fresh writes 0 there. -/
def Obligations.Fr1Payloads : Prop :=
  ∀ (cfg : Config) (f0 f1 f2 mult : Byte) (eff : Rat), cfg.fr1Byte = 0 →
    ∃ b : Byte, fr1Merge cfg [f0, f1, f2] mult eff = [b, f1, f2] ∧
      b.getLsbD 7 = decide (cfg.vcoThresholdHz < eff) ∧
      (b.extractLsb' 2 5).toNat = mult.toNat % 32 ∧
      b.extractLsb' 0 2 = f0.extractLsb' 0 2 ∧
      fr1Fresh cfg mult eff = [b &&& 0xFC#8, 0x00#8, 0x00#8]

/-! ## Codec (40_codec.md), at CODEC_ARITH = exact and DECODE_ROUND = exact -/

/-- 40_codec.md R101, R113: VALIDATE_CLOCKING returns mult·ref exactly when the ranges and a band admit it, else Bounds when
a range condition fails, else Frequency. -/
def Obligations.ValidateClockingResult : Prop :=
  ∀ (s : State) (ref : Rat) (mult : Byte), s.cfg.codecArith = .exact →
    let ranges := (mult.toNat = 1 ∨ (4 ≤ mult.toNat ∧ mult.toNat ≤ 20)) ∧ 1000000 ≤ ref ∧
      (mult.toNat ≠ 1 → 10000000 ≤ ref)
    let eff : Rat := (mult.toNat : Rat) * ref
    let band := (255000000 ≤ eff ∧ eff ≤ 500000000) ∨ (100000000 ≤ eff ∧ eff ≤ 160000000) ∨
      (mult.toNat = 1 ∧ 0 ≤ eff ∧ eff < 100000000)
    (ranges ∧ band → exec (.validateClocking ref mult) s = .next (s.report (.ok (.q eff)))) ∧
    (¬ ranges → exec (.validateClocking ref mult) s = .next (s.report (.err .bounds))) ∧
    (ranges ∧ ¬ band → exec (.validateClocking ref mult) s = .next (s.report (.err .frequency))) ∧
    decode s.cfg s.a.mode (.command 0x01#8 [.q ref, .u8 mult]) = .ok (.validateClocking ref mult)

/-- 40_codec.md R102: FREQ_TO_FTW. -/
def Obligations.FreqToFtwResult : Prop :=
  ∀ (s : State) (hz sys : Rat), s.cfg.codecArith = .exact →
    (sys ≤ 0 → exec (.freqToFtw hz sys) s = .refused .nonPositiveSystemClock) ∧
    (0 < sys → hz < 0 ∨ sys / 2 < hz → exec (.freqToFtw hz sys) s = .next (s.report (.err .bounds))) ∧
    (0 < sys → 0 ≤ hz → hz ≤ sys / 2 → ∃ ftw : Word,
      exec (.freqToFtw hz sys) s = .next (s.report (.ok (.u32 ftw))) ∧
      (ftw.toNat : Int) = ⌊hz * 2 ^ 32 / sys⌋ ∧ ftw.toNat ≤ 2 ^ 31) ∧
    decode s.cfg s.a.mode (.command 0x02#8 [.q hz, .q sys]) = .ok (.freqToFtw hz sys)

/-- 40_codec.md R103, R105, R107: the three decoders. -/
def Obligations.DecoderResults : Prop :=
  ∀ (s : State), s.cfg.decodeRound = .exact →
    (∀ (ftw : Word) (sys : Rat),
      exec (.ftwToFreq ftw sys) s = .next (s.report (.ok (.q ((ftw.toNat : Rat) * sys / 2 ^ 32))))) ∧
    (∀ pow : BitVec 16,
      exec (.powToPhase pow) s = .next (s.report (.ok (.q (((pow.toNat % 2 ^ 14 : Nat) : Rat) / 2 ^ 14))))) ∧
    (∀ a0 a1 a2 : Byte,
      let v := a0.toNat * 65536 + a1.toNat * 256 + a2.toNat
      exec (.acrToAmp a0 a1 a2) s =
        .next (s.report (.ok (.q (if v.testBit 12 then ((v % 1024 : Nat) : Rat) / 1024 else 1))))) ∧
    (∀ (ftw : Word) (sys : Rat) (pow : BitVec 16) (a0 a1 a2 : Byte),
      decode s.cfg s.a.mode (.command 0x03#8 [.u32 ftw, .q sys]) = .ok (.ftwToFreq ftw sys) ∧
      decode s.cfg s.a.mode (.command 0x05#8 [.u16 pow]) = .ok (.powToPhase pow) ∧
      decode s.cfg s.a.mode (.command 0x07#8 [.bytes [a0, a1, a2]]) = .ok (.acrToAmp a0 a1 a2))

/-- 40_codec.md R104: PHASE_TO_POW is floor(turns * 2^14) mod 2^14; it never fails. -/
def Obligations.PhaseToPowResult : Prop :=
  ∀ (s : State) (turns : Rat), s.cfg.codecArith = .exact → ∃ pow : BitVec 16,
    exec (.phaseToPow turns) s = .next (s.report (.ok (.u16 pow))) ∧
    (pow.toNat : Int) = ⌊turns * 2 ^ 14⌋ % 2 ^ 14 ∧
    decode s.cfg s.a.mode (.command 0x04#8 [.q turns]) = .ok (.phaseToPow turns)

/-- 40_codec.md R106: AMP_TO_ACR. -/
def Obligations.AmpToAcrResult : Prop :=
  ∀ (s : State) (amp : Rat), s.cfg.codecArith = .exact →
    (amp < 0 ∨ 1 < amp → exec (.ampToAcr amp) s = .next (s.report (.err .bounds))) ∧
    (0 ≤ amp → amp < 1 → ∃ acr : Word, exec (.ampToAcr amp) s = .next (s.report (.ok (.u32 acr))) ∧
      (acr.toNat : Int) = 4096 + ⌊amp * 2 ^ 10⌋) ∧
    (amp = 1 → exec (.ampToAcr amp) s = .next (s.report (.ok (.u32 0#32)))) ∧
    decode s.cfg s.a.mode (.command 0x06#8 [.q amp]) = .ok (.ampToAcr amp)

/-- 40_codec.md R110: the phase round trip loses less than 2^-14. -/
def Obligations.PhaseRoundTrip : Prop :=
  ∀ (cfg : Config) (turns : Rat), cfg.codecArith = .exact → cfg.decodeRound = .exact → 0 ≤ turns → turns < 1 →
    0 ≤ turns - powToPhase cfg (phaseToPow cfg turns) ∧ turns - powToPhase cfg (phaseToPow cfg turns) < 1 / 2 ^ 14

/-- 40_codec.md R111: the amplitude round trip loses less than 1/1024, and full scale maps to 0 and back to 1. -/
def Obligations.AmplitudeRoundTrip : Prop :=
  ∀ (cfg : Config), cfg.codecArith = .exact → cfg.decodeRound = .exact →
    (∀ amp : Rat, 0 ≤ amp → amp ≤ 1 → ∃ acr, ampToAcr cfg amp = .ok acr ∧
      0 ≤ amp - acrToAmp cfg (acrPayload acr) ∧ amp - acrToAmp cfg (acrPayload acr) < 1 / 1024) ∧
    ampToAcr cfg 1 = .ok 0#32 ∧ acrToAmp cfg [0#8, 0#8, 0#8] = 1

/-- 40_codec.md R112: the frequency round trip loses less than sys/2^32, and above Nyquist the encoder raises Bounds. -/
def Obligations.FrequencyRoundTrip : Prop :=
  ∀ (cfg : Config) (hz sys : Rat), cfg.codecArith = .exact → cfg.decodeRound = .exact → 0 < sys →
    (0 ≤ hz → hz ≤ sys / 2 → ∃ ftw, freqToFtw cfg hz sys = .ok ftw ∧
      0 ≤ hz - ftwToFreq cfg ftw sys ∧ hz - ftwToFreq cfg ftw sys < sys / 2 ^ 32) ∧
    (sys / 2 < hz → freqToFtw cfg hz sys = .error .bounds)

/-- 40_codec.md R108: the VCO bit is the strict threshold test, and for a clock VALIDATE_CLOCKING accepts every threshold in
[160e6, 255e6) gives the bit of the upper band. -/
def Obligations.VcoBitOfAcceptedClock : Prop :=
  ∀ (cfg : Config) (ref eff : Rat) (mult : Byte),
    Config.default.vcoThresholdHz = 200000000 ∧
    (vcoBit cfg eff = true ↔ cfg.vcoThresholdHz < eff) ∧
    (160000000 ≤ cfg.vcoThresholdHz → cfg.vcoThresholdHz < 255000000 → validateClocking cfg ref mult = .ok eff →
      (vcoBit cfg eff = true ↔ 255000000 ≤ eff ∧ eff ≤ 500000000))

/-- 40_codec.md R114: a codec command reads and writes no block state and emits no event, and is accepted in every lifecycle
state: whatever the state, it appends one and the same result, or is refused for its own operands. -/
def Obligations.CodecCommandsAreStateless : Prop :=
  ∀ (i : Instr) (cfg : Config), i.isCodec = true →
    (∃ r, ∀ s : State, s.cfg = cfg → exec i s = .next (s.report r)) ∨
    (∃ hz sys, i = .freqToFtw hz sys ∧ sys ≤ 0 ∧ ∀ s : State, exec i s = .refused .nonPositiveSystemClock)

/-! ## Transport (41_transport.md) -/

/-- 41_transport.md R130: CONFIGURE_MODE sets a.mode to any Mode; it never fails and emits no event. -/
def Obligations.ConfigureModeCompletes : Prop :=
  ∀ (s : State) (m : Mode),
    (hostOwns s.c.phase = true → exec (.configureMode m) s =
      .next { s with a := { mode := m, streaming := s.a.streaming }, results := s.results ++ [.ok .none] }) ∧
    decode s.cfg s.a.mode (.command 0x10#8 [.mode (modeIndex m)]) = .ok (.configureMode m)

/-- 41_transport.md R131: START_STREAM sets a.streaming in any mode; no command clears it; and from then on every wide
XPORT_WRITE fails. -/
def Obligations.StartStreamCompletes : Prop :=
  (∀ s : State, hostOwns s.c.phase = true →
    exec .startStream s =
      .next { s with a := { mode := s.a.mode, streaming := true }, results := s.results ++ [.ok .none] }) ∧
  (∀ (i : Instr) (s t : State), s.a.streaming = true → exec i s = .next t → t.a.streaming = true) ∧
  (∀ (s : State) (addr : Byte) (data : List Byte), hostOwns s.c.phase = true → s.a.mode = .fourBitSerial →
    s.a.streaming = true → addr.getLsbD 7 = false →
    exec (.xportWrite addr data) s = .next (s.report (.err .aInvalidState))) ∧
  (∀ s : State, decode s.cfg s.a.mode (.command 0x11#8 []) = .ok .startStream) ∧
  State.reset.a.streaming = false

/-- 60_exceptions.md section 3: while a controller is Ready the host's transport commands and INIT are refused, and so
are the wire forms (10_state.md R34's exclusive ownership; log 33); while none exists they are not; the codec and profile
commands are refused for neither reason in any state. -/
def Obligations.TransportOwnership : Prop :=
  ∀ (i : Instr) (s : State),
    (s.c.phase = .ready → i.isTransport = true ∨ i.isWire = true → exec i s = .refused .transportOwned) ∧
    (s.c.phase = .ready → i.isInit = true → exec i s = .refused .controllerExists) ∧
    (s.c.phase = .absent ∨ s.c.phase = .failed ∨ s.c.phase = .frozen →
      exec i s ≠ .refused .transportOwned ∧ exec i s ≠ .refused .controllerExists) ∧
    (i.isCodec = true ∨ i.isProfile = true →
      exec i s ≠ .refused .transportOwned ∧ exec i s ≠ .refused .controllerExists ∧ exec i s ≠ .refused .notReady)

/-- 41_transport.md R133 to R135: XPORT_WRITE of a whole register sends the narrow frame in the narrow mode (a payload of one
or two bytes) and the wide frame in the wide mode outside a stream, and nothing of the block but the trace and the results
changes; when the oracle fails the event the answer is A_Bus, after the failed event (20_memory.md R63; what the chip then
holds: log 10). -/
def Obligations.XportWriteCompletes : Prop :=
  ∀ (s : State) (r : Reg) (data : List Byte), s.cfg.wf = true → hostOwns s.c.phase = true →
    data.length = regWidth r →
    let i : Instr := .xportWrite (writeByte (regAddr s.cfg r)) data
    let sends := fun (frame : List Byte) =>
      (s.drawAt 0 s.trace ≠ .fail →
        exec i s =
          .next { s with
            env := s.envAfter 1 (s.env.chip.write r data)
            trace := s.trace ++ [.write frame true]
            results := s.results ++ [.ok .none] }) ∧
      WriteFails i s .aBus 0 s.env.chip [] frame r data
    (s.a.mode = .singleBitTwoWire → data.length ≤ 2 →
      sends ((writeByte (regAddr s.cfg r) :: data).flatMap expand)) ∧
    (s.a.mode = .fourBitSerial → s.a.streaming = false → sends (writeByte (regAddr s.cfg r) :: data))

/-- 41_transport.md R132, R136: the address test comes before every other check of the adapter; the two unsupported modes
raise A_InvalidState on writes and reads; each emits nothing. Also the length limit of the narrow path, and the two states
in which a read is not allowed. -/
def Obligations.AdapterErrorsBeforeAnyEvent : Prop :=
  ∀ (s : State) (addr n : Byte) (data : List Byte), hostOwns s.c.phase = true →
    (addr.getLsbD 7 = true →
      exec (.xportWrite addr data) s = .next (s.report (.err .aInvalidAddress)) ∧
      exec (.xportRead addr n) s = .next (s.report (.err .aInvalidAddress))) ∧
    (addr.getLsbD 7 = false → s.a.mode = .singleBitThreeWire ∨ s.a.mode = .twoBitSerial →
      exec (.xportWrite addr data) s = .next (s.report (.err .aInvalidState)) ∧
      exec (.xportRead addr n) s = .next (s.report (.err .aInvalidState))) ∧
    (addr.getLsbD 7 = false → s.a.mode = .singleBitTwoWire →
      (2 < data.length → exec (.xportWrite addr data) s = .next (s.report (.err .aLength))) ∧
      exec (.xportRead addr n) s = .next (s.report (.err .aInvalidState))) ∧
    (addr.getLsbD 7 = false → s.a.mode = .fourBitSerial → s.a.streaming = true → s.cfg.readDuringStream = .reject →
      exec (.xportRead addr n) s = .next (s.report (.err .aInvalidState)))

/-- 41_transport.md R137: XPORT_READ of a whole register in the wide mode returns the oracle's bytes; it is not
blocked by a stream under READ_DURING_STREAM = pass. When the oracle fails the event the answer is A_Bus, after the failed
event (20_memory.md R63). The header and the bytes are what an observer decodes as that read (30_encoding.md R85). -/
def Obligations.XportReadCompletes : Prop :=
  ∀ (s : State) (r : Reg) (n : Byte) (d : List Byte), hostOwns s.c.phase = true →
    s.a.mode = .fourBitSerial → s.a.streaming = false ∨ s.cfg.readDuringStream = .pass → n.toNat = regWidth r →
    let i : Instr := .xportRead (writeByte (regAddr s.cfg r)) n
    (Answers s 0 s.trace s.env.chip r d →
      exec i s =
        .next { s with
          env := s.envAfter 1 s.env.chip
          trace := s.trace ++ [.read (readByte (regAddr s.cfg r)) (regWidth r) (some d)]
          results := s.results ++ [.ok (.bytes d)] } ∧
      (s.cfg.wf = true →
        observeFrame s.cfg s.a.mode (readByte (regAddr s.cfg r) :: d) = .ok (.frameWideRead (regAddr s.cfg r), d))) ∧
    ReadFails i s .aBus 0 s.env.chip [] r

/-- 20_memory.md R52: in the modes and states where the adapter's own checks pass, a transaction that does not move one of
the six registers whole is refused before any event. -/
def Obligations.IllFormedTransactionsRefused : Prop :=
  ∀ (s : State) (addr n : Byte) (data : List Byte), hostOwns s.c.phase = true → addr.getLsbD 7 = false →
    (((∀ r, writeByte (regAddr s.cfg r) ≠ addr ∨ regWidth r ≠ data.length) →
      (s.a.mode = .singleBitTwoWire ∧ data.length ≤ 2) ∨ (s.a.mode = .fourBitSerial ∧ s.a.streaming = false) →
      exec (.xportWrite addr data) s = .refused .illFormedTransaction)) ∧
    (((∀ r, writeByte (regAddr s.cfg r) ≠ addr ∨ regWidth r ≠ n.toNat) →
      s.a.mode = .fourBitSerial → s.a.streaming = false ∨ s.cfg.readDuringStream = .pass →
      exec (.xportRead addr n) s = .refused .illFormedTransaction))

/-- 41_transport.md R140: STREAM_WRITE sends the bytes unmodified as one transaction in an active wide-mode stream, raises
A_InvalidState outside one, refuses a length that is no multiple of 4, and raises A_Bus when the oracle fails it. When the
bytes parse as records, the chip applies each as a wide write (43_profile.md R208; log 14). -/
def Obligations.StreamWriteOutcomes : Prop :=
  ∀ (s : State) (bytes : List Byte), hostOwns s.c.phase = true →
    (s.a.mode ≠ .fourBitSerial ∨ s.a.streaming = false →
      exec (.streamWrite bytes) s = .next (s.report (.err .aInvalidState))) ∧
    (s.a.mode = .fourBitSerial → s.a.streaming = true →
      (bytes.length % 4 ≠ 0 → exec (.streamWrite bytes) s = .refused .unalignedStream) ∧
      (bytes.length % 4 = 0 → s.drawAt 0 s.trace ≠ .fail → ∀ recs, streamRecords s.cfg bytes = some recs →
        exec (.streamWrite bytes) s =
          .next { s with
            env := s.envAfter 1 (recs.foldl (fun c w => c.write w.1 w.2) s.env.chip)
            trace := s.trace ++ [.write bytes true]
            results := s.results ++ [.ok .none] }) ∧
      (bytes.length % 4 = 0 → ∃ t, exec (.streamWrite bytes) s = .next t ∧
        t = { s with env := t.env, trace := t.trace, results := t.results } ∧
        ((s.drawAt 0 s.trace ≠ .fail ∧ t.trace = s.trace ++ [.write bytes true] ∧
            t.results = s.results ++ [.ok .none]) ∨
         (s.drawAt 0 s.trace = .fail ∧ t.trace = s.trace ++ [.write bytes false] ∧
            t.results = s.results ++ [.err .aBus])))) ∧
    decode s.cfg s.a.mode (.command 0x14#8 [.bytes bytes]) = .ok (.streamWrite bytes)

/-- 41_transport.md R138: an adapter error leaves a.mode and a.streaming unchanged; every code but A_Bus is raised before any
event, and A_Bus after the failed event. -/
def Obligations.AdapterErrorsKeepTheAdapter : Prop :=
  ∀ (i : Instr) (s t : State) (e : Err), i.isTransport = true → exec i s = .next t →
    t.results = s.results ++ [.err e] →
    t.a = s.a ∧ (e = .aInvalidAddress ∨ e = .aInvalidState ∨ e = .aLength ∨ e = .aBus) ∧
    (e ≠ .aBus → t = s.report (.err e)) ∧
    (e = .aBus → (∃ bytes, t.trace = s.trace ++ [.write bytes false]) ∨
      (∃ h n, t.trace = s.trace ++ [.read h n none]))

/-- 30_encoding.md sections 2 and 1 (R72, R73, R75, R77), read as the model reads them (log 15, log 16, and log 33 for the
premise on the phase): each wire form on the bus is one transaction with exactly its bytes, in the mode and streaming state it
belongs to (the wide read in a stream too, under READ_DURING_STREAM = pass), while no controller owns the transport; a failed one
answers A_Bus. That the chip takes a record of a stream as a wide write is log 14's, and what it holds after a failed write is
log 10's. -/
def Obligations.WireFormsComplete : Prop :=
  ∀ (s : State) (r : Reg) (payload d : List Byte), s.cfg.wf = true → hostOwns s.c.phase = true →
    payload.length = regWidth r →
    (s.a.mode = .fourBitSerial → s.a.streaming = false → s.drawAt 0 s.trace ≠ .fail →
      exec (.frameWideWrite (regAddr s.cfg r) payload) s =
        .next { s with
          env := s.envAfter 1 (s.env.chip.write r payload)
          trace := s.trace ++ [.write (writeByte (regAddr s.cfg r) :: payload) true]
          results := s.results ++ [.ok .none] }) ∧
    (s.a.mode = .fourBitSerial → s.a.streaming = false ∨ s.cfg.readDuringStream = .pass →
      Answers s 0 s.trace s.env.chip r d →
      exec (.frameWideRead (regAddr s.cfg r)) s =
        .next { s with
          env := s.envAfter 1 s.env.chip
          trace := s.trace ++ [.read (readByte (regAddr s.cfg r)) (regWidth r) (some d)]
          results := s.results ++ [.ok (.bytes d)] }) ∧
    (s.a.mode = .singleBitTwoWire → payload.length ≤ 2 → s.drawAt 0 s.trace ≠ .fail →
      exec (.frameNarrowWrite (regAddr s.cfg r) payload) s =
        .next { s with
          env := s.envAfter 1 (s.env.chip.write r payload)
          trace := s.trace ++ [.write ((writeByte (regAddr s.cfg r) :: payload).flatMap expand) true]
          results := s.results ++ [.ok .none] }) ∧
    (s.a.mode = .fourBitSerial → s.a.streaming = true → s.drawAt 0 s.trace ≠ .fail →
      exec (.profileRecord (regAddr s.cfg r) payload) s =
        .next { s with
          env := s.envAfter 1 (s.env.chip.write r payload)
          trace := s.trace ++ [.write (writeByte (regAddr s.cfg r) :: payload) true]
          results := s.results ++ [.ok .none] }) ∧
    (s.a.mode = .fourBitSerial → s.a.streaming = false →
      WriteFails (.frameWideWrite (regAddr s.cfg r) payload) s .aBus 0 s.env.chip []
        (writeByte (regAddr s.cfg r) :: payload) r payload) ∧
    (s.a.mode = .fourBitSerial → s.a.streaming = false ∨ s.cfg.readDuringStream = .pass →
      ReadFails (.frameWideRead (regAddr s.cfg r)) s .aBus 0 s.env.chip [] r) ∧
    (s.a.mode = .singleBitTwoWire → payload.length ≤ 2 →
      WriteFails (.frameNarrowWrite (regAddr s.cfg r) payload) s .aBus 0 s.env.chip []
        ((writeByte (regAddr s.cfg r) :: payload).flatMap expand) r payload) ∧
    (s.a.mode = .fourBitSerial → s.a.streaming = true →
      WriteFails (.profileRecord (regAddr s.cfg r) payload) s .aBus 0 s.env.chip []
        (writeByte (regAddr s.cfg r) :: payload) r payload)

/-! ## Controller (42_channel_mux.md) -/

/-- 42_channel_mux.md section 3: SET_FREQUENCY raises Bounds before any event, else writes CSR and the tuning word, and
returns the actual frequency; CSR is not restored, and nothing else of the block changes. Either write that fails ends it
with Interface (R161, R165); what a failed write leaves of the chip is log 10's. That the Bounds test is exact under CODEC_ARITH =
binary32 too is the model's choice (log 21). -/
def Obligations.SetFrequencyCompletes : Prop :=
  ∀ (s : State) (cs : ChSet) (hz : Rat), s.cfg.wf = true → s.c.phase = .ready → s.Wide → cs ≠ 0 → 0 < s.systemHz →
    (hz < 0 ∨ s.systemHz / 2 < hz → exec (.setFrequency cs hz) s = .next (s.report (.err .bounds))) ∧
    (0 ≤ hz → hz ≤ s.systemHz / 2 →
      let w := csrByte s.cfg s.c.mode cs
      let ftw : Word := BitVec.ofInt 32 (ftwFloor s.cfg hz s.systemHz)
      let es := [wideW s.cfg .csr [w], wideW s.cfg .cftw0 (beBytes 4 ftw.toNat)]
      (AcceptsAll s 0 s.trace es →
        exec (.setFrequency cs hz) s =
          .next { s with
            env := s.envAfter 2 ((s.env.chip.write .csr [w]).write .cftw0 (beBytes 4 ftw.toNat))
            trace := s.trace ++ es
            results := s.results ++ [.ok (.q (ftwToFreq s.cfg ftw s.systemHz))] }) ∧
      CtlWriteFails (.setFrequency cs hz) s 0 s.env.chip [] .csr [w] ∧
      (s.drawAt 0 s.trace ≠ .fail →
        CtlWriteFails (.setFrequency cs hz) s 1 (s.env.chip.write .csr [w]) [wideW s.cfg .csr [w]] .cftw0
          (beBytes 4 ftw.toNat)))

/-- 42_channel_mux.md section 3: SET_PHASE writes CSR and the phase word and returns the wrapped phase; either write
that fails ends it with Interface (R161, R165); what a failed write leaves of the chip is log 10's. -/
def Obligations.SetPhaseCompletes : Prop :=
  ∀ (s : State) (cs : ChSet) (turns : Rat), s.cfg.wf = true → s.c.phase = .ready → s.Wide → cs ≠ 0 →
    let w := csrByte s.cfg s.c.mode cs
    let pow := phaseToPow s.cfg turns
    let es := [wideW s.cfg .csr [w], wideW s.cfg .cpow0 (beBytes 2 pow.toNat)]
    (AcceptsAll s 0 s.trace es →
      exec (.setPhase cs turns) s =
        .next { s with
          env := s.envAfter 2 ((s.env.chip.write .csr [w]).write .cpow0 (beBytes 2 pow.toNat))
          trace := s.trace ++ es
          results := s.results ++ [.ok (.q (powToPhase s.cfg pow))] }) ∧
    CtlWriteFails (.setPhase cs turns) s 0 s.env.chip [] .csr [w] ∧
    (s.drawAt 0 s.trace ≠ .fail →
      CtlWriteFails (.setPhase cs turns) s 1 (s.env.chip.write .csr [w]) [wideW s.cfg .csr [w]] .cpow0
        (beBytes 2 pow.toNat))

/-- 42_channel_mux.md section 3: SET_AMPLITUDE raises Bounds before any event, else writes CSR and the low three bytes of the
amplitude control value, and returns the actual amplitude. Either write that fails ends it with Interface (R161, R165); what a
failed write leaves of the chip is log 10's. That the Bounds test is exact under CODEC_ARITH = binary32 too is the model's
choice (log 21). -/
def Obligations.SetAmplitudeCompletes : Prop :=
  ∀ (s : State) (cs : ChSet) (amp : Rat), s.cfg.wf = true → s.c.phase = .ready → s.Wide → cs ≠ 0 →
    (amp < 0 ∨ 1 < amp → exec (.setAmplitude cs amp) s = .next (s.report (.err .bounds))) ∧
    (∀ acr, ampToAcr s.cfg amp = .ok acr →
      let w := csrByte s.cfg s.c.mode cs
      let v := (beBytes 4 acr.toNat).drop 1
      let es := [wideW s.cfg .csr [w], wideW s.cfg .acr v]
      (AcceptsAll s 0 s.trace es →
        exec (.setAmplitude cs amp) s =
          .next { s with
            env := s.envAfter 2 ((s.env.chip.write .csr [w]).write .acr v)
            trace := s.trace ++ es
            results := s.results ++ [.ok (.q (acrToAmp s.cfg v))] }) ∧
      CtlWriteFails (.setAmplitude cs amp) s 0 s.env.chip [] .csr [w] ∧
      (s.drawAt 0 s.trace ≠ .fail →
        CtlWriteFails (.setAmplitude cs amp) s 1 (s.env.chip.write .csr [w]) [wideW s.cfg .csr [w]] .acr v))

/-- 42_channel_mux.md sections 2 and 3: the three getters read CSR, select the one channel, read the register, write the
saved CSR back and return the decoded value; nothing else of the block changes. Any of the four that fails ends the getter
with Interface (R161), and at the register read or at the restore CSR is left at csr_for(ch) (R166; 70_reset_and_hazards.md
R271); what the selecting write leaves where it fails is log 10's. -/
def Obligations.GettersComplete : Prop :=
  ∀ (s : State) (ch : Channel) (saved : Byte) (r : Reg) (d : List Byte),
    s.cfg.wf = true → s.c.phase = .ready → s.Wide →
    let w := csrByte s.cfg s.c.mode (channelFlag ch)
    let t1 := s.trace ++ [readR s.cfg .csr [saved]]
    let t2 := t1 ++ [wideW s.cfg .csr [w]]
    let t3 := t2 ++ [readR s.cfg r d]
    let chip1 := s.env.chip.write .csr [w]
    let after := fun (v : Rat) => ({ s with
      env := s.envAfter 4 (chip1.write .csr [saved])
      trace := t3 ++ [wideW s.cfg .csr [saved]]
      results := s.results ++ [.ok (.q v)] } : State)
    (Answers s 0 s.trace s.env.chip .csr [saved] → s.drawAt 1 t1 ≠ .fail → Answers s 2 t2 chip1 r d →
      s.drawAt 3 t3 ≠ .fail →
      (r = .cftw0 → exec (.getFrequency ch) s =
        .next (after (ftwToFreq s.cfg (BitVec.ofNat 32 (fromBe d)) s.systemHz))) ∧
      (r = .cpow0 → exec (.getPhase ch) s = .next (after (powToPhase s.cfg (BitVec.ofNat 16 (fromBe d))))) ∧
      (r = .acr → exec (.getAmplitude ch) s = .next (after (acrToAmp s.cfg d)))) ∧
    chip1.written.csr = w ∧
    (∀ i : Instr, (r = .cftw0 ∧ i = .getFrequency ch) ∨ (r = .cpow0 ∧ i = .getPhase ch) ∨
        (r = .acr ∧ i = .getAmplitude ch) →
      ReadFails i s .interface 0 s.env.chip [] .csr ∧
      (Answers s 0 s.trace s.env.chip .csr [saved] →
        CtlWriteFails i s 1 s.env.chip [readR s.cfg .csr [saved]] .csr [w] ∧
        (s.drawAt 1 t1 ≠ .fail →
          ReadFails i s .interface 2 chip1 [readR s.cfg .csr [saved], wideW s.cfg .csr [w]] r ∧
          (Answers s 2 t2 chip1 r d →
            RestoreFails i s 3 chip1 [readR s.cfg .csr [saved], wideW s.cfg .csr [w], readR s.cfg r d] saved))))

/-- 42_channel_mux.md section 2, and R163 of section 1: the two writes of a setter reach every channel of the set and no
other, CSR keeps the set (it is not restored), and of the contents in active use only the channel enables change. -/
def Obligations.BroadcastReachesTheSet : Prop :=
  ∀ (cfg : Config) (m : Mode) (cs : ChSet) (chip : Chip) (r : Reg) (v : List Byte),
    r = .cftw0 ∨ r = .cpow0 ∨ r = .acr →
    let after := (chip.write .csr [csrByte cfg m cs]).write r v
    after.written.csr = csrByte cfg m cs ∧
    after.written.fr1 = chip.written.fr1 ∧
    (∀ ch, laneOf after.written ch =
      if channelFlag ch &&& cs = 0 then laneOf chip.written ch else writeLane r v (laneOf chip.written ch)) ∧
    SameActive chip.active after.active ∧
    csrChannels after.active.csr = cs

/-- 42_channel_mux.md section 3: CONFIGURE_SYSTEM_CLOCK reads FR1, writes the merged payload back, stores the clock and
returns the effective frequency; no pin event, no CSR write. A read or a write that fails ends it with Interface (R161) and
the clock as it was; what a failed write leaves of the chip is log 10's. -/
def Obligations.ConfigureSystemClockCompletes : Prop :=
  ∀ (s : State) (ref eff : Rat) (mult : Byte) (old : List Byte), s.cfg.wf = true → s.c.phase = .ready → s.Wide →
    validateClocking s.cfg ref mult = .ok eff →
    let t1 := s.trace ++ [readR s.cfg .fr1 old]
    let new := fr1Merge s.cfg old mult eff
    (Answers s 0 s.trace s.env.chip .fr1 old → s.drawAt 1 t1 ≠ .fail →
      exec (.configureSystemClock ref mult) s =
        .next { s with
          c := { phase := .ready, refHz := ref, mult := mult, mode := s.c.mode }
          env := s.envAfter 2 (s.env.chip.write .fr1 new)
          trace := t1 ++ [wideW s.cfg .fr1 new]
          results := s.results ++ [.ok (.q eff)] }) ∧
    ReadFails (.configureSystemClock ref mult) s .interface 0 s.env.chip [] .fr1 ∧
    (Answers s 0 s.trace s.env.chip .fr1 old →
      CtlWriteFails (.configureSystemClock ref mult) s 1 s.env.chip [readR s.cfg .fr1 old] .fr1 new)

/-- 42_channel_mux.md section 3 (R173): in Ready, a clock that VALIDATE_CLOCKING rejects ends CONFIGURE_SYSTEM_CLOCK with that
Bounds or Frequency, with no event and nothing else changed; on any error of the command the stored clock is unchanged, and
the only error beside VALIDATE_CLOCKING's is Interface. -/
def Obligations.ClockErrorsKeepTheClock : Prop :=
  (∀ (s : State) (ref : Rat) (mult : Byte) (e : Err), s.c.phase = .ready → validateClocking s.cfg ref mult = .error e →
    exec (.configureSystemClock ref mult) s = .next (s.report (.err e))) ∧
  ∀ (s t : State) (ref : Rat) (mult : Byte) (e : Err), exec (.configureSystemClock ref mult) s = .next t →
    t.results = s.results ++ [.err e] →
    t.c = s.c ∧
    ((validateClocking s.cfg ref mult = .error e ∧ t = s.report (.err e)) ∨
     (e = .interface ∧ ∃ eff, validateClocking s.cfg ref mult = .ok eff))

/-- 42_channel_mux.md section 3: SELF_TEST, when the enables are seen set and then clear, restores CSR and returns true;
any of the six transactions that fails ends it with Interface, which is no soft false (R174), and CSR at its last written byte
(70_reset_and_hazards.md R271; a failed CSR write is made or it is not, by the prefix that arrived: 20_memory.md R63, log 10). -/
def Obligations.SelfTestRestoresCsr : Prop :=
  ∀ (s : State) (saved w1 w2 : Byte), s.cfg.wf = true → s.c.phase = .ready → s.Wide →
    csrChannels w1 = 0xF#4 → csrChannels w2 = 0x0#4 →
    let t1 := s.trace ++ [readR s.cfg .csr [saved]]
    let t2 := t1 ++ [wideW s.cfg .csr [saved ||| 0xF0#8]]
    let t3 := t2 ++ [readR s.cfg .csr [w1]]
    let t4 := t3 ++ [wideW s.cfg .csr [w1 &&& 0x0F#8]]
    let t5 := t4 ++ [readR s.cfg .csr [w2]]
    let chip1 := s.env.chip.write .csr [saved ||| 0xF0#8]
    let chip2 := chip1.write .csr [w1 &&& 0x0F#8]
    let es2 := [readR s.cfg .csr [saved], wideW s.cfg .csr [saved ||| 0xF0#8]]
    let es4 := es2 ++ [readR s.cfg .csr [w1], wideW s.cfg .csr [w1 &&& 0x0F#8]]
    (Answers s 0 s.trace s.env.chip .csr [saved] → s.drawAt 1 t1 ≠ .fail → Answers s 2 t2 chip1 .csr [w1] →
      s.drawAt 3 t3 ≠ .fail → Answers s 4 t4 chip2 .csr [w2] → s.drawAt 5 t5 ≠ .fail →
      exec .selfTest s =
        .next { s with
          env := s.envAfter 6 (chip2.write .csr [saved])
          trace := t5 ++ [wideW s.cfg .csr [saved]]
          results := s.results ++ [.ok (.bool true)] }) ∧
    ReadFails .selfTest s .interface 0 s.env.chip [] .csr ∧
    (Answers s 0 s.trace s.env.chip .csr [saved] →
      CtlWriteFails .selfTest s 1 s.env.chip [readR s.cfg .csr [saved]] .csr [saved ||| 0xF0#8] ∧
      (s.drawAt 1 t1 ≠ .fail →
        ReadFails .selfTest s .interface 2 chip1 es2 .csr ∧
        (Answers s 2 t2 chip1 .csr [w1] →
          CtlWriteFails .selfTest s 3 chip1 (es2 ++ [readR s.cfg .csr [w1]]) .csr [w1 &&& 0x0F#8] ∧
          (s.drawAt 3 t3 ≠ .fail →
            ReadFails .selfTest s .interface 4 chip2 es4 .csr ∧
            (Answers s 4 t4 chip2 .csr [w2] →
              CtlWriteFails .selfTest s 5 chip2 (es4 ++ [readR s.cfg .csr [w2]]) .csr [saved])))))

/-- 42_channel_mux.md section 3: a soft mismatch of SELF_TEST is the result false, after three or five transactions, and CSR
is not restored. -/
def Obligations.SelfTestSoftMismatch : Prop :=
  ∀ (s : State) (saved w1 : Byte), s.cfg.wf = true → s.c.phase = .ready → s.Wide →
    let t1 := s.trace ++ [readR s.cfg .csr [saved]]
    let t2 := t1 ++ [wideW s.cfg .csr [saved ||| 0xF0#8]]
    let t3 := t2 ++ [readR s.cfg .csr [w1]]
    let t4 := t3 ++ [wideW s.cfg .csr [w1 &&& 0x0F#8]]
    let chip1 := s.env.chip.write .csr [saved ||| 0xF0#8]
    let chip2 := chip1.write .csr [w1 &&& 0x0F#8]
    Answers s 0 s.trace s.env.chip .csr [saved] → s.drawAt 1 t1 ≠ .fail → Answers s 2 t2 chip1 .csr [w1] →
    (csrChannels w1 ≠ 0xF#4 →
      exec .selfTest s =
        .next { s with
          env := s.envAfter 3 chip1
          trace := t3
          results := s.results ++ [.ok (.bool false)] }) ∧
    (csrChannels w1 = 0xF#4 → s.drawAt 3 t3 ≠ .fail → ∀ w2, csrChannels w2 ≠ 0x0#4 → Answers s 4 t4 chip2 .csr [w2] →
      exec .selfTest s =
        .next { s with
          env := s.envAfter 5 chip2
          trace := t4 ++ [readR s.cfg .csr [w2]]
          results := s.results ++ [.ok (.bool false)] })

/-- 42_channel_mux.md R175: FREEZE ends the controller and returns c.mode; no event; a.mode, a.streaming and the chip are
unchanged; afterwards the controller commands are refused and the host's transport commands are not. -/
def Obligations.FreezeCompletes : Prop :=
  ∀ s : State, s.c.phase = .ready →
    let t : State := { s with
      c := { phase := .frozen, refHz := s.c.refHz, mult := s.c.mult, mode := s.c.mode }
      results := s.results ++ [.ok (.mode s.c.mode)] }
    exec .freeze s = .next t ∧
    (∀ i : Instr, i.isSteady = true → i.wellFormed s.cfg = true → exec i t = .refused .notReady) ∧
    (∀ i : Instr, i.isTransport = true → exec i t ≠ .refused .transportOwned) ∧
    decode s.cfg s.a.mode (.command 0x2B#8 []) = .ok .freeze

/-- 42_channel_mux.md R160: outside Ready every command of the file is refused and has no effect. -/
def Obligations.SteadyCommandsNeedReady : Prop :=
  ∀ (i : Instr) (s : State), i.isSteady = true → i.wellFormed s.cfg = true → s.c.phase ≠ .ready →
    exec i s = .refused .notReady

/-! ## Bring-up (70_reset_and_hazards.md) -/

/-- 70_reset_and_hazards.md section 2: INIT with the wide mode, a legal clock and an oracle that accepts every event and
reads CSR back as written emits the source's sequence and ends Ready. -/
def Obligations.InitCompletes : Prop :=
  ∀ (s : State) (ref eff : Rat) (mult : Byte) (old : List Byte), s.cfg.wf = true → hostOwns s.c.phase = true →
    s.a.streaming = false → validateClocking s.cfg ref mult = .ok eff →
    let w := csrByte s.cfg .fourBitSerial 0xF#4
    let lead : List Event := if s.cfg.latchLeadDwell then [.delay 5] else []
    let pulse := lead ++ [.pin .update true true, .delay 5, .pin .update false true, .delay 5]
    let head := initHead s.cfg w pulse
    let t1 := s.trace ++ head
    let t2 := t1 ++ [readR s.cfg .csr [w]]
    let t3 := t2 ++ [readR s.cfg .fr1 old]
    let new := fr1Merge s.cfg old mult eff
    let tail := wideW s.cfg .fr1 new :: pulse
    let chip1 := ((s.env.chip.assertReset s.cfg (s.trace ++ [.pin .update false true])).write .csr [w]).commit
    AcceptsAll s 0 s.trace head → Answers s 6 t1 chip1 .csr [w] → Answers s 7 t2 chip1 .fr1 old →
    AcceptsAll s 8 t3 tail →
    exec (.init .fourBitSerial ref mult) s =
      .next { s with
        a := { mode := .fourBitSerial, streaming := false }
        c := { phase := .ready, refHz := ref, mult := mult, mode := .fourBitSerial }
        p := { reset := false, update := false }
        env := s.envAfter 11 (chip1.write .fr1 new).commit
        trace := t3 ++ tail
        results := s.results ++ [.ok .none] }

/-- 70_reset_and_hazards.md section 2: whatever the oracle does, INIT ends with one result: Ok, Ready, the arguments stored
and both pins at rest, or one of its five errors and Failed; a failed pin change is Pin and a failed transaction Interface; the
streaming bit and the profile are never touched. In the wide mode with no stream and every event up to the read-back accepted
(R262, R264; 95_test_vectors.md L1-8): where CSR reads back as another byte than the one written the error is Check, and where it
reads back as written but VALIDATE_CLOCKING rejects the clock the error is that one; either way the read-back is the last event. -/
def Obligations.InitEndsReadyOrFailed : Prop :=
  (∀ (s : State) (ref : Rat) (mult b : Byte) (e : Err), s.cfg.wf = true → hostOwns s.c.phase = true →
    s.a.streaming = false →
    let w := csrByte s.cfg .fourBitSerial 0xF#4
    let lead : List Event := if s.cfg.latchLeadDwell then [.delay 5] else []
    let head := initHead s.cfg w
      (lead ++ [.pin .update true true, .delay 5, .pin .update false true, .delay 5])
    let t1 := s.trace ++ head
    let chip1 := ((s.env.chip.assertReset s.cfg (s.trace ++ [.pin .update false true])).write .csr [w]).commit
    AcceptsAll s 0 s.trace head → Answers s 6 t1 chip1 .csr [b] →
    (b ≠ w ∧ e = .check) ∨ (b = w ∧ validateClocking s.cfg ref mult = .error e) →
    exec (.init .fourBitSerial ref mult) s =
      .next { s with
        a := { mode := .fourBitSerial, streaming := false }
        c := { phase := .failed, refHz := s.c.refHz, mult := s.c.mult, mode := .fourBitSerial }
        p := { reset := false, update := false }
        env := s.envAfter 7 chip1
        trace := t1 ++ [readR s.cfg .csr [b]]
        results := s.results ++ [.err e] }) ∧
  ∀ (s : State) (m : Mode) (ref : Rat) (mult : Byte), hostOwns s.c.phase = true →
    ∃ t r, exec (.init m ref mult) s = .next t ∧ t.results = s.results ++ [r] ∧ t.cfg = s.cfg ∧ t.q = s.q ∧
      t.a.streaming = s.a.streaming ∧ (t.a.mode = m ∨ t.a.mode = .singleBitTwoWire ∨ t.a.mode = s.a.mode) ∧
      ((r = .ok .none ∧ t.c = { phase := .ready, refHz := ref, mult := mult, mode := m } ∧ t.a.mode = m ∧
          t.p = { reset := false, update := false }) ∨
       (∃ e, r = .err e ∧ t.c.phase = .failed ∧
          (e = .pin ∨ e = .interface ∨ e = .check ∨ e = .bounds ∨ e = .frequency))) ∧
      (∀ es ev, t.trace = s.trace ++ es ++ [ev] → Event.accepted ev = false →
        r = .err (if Event.isBus ev then .interface else .pin))

/-- 70_reset_and_hazards.md R265: INIT can succeed only when m = FourBitSerial and a.streaming = 0. Otherwise it raises an
error; with m another mode, or with a.streaming = 1 under READ_DURING_STREAM = reject, and nothing failing before the
read-back, it raises Interface after the narrow write and the first pulse, with no read on the bus. -/
def Obligations.InitNeedsWideModeAndNoStream : Prop :=
  ∀ (s : State) (m : Mode) (ref : Rat) (mult : Byte), s.cfg.wf = true → hostOwns s.c.phase = true →
    m ≠ .fourBitSerial ∨ s.a.streaming = true →
    ∃ t e, exec (.init m ref mult) s = .next t ∧ t.results = s.results ++ [.err e] ∧ t.c.phase = .failed ∧
      let w := csrByte s.cfg m 0xF#4
      let lead : List Event := if s.cfg.latchLeadDwell then [.delay 5] else []
      let head := initHead s.cfg w
        (lead ++ [.pin .update true true, .delay 5, .pin .update false true, .delay 5])
      (m ≠ .fourBitSerial ∨ s.cfg.readDuringStream = .reject → AcceptsAll s 0 s.trace head →
        e = .interface ∧ t.trace = s.trace ++ head ∧ t.a.mode = m)

/-! ## Profile (43_profile.md) -/

/-- 43_profile.md R200: PROFILE_NEW is accepted in every state, takes any Mode and discards an open profile; its cursor is 0
and its bytes are none. -/
def Obligations.ProfileNewCompletes : Prop :=
  ∀ (s : State) (m : Mode),
    (∃ buf : Memory, exec (.profileNew m) s =
      .next { s with
        q := { buf := buf, cursor := 0, mode := m, status := .opened }
        results := s.results ++ [.ok .none] }) ∧
    decode s.cfg s.a.mode (.command 0x30#8 [.mode (modeIndex m)]) = .ok (.profileNew m)

/-- 43_profile.md R202: PROFILE_UPDATE_CHANNELS, with room, appends the CSR record and then a record for each value
supplied, in the fixed order; the bytes already there, and everything outside the profile, are unchanged. -/
def Obligations.ProfileUpdateChannelsCompletes : Prop :=
  ∀ (s : State) (cs : ChSet) (ftw acr : Option Word) (pow : Option (BitVec 16)), s.q.status = .opened → cs ≠ 0 →
    let recs : List Byte :=
      [writeByte (regAddr s.cfg .csr), csrByte s.cfg s.q.mode cs] ++
      (match ftw with
        | some v => 0x04#8 :: beBytes 4 v.toNat
        | none => []) ++
      (match pow with
        | some v => writeByte (regAddr s.cfg .cpow0) :: beBytes 2 v.toNat
        | none => []) ++
      (match acr with
        | some v => writeByte (regAddr s.cfg .acr) :: (beBytes 4 v.toNat).drop 1
        | none => [])
    s.q.cursor + recs.length ≤ 32 →
    ∃ q : Profile,
      exec (.profileUpdateChannels cs ftw pow acr) s =
        .next { s with q := q, results := s.results ++ [.ok .none] } ∧
      q.bytes = s.q.bytes ++ recs ∧ q.cursor = s.q.cursor + recs.length ∧ q.mode = s.q.mode ∧ q.status = .opened ∧
      ∀ a, a < s.q.cursor ∨ q.cursor ≤ a → q.buf.read? a = s.q.buf.read? a

/-- 43_profile.md R203: PROFILE_SET_SYSTEM_CLOCK, with room, appends the fresh FR1 record and returns ref·mult without
validating it; an illegal operand is refused; the controller's clock is not touched. -/
def Obligations.ProfileSetSystemClockCompletes : Prop :=
  ∀ (s : State) (ref : Rat) (mult : Byte), s.q.status = .opened →
    (31 < mult.toNat ∨ ref < 0 → exec (.profileSetSystemClock ref mult) s = .refused .illegalOperand) ∧
    (mult.toNat ≤ 31 → 0 ≤ ref → s.q.cursor + 4 ≤ 32 →
      let eff := effHz s.cfg ref mult
      (s.cfg.codecArith = .exact → eff = (mult.toNat : Rat) * ref) ∧
      ∃ q : Profile,
        exec (.profileSetSystemClock ref mult) s =
          .next { s with q := q, results := s.results ++ [.ok (.q eff)] } ∧
        q.bytes = s.q.bytes ++ (writeByte (regAddr s.cfg .fr1) :: fr1Fresh s.cfg mult eff) ∧
        q.cursor = s.q.cursor + 4 ∧ q.mode = s.q.mode ∧ q.status = .opened ∧
        ∀ a, a < s.q.cursor ∨ q.cursor ≤ a → q.buf.read? a = s.q.buf.read? a)

/-- 43_profile.md R204, with the default pad payloads and word order: PROFILE_FINALIZE appends the LSRR pad when the
cursor is odd and the CSR pad when two bytes remain unaligned, and returns the bytes as little-endian words. -/
def Obligations.ProfileFinalizeCompletes : Prop :=
  ∀ s : State, s.q.status = .opened → s.cfg.padLsrr = 0 → s.cfg.padCsr = none → s.cfg.wordEndian = .little →
    let lsrr : List Byte := [writeByte (regAddr s.cfg .lsrr), 0x00#8, 0x00#8]
    let csr : List Byte := [writeByte (regAddr s.cfg .csr), 0#5 ++ modeCode s.cfg s.q.mode]
    let pad : List Byte :=
      match s.q.cursor % 4 with
      | 0 => []
      | 1 => lsrr
      | 2 => csr
      | _ => lsrr ++ csr
    s.q.cursor + pad.length ≤ 32 →
    ∃ (q : Profile) (words : List Word),
      exec .profileFinalize s = .next { s with q := q, results := s.results ++ [.ok (.words words)] } ∧
      q.bytes = s.q.bytes ++ pad ∧ q.cursor = s.q.cursor + pad.length ∧ q.cursor % 4 = 0 ∧ q.mode = s.q.mode ∧
      q.status = .finalized ∧ 4 * words.length = q.cursor ∧
      (∀ k, k < words.length → ∃ b0 b1 b2 b3 : Byte,
        (q.bytes.drop (4 * k)).take 4 = [b0, b1, b2, b3] ∧ words[k]? = some (b3 ++ b2 ++ b1 ++ b0)) ∧
      ∀ a, a < s.q.cursor ∨ q.cursor ≤ a → q.buf.read? a = s.q.buf.read? a

/-- 43_profile.md R205: a profile command that would pass 32 bytes raises P_Overflow and changes nothing but the
results; the profile stays Open. -/
def Obligations.ProfileOverflowChangesNothing : Prop :=
  ∀ s : State, s.q.status = .opened →
    (∀ (cs : ChSet) (ftw acr : Option Word) (pow : Option (BitVec 16)), cs ≠ 0 →
      32 < s.q.cursor + (2 + (if ftw.isSome then 5 else 0) + (if pow.isSome then 3 else 0) +
        (if acr.isSome then 4 else 0)) →
      exec (.profileUpdateChannels cs ftw pow acr) s = .next (s.report (.err .pOverflow))) ∧
    (∀ (ref : Rat) (mult : Byte), mult.toNat ≤ 31 → 0 ≤ ref → 32 < s.q.cursor + 4 →
      exec (.profileSetSystemClock ref mult) s = .next (s.report (.err .pOverflow))) ∧
    (32 < s.q.cursor + (match s.q.cursor % 4 with
        | 0 => 0
        | 1 => 3
        | 2 => 2
        | _ => 5) →
      exec .profileFinalize s = .next (s.report (.err .pOverflow)))

/-- 43_profile.md R206: with no open profile, before the first PROFILE_NEW or after a PROFILE_FINALIZE, the other profile
commands are refused; a successful PROFILE_FINALIZE leaves no open profile; and nothing but PROFILE_NEW opens one. -/
def Obligations.ProfileCommandsNeedAnOpenProfile : Prop :=
  (∀ (s : State) (i : Instr), s.q.status ≠ .opened → i.isProfile = true → i.wellFormed s.cfg = true →
    (∀ m, i ≠ .profileNew m) → exec i s = .refused .noOpenProfile) ∧
  (∀ (s t : State) (words : List Word), exec .profileFinalize s = .next t →
    t.results = s.results ++ [.ok (.words words)] → t.q.status ≠ .opened) ∧
  (∀ (i : Instr) (s t : State), exec i s = .next t → s.q.status ≠ .opened → t.q.status = .opened →
    ∃ m, i = .profileNew m)

/-- 43_profile.md R207: a profile command emits no event and changes neither the adapter, the controller nor the chip. -/
def Obligations.ProfileCommandsTouchOnlyTheProfile : Prop :=
  ∀ (i : Instr) (s t : State), i.isProfile = true → exec i s = .next t →
    t = { s with q := t.q, results := t.results }

/-! ## The whole machine -/

/-- 70_reset_and_hazards.md section 1, the values the spec gives: the adapter in SingleBitTwoWire with no stream, no
controller, no profile, and (60_exceptions.md R246) nothing observed yet. -/
def Obligations.ResetState : Prop :=
  State.reset.a = { mode := .singleBitTwoWire, streaming := false } ∧ State.reset.c.phase = .absent ∧
  State.reset.q.status = .absent ∧ State.reset.cfg = Config.default ∧ State.reset.trace = [] ∧ State.reset.results = []

/-- The invariant holds at the start of a run (the values of log 2 to log 4 are the model's choice). -/
def Obligations.InvariantHoldsAtReset : Prop := State.reset.Inv

/-- 10_state.md R24, R27, R34, R23 and R26, 43_profile.md R205, 70_reset_and_hazards.md R265: every step keeps the block's
invariant: between commands the phase is one of four; while Ready the adapter and the controller agree on the wide mode, no
stream runs, the stored clock is one VALIDATE_CLOCKING accepts and the pins rest; the profile's cursor is at most 32 and
exactly the bytes below it are written. -/
def Obligations.StepKeepsTheInvariant : Prop :=
  ∀ s t : State, s.Inv → step s = .next t → t.Inv

/-- 10_state.md section 1: each field is written only by the commands its rule lists. -/
def Obligations.FieldsWrittenOnlyByTheirCommands : Prop :=
  ∀ (i : Instr) (s t : State), exec i s = .next t →
    t.cfg = s.cfg ∧ t.inbox = s.inbox ∧
    (t.a.mode ≠ s.a.mode → (∃ m, i = .configureMode m) ∨ i.isInit = true) ∧
    (t.a.streaming ≠ s.a.streaming → i = .startStream) ∧
    (t.c.phase ≠ s.c.phase → i = .freeze ∨ i.isInit = true) ∧
    (t.c.refHz ≠ s.c.refHz ∨ t.c.mult ≠ s.c.mult → (∃ ref mult, i = .configureSystemClock ref mult) ∨ i.isInit = true) ∧
    (t.c.mode ≠ s.c.mode → i.isInit = true) ∧
    (t.p ≠ s.p → i.isInit = true) ∧
    (t.q ≠ s.q → i.isProfile = true) ∧
    (t.q.mode ≠ s.q.mode → ∃ m, i = .profileNew m) ∧
    (t.q.status ≠ s.q.status → (∃ m, i = .profileNew m) ∨ i = .profileFinalize)

/-- 20_memory.md R60, 60_exceptions.md R231 to R233, 00_scope.md R8: every command that is not refused appends its events to
the trace and exactly one result, and takes nothing back; a failed event is its last, and the result is the error that reports
it: Pin for a pin change, A_Bus or (R161) Interface for a bus transaction. -/
def Obligations.CommandsOnlyExtendTheObservation : Prop :=
  ∀ (i : Instr) (s t : State), exec i s = .next t →
    ∃ es r, t.trace = s.trace ++ es ∧ t.results = s.results ++ [r] ∧
      (es.all Event.accepted = true ∨ ∃ e, r = .err e ∧ FailedLast es e)

/-- 20_memory.md R61, 60_exceptions.md R239 and R240, 70_reset_and_hazards.md R269: outside INIT there is no pin change, no
delay and no latch pulse, so of the chip's contents in active use only the channel enables can change (the model's chip: log 11,
and log 35 on a CSR byte whose effect U6 leaves open). -/
def Obligations.OnlyInitPulsesAndWaits : Prop :=
  ∀ (i : Instr) (s t : State), i.isInit = false → exec i s = .next t →
    (∃ es, t.trace = s.trace ++ es ∧ es.all Event.isBus = true) ∧ t.p = s.p ∧
    SameActive s.env.chip.active t.env.chip.active

/-- 42_channel_mux.md section 1 and 41_transport.md R141: a steady-state command ends with Ok, with Bounds or Frequency
before any event, or with Interface; no adapter code comes out of it. Whenever one of its transactions failed, it ends with
Interface (R161). -/
def Obligations.SteadyCommandErrors : Prop :=
  ∀ (i : Instr) (s t : State), i.isSteady = true → exec i s = .next t →
    (∀ e, t.results = s.results ++ [.err e] →
      e = .interface ∨ ((e = .bounds ∨ e = .frequency) ∧ t = s.report (.err e))) ∧
    (∀ es, t.trace = s.trace ++ es → es.all Event.accepted = false → t.results = s.results ++ [.err .interface])

/-- 20_memory.md R64 and 42_channel_mux.md sections 2 and 3, under the echo oracle: what a setter writes to one channel, the
getter of that channel reads back, as the value the setter returned. -/
def Obligations.EchoedSetterIsReadBack : Prop :=
  ∀ (s t : State) (ch : Channel) (v : Value), s.cfg.wf = true → s.c.phase = .ready → s.Wide → s.env.script = [] →
    s.env.rest = .echo →
    (∀ hz, exec (.setFrequency (channelFlag ch) hz) s = .next t → t.results = s.results ++ [.ok v] →
      ∃ u, exec (.getFrequency ch) t = .next u ∧ u.results = t.results ++ [.ok v] ∧ u.env.chip = t.env.chip) ∧
    (∀ turns, exec (.setPhase (channelFlag ch) turns) s = .next t → t.results = s.results ++ [.ok v] →
      ∃ u, exec (.getPhase ch) t = .next u ∧ u.results = t.results ++ [.ok v] ∧ u.env.chip = t.env.chip) ∧
    (∀ amp, exec (.setAmplitude (channelFlag ch) amp) s = .next t → t.results = s.results ++ [.ok v] →
      ∃ u, exec (.getAmplitude ch) t = .next u ∧ u.results = t.results ++ [.ok v] ∧ u.env.chip = t.env.chip)

/-- 42_channel_mux.md section 3, the source's §8 property: under the echo oracle SELF_TEST returns true and leaves the
chip's CSR, and every other written register, at its pre-call value. -/
def Obligations.EchoedSelfTestPasses : Prop :=
  ∀ s : State, s.cfg.wf = true → s.c.phase = .ready → s.Wide → s.env.script = [] → s.env.rest = .echo →
    ∃ t, exec .selfTest s = .next t ∧ t.results = s.results ++ [.ok (.bool true)] ∧
      t.env.chip.written = s.env.chip.written
end

