-- ==== Sys2Proof/Laws/Operands.lean ====
section
/-!
SUPPORT. What the operand forms do: address bytes, the register of an address, big-endian bytes, the narrow expansion, the
CSR and FR1 bytes.
-/

namespace Sys2Proof.Machine

/-! ## Address bytes -/

@[simp] theorem addrOfByte_writeByte (a : RegAddr) : addrOfByte (writeByte a) = a := by
  revert a; decide

@[simp] theorem addrOfByte_readByte (a : RegAddr) : addrOfByte (readByte a) = a := by
  revert a; decide

@[simp] theorem writeByte_bit7 (a : RegAddr) : (writeByte a).getLsbD 7 = false := by
  revert a; decide

@[simp] theorem readByte_bit7 (a : RegAddr) : (readByte a).getLsbD 7 = true := by
  revert a; decide

@[simp] theorem writeByte_getElem7 (a : RegAddr) : (writeByte a)[7] = false := by
  revert a; decide

@[simp] theorem readByte_getElem7 (a : RegAddr) : (readByte a)[7] = true := by
  revert a; decide

@[simp] theorem writeByte_or (a : RegAddr) : writeByte a ||| 0x80#8 = readByte a := by
  revert a; decide

/-- An address byte whose direction bit is 0 is the write byte of its address. -/
theorem writeByte_addrOfByte (b : Byte) (h : b.getLsbD 7 = false) : writeByte (addrOfByte b) = b := by
  revert b; decide

/-- An address byte whose direction bit is 1 is the read byte of its address. -/
theorem readByte_addrOfByte (b : Byte) (h : b.getLsbD 7 = true) : readByte (addrOfByte b) = b := by
  revert b; decide

theorem writeByte_inj (a b : RegAddr) : writeByte a = writeByte b ↔ a = b := by
  constructor
  · intro h
    have := congrArg addrOfByte h
    simpa using this
  · rintro rfl; rfl

/-! ## The register of an address -/

theorem mem_allRegs (r : Reg) : r ∈ allRegs := by
  cases r <;> decide

/-- The address that `regOfAddr` answers for is the register's. -/
theorem regAddr_of_regOfAddr {cfg : Config} {a : RegAddr} {r : Reg} (h : regOfAddr cfg a = some r) : regAddr cfg r = a := by
  have := List.find?_some h
  simpa using this

/-- Under a configuration with six addresses, a register's address answers for the register. -/
theorem regOfAddr_regAddr {cfg : Config} (h : cfg.wf = true) (r : Reg) : regOfAddr cfg (regAddr cfg r) = some r := by
  have h : (allRegs.map (regAddr cfg)).Nodup := by simpa [Config.wf] using h
  have inj := List.inj_on_of_nodup_map h
  unfold regOfAddr
  cases hf : allRegs.find? (fun x => regAddr cfg x == regAddr cfg r) with
  | none =>
    have := List.find?_eq_none.mp hf r (mem_allRegs r)
    simp at this
  | some x =>
    have hx := List.find?_some hf
    rw [inj (mem_allRegs x) (mem_allRegs r) (by simpa using hx)]

/-- What `WF(addr, n)` says. -/
theorem wellFormedTxn_iff {cfg : Config} {addr : Byte} {n : Nat} :
    wellFormedTxn cfg addr n = true ↔ ∃ r, writeByte (regAddr cfg r) = addr ∧ regWidth r = n := by
  simp [wellFormedTxn, List.any_eq_true, mem_allRegs]

/-- A whole register is a well-formed transaction. -/
@[simp] theorem wellFormedTxn_reg (cfg : Config) (r : Reg) : wellFormedTxn cfg (writeByte (regAddr cfg r)) (regWidth r) = true :=
  wellFormedTxn_iff.mpr ⟨r, rfl, rfl⟩

/-- CFTW0's address is fixed (10_state.md R32). -/
@[simp] theorem writeByte_cftw0 (cfg : Config) : writeByte (regAddr cfg .cftw0) = 0x04#8 := by
  show writeByte 0x04#7 = 0x04#8
  decide

theorem regWidth_pos (r : Reg) : 0 < regWidth r := by
  cases r <;> decide

/-! ## Big-endian bytes (20_memory.md R53) -/

@[simp] theorem beBytes_length (n v : Nat) : (beBytes n v).length = n := by
  induction n with
  | zero => rfl
  | succ n ih => simp [beBytes, ih]

theorem fromBe_foldl (s : List Byte) (v : Nat) :
    s.foldl (fun v b => v * 256 + b.toNat) v = v * 256 ^ s.length + fromBe s := by
  unfold fromBe
  induction s generalizing v with
  | nil => simp
  | cons b s ih =>
    simp only [List.foldl_cons, List.length_cons]
    rw [ih, ih (0 * 256 + b.toNat)]
    ring

@[simp] theorem fromBe_nil : fromBe [] = 0 := rfl

theorem fromBe_cons (b : Byte) (s : List Byte) : fromBe (b :: s) = b.toNat * 256 ^ s.length + fromBe s := by
  have := fromBe_foldl s (0 * 256 + b.toNat)
  simpa [fromBe] using this

/-- `from_be(be_n(v)) = v mod 2^(8n)` (20_memory.md R53). -/
theorem fromBe_beBytes (n v : Nat) : fromBe (beBytes n v) = v % 256 ^ n := by
  induction n with
  | zero => simp [beBytes, Nat.mod_one]
  | succ n ih =>
    rw [beBytes, fromBe_cons, ih, beBytes_length]
    have h : (2 : Nat) ^ (8 * n) = 256 ^ n := by rw [pow_mul]; norm_num
    rw [h, pow_succ, Nat.mod_mul]
    simp [BitVec.toNat_ofNat]
    ring

/-- `be_n(from_be(s)) = s` for a sequence of n bytes (20_memory.md R53). -/
theorem beBytes_fromBe (s : List Byte) : beBytes s.length (fromBe s) = s := by
  have h256 : ∀ n : Nat, (2 : Nat) ^ (8 * n) = 256 ^ n := fun n => by rw [pow_mul]; norm_num
  have lt : ∀ s : List Byte, fromBe s < 256 ^ s.length := by
    intro s
    induction s with
    | nil => simp
    | cons b s ih =>
      rw [fromBe_cons, List.length_cons, pow_succ]
      have := b.isLt
      nlinarith [Nat.pow_pos (n := s.length) (show 0 < 256 by norm_num)]
  have mod : ∀ (n v w : Nat), v % 256 ^ n = w % 256 ^ n → beBytes n v = beBytes n w := by
    intro n
    induction n with
    | zero => intros; rfl
    | succ n ih =>
      intro v w h
      rw [beBytes, beBytes]
      congr 1
      · rw [h256]
        apply BitVec.eq_of_toNat_eq
        simp only [BitVec.toNat_ofNat]
        have : v / 256 ^ n % 256 = w / 256 ^ n % 256 := by
          rw [← Nat.mod_mul_right_div_self, ← Nat.mod_mul_right_div_self, ← pow_succ, h]
        simpa using this
      · apply ih
        have := congrArg (· % 256 ^ n) h
        simpa [pow_succ, Nat.mod_mul_right_mod] using this
  induction s with
  | nil => rfl
  | cons b s ih =>
    rw [List.length_cons, beBytes, fromBe_cons]
    congr 1
    · rw [h256]
      apply BitVec.eq_of_toNat_eq
      have hb := b.isLt
      rw [BitVec.toNat_ofNat, Nat.mul_comm, Nat.mul_add_div (Nat.pow_pos (by norm_num)), Nat.div_eq_of_lt (lt s)]
      omega
    · conv_rhs => rw [← ih]
      apply mod
      rw [Nat.mul_add_mod_self_right]

/-! ## The narrow expansion (30_encoding.md R74, R85) -/

@[simp] theorem expand_length (b : Byte) : (expand b).length = 4 := rfl

theorem unexpand_expand (b : Byte) :
    unexpand (expandPair (b.getLsbD 7) (b.getLsbD 6)) (expandPair (b.getLsbD 5) (b.getLsbD 4))
      (expandPair (b.getLsbD 3) (b.getLsbD 2)) (expandPair (b.getLsbD 1) (b.getLsbD 0)) = some b := by
  revert b; decide

/-- Decoding an expansion gives the logical bytes back. -/
theorem unexpandAll_expand (bs : List Byte) : unexpandAll (bs.flatMap expand) = some bs := by
  induction bs with
  | nil => rfl
  | cons b bs ih =>
    rw [List.flatMap_cons]
    show (match unexpand _ _ _ _, unexpandAll (bs.flatMap expand) with
      | some b, some bs => some (b :: bs)
      | _, _ => none) = _
    rw [unexpand_expand, ih]

theorem expand_unexpand {e0 e1 e2 e3 b : Byte} (h : unexpand e0 e1 e2 e3 = some b) : expand b = [e0, e1, e2, e3] := by
  have pair : ∀ e : Byte, expandedOk e = true → expandPair (e.getLsbD 4) (e.getLsbD 0) = e := by decide
  unfold unexpand at h
  split at h
  · rename_i hok
    simp only [Bool.and_eq_true] at hok
    obtain ⟨⟨⟨h0, h1⟩, h2⟩, h3⟩ := hok
    obtain rfl : _ = b := by simpa using h
    rw [expand, ← pair e0 h0, ← pair e1 h1, ← pair e2 h2, ← pair e3 h3]
    generalize e0.getLsbD 4 = x0, e0.getLsbD 0 = y0, e1.getLsbD 4 = x1, e1.getLsbD 0 = y1
    generalize e2.getLsbD 4 = x2, e2.getLsbD 0 = y2, e3.getLsbD 4 = x3, e3.getLsbD 0 = y3
    revert x0 y0 x1 y1 x2 y2 x3 y3
    decide
  · cases h

/-- A narrow frame that decodes is the expansion of its logical bytes. -/
theorem expand_unexpandAll : ∀ {es bs : List Byte}, unexpandAll es = some bs → bs.flatMap expand = es
  | [], bs, h => by
    obtain rfl : [] = bs := by simpa [unexpandAll] using h
    rfl
  | [_], _, h => by simp [unexpandAll] at h
  | [_, _], _, h => by simp [unexpandAll] at h
  | [_, _, _], _, h => by simp [unexpandAll] at h
  | e0 :: e1 :: e2 :: e3 :: rest, bs, h => by
    rw [unexpandAll] at h
    split at h
    · rename_i b cs hb hcs
      obtain rfl : b :: cs = bs := by simpa using h
      rw [List.flatMap_cons, expand_unexpand hb, expand_unexpandAll hcs]
      rfl
    · cases h

end Sys2Proof.Machine
end

