-- ==== Sys2Proof/Laws/Chip.lean ====
section
/-!
SUPPORT. What the reference chip does with the frames the block sends, and what a write of it changes.
-/

namespace Sys2Proof.Machine

variable {cfg : Config}

/-- A wide write frame of a whole register is decoded as that register's write. -/
theorem decodeWide_write (h : cfg.wf = true) {r : Reg} {v : List Byte} (hv : v.length = regWidth r) :
    decodeWide cfg (wideFrame (writeByte (regAddr cfg r)) v) = .ok (.frameWideWrite (regAddr cfg r) v) := by
  simp [decodeWide, wideFrame, regOfAddr_regAddr h, hv]

/-- An observer reads a read's header and its response as that register's read (30_encoding.md R85). -/
theorem observeFrame_read (h : cfg.wf = true) {r : Reg} {d : List Byte} (hd : d.length = regWidth r) :
    observeFrame cfg .fourBitSerial (readByte (regAddr cfg r) :: d) = .ok (.frameWideRead (regAddr cfg r), d) := by
  simp [observeFrame, decodeFrame, decodeWide, regOfAddr_regAddr h, hd]

/-- A narrow write frame of a whole register is decoded as that register's write. -/
theorem decodeNarrow_write (h : cfg.wf = true) {r : Reg} {v : List Byte} (hv : v.length = regWidth r)
    (hn : v.length ≤ narrowMaxPayload) :
    decodeNarrow cfg (narrowFrame (writeByte (regAddr cfg r)) v) = .ok (.frameNarrowWrite (regAddr cfg r) v) := by
  unfold decodeNarrow narrowFrame
  rw [unexpandAll_expand]
  simp only [writeByte_bit7, addrOfByte_writeByte, regOfAddr_regAddr h]
  simp [hv, hv ▸ hn]

/-- The chip takes a wide write frame as the register's write. -/
theorem receive_wide (h : cfg.wf = true) {r : Reg} {v : List Byte} (hv : v.length = regWidth r) (trace : List Event)
    (chip : Chip) : chip.receive cfg trace .wide (wideFrame (writeByte (regAddr cfg r)) v) = chip.write r v := by
  simp [Chip.receive, wireWrites, decodeWide_write h hv, regOfAddr_regAddr h]

/-- The chip takes a narrow write frame as the register's write. -/
theorem receive_narrow (h : cfg.wf = true) {r : Reg} {v : List Byte} (hv : v.length = regWidth r)
    (hn : v.length ≤ narrowMaxPayload) (trace : List Event) (chip : Chip) :
    chip.receive cfg trace .narrow (narrowFrame (writeByte (regAddr cfg r)) v) = chip.write r v := by
  simp [Chip.receive, wireWrites, decodeNarrow_write h hv hn, regOfAddr_regAddr h]

/-- The record of a whole register at the head of a stream. -/
theorem takeRecord_record (h : cfg.wf = true) {r : Reg} {v : List Byte} (hv : v.length = regWidth r) (rest : List Byte) :
    takeRecord cfg (wideFrame (writeByte (regAddr cfg r)) v ++ rest) = some ((r, v), rest) := by
  simp [takeRecord, wideFrame, regOfAddr_regAddr h, ← hv]

/-- A single record is a stream of that one record. -/
theorem streamRecords_record (h : cfg.wf = true) {r : Reg} {v : List Byte} (hv : v.length = regWidth r) :
    streamRecords cfg (wideFrame (writeByte (regAddr cfg r)) v) = some [(r, v)] := by
  have hrec := takeRecord_record h hv []
  rw [List.append_nil] at hrec
  unfold streamRecords
  have hl : (wideFrame (writeByte (regAddr cfg r)) v).length = v.length + 1 := rfl
  rw [hl]
  unfold wideFrame at hrec ⊢
  simp only [takeRecords, hrec]
  cases v.length <;> rfl

/-- The chip takes a record in a stream as the register's write. -/
theorem receive_record (h : cfg.wf = true) {r : Reg} {v : List Byte} (hv : v.length = regWidth r) (trace : List Event)
    (chip : Chip) : chip.receive cfg trace .stream (wideFrame (writeByte (regAddr cfg r)) v) = chip.write r v := by
  simp [Chip.receive, wireWrites, streamRecords_record h hv]

/-! ## What a write changes of the contents in active use -/

theorem SameActive.refl (f : RegFile) : SameActive f f := ⟨rfl, rfl, rfl, rfl, rfl, rfl⟩

theorem SameActive.trans {f g h : RegFile} (a : SameActive f g) (b : SameActive g h) : SameActive f h :=
  ⟨b.mode.trans a.mode, b.fr1.trans a.fr1, b.one.trans a.one, b.two.trans a.two, b.three.trans a.three,
    b.four.trans a.four⟩

theorem enableChannels_low (w a : Byte) : enableChannels w a &&& 0x0F#8 = a &&& 0x0F#8 := by
  have bits : ∀ x y : Byte, (x &&& 0xF0#8 ||| y &&& 0x0F#8) &&& 0x0F#8 = y &&& 0x0F#8 := by
    intro x y
    ext i hi
    simp only [BitVec.getElem_and, BitVec.getElem_or]
    interval_cases i <;> simp
  exact bits w a

theorem sameActive_withWritten (chip : Chip) (f : RegFile) : SameActive chip.active (chip.withWritten f).active :=
  ⟨enableChannels_low _ _, rfl, rfl, rfl, rfl, rfl⟩

theorem sameActive_write (chip : Chip) (r : Reg) (v : List Byte) : SameActive chip.active (chip.write r v).active :=
  sameActive_withWritten _ _

/-- Whatever a write transaction delivers, only the channel enables of the active contents can change. -/
theorem sameActive_receive (cfg : Config) (trace : List Event) (form : WireForm) (bytes : List Byte) (chip : Chip) :
    SameActive chip.active (chip.receive cfg trace form bytes).active := by
  unfold Chip.receive
  split
  · rename_i ws h
    clear h
    induction ws generalizing chip with
    | nil => exact SameActive.refl _
    | cons w ws ih => exact (sameActive_write chip w.1 w.2).trans (ih _)
  · exact sameActive_withWritten _ _

/-! ## What a failed write leaves (20_memory.md R63; log 10) -/

theorem sameActive_deliver (g : RegFile) (n : Nat) (ws : List (Reg × List Byte)) (chip : Chip) :
    SameActive chip.active (chip.deliver g n ws).active := by
  induction ws generalizing n chip with
  | nil => exact SameActive.refl _
  | cons w ws ih =>
    unfold Chip.deliver
    split
    · exact (sameActive_write chip w.1 w.2).trans (ih _ _)
    · split
      · exact SameActive.refl _
      · exact sameActive_withWritten _ _

theorem sameActive_receivePart (cfg : Config) (trace : List Event) (form : WireForm) (bytes : List Byte) (chip : Chip) :
    SameActive chip.active (chip.receivePart cfg trace form bytes).active := by
  unfold Chip.receivePart
  split
  · exact sameActive_deliver _ _ _ _
  · exact sameActive_withWritten _ _

/-- Writing a register of a lane leaves the lane's other registers. -/
theorem readLane_writeLane_ne {q r : Reg} (h : q ≠ r) (v : List Byte) (l : LaneRegs) :
    readLane q (writeLane r v l) = readLane q l := by
  cases r <;> cases q <;> first | exact absurd rfl h | rfl

/-- A channel outside the set has its enable clear. -/
theorem channel_disabled {b : Byte} {ch : Channel} (h : channelFlag ch &&& csrChannels b = 0) :
    b.getLsbD (match ch with | .one => 4 | .two => 5 | .three => 6 | .four => 7) = false := by
  unfold csrChannels channelFlag at h
  cases ch
  · simpa [BitVec.getLsbD_extractLsb'] using congrArg (·.getLsbD 0) h
  · simpa [BitVec.getLsbD_extractLsb'] using congrArg (·.getLsbD 1) h
  · simpa [BitVec.getLsbD_extractLsb'] using congrArg (·.getLsbD 2) h
  · simpa [BitVec.getLsbD_extractLsb'] using congrArg (·.getLsbD 3) h

theorem spoilReg_csr {r : Reg} (h : r ≠ .csr) (g f : RegFile) : (spoilReg r g f).csr = f.csr := by
  cases r <;> first | exact absurd rfl h | rfl

theorem spoilReg_fr1 {r : Reg} (h : r ≠ .fr1) (g f : RegFile) : (spoilReg r g f).fr1 = f.fr1 := by
  cases r <;> first | exact absurd rfl h | rfl

theorem spoilReg_lane {r : Reg} (g f : RegFile) {ch : Channel} {q : Reg}
    (h : q ≠ r ∨ channelFlag ch &&& csrChannels f.csr = 0) :
    readLane q (laneOf (spoilReg r g f) ch) = readLane q (laneOf f ch) := by
  rcases h with h | h
  · cases r <;> cases ch <;> simp only [spoilReg, laneOf] <;>
      first | rfl | (split <;> first | exact readLane_writeLane_ne h _ _ | rfl)
  · have := channel_disabled h
    cases r <;> cases ch <;> simp_all [spoilReg, laneOf]

/-- A write keeps the lanes it does not reach and the registers it does not name. -/
theorem writeReg_lane (r : Reg) (v : List Byte) (f : RegFile) {ch : Channel} {q : Reg}
    (h : q ≠ r ∨ channelFlag ch &&& csrChannels f.csr = 0) :
    readLane q (laneOf (writeReg r v f) ch) = readLane q (laneOf f ch) := by
  rcases h with h | h
  · cases r <;> cases ch <;> simp only [writeReg, writeLanes, laneOf] <;>
      first | rfl | (split <;> first | exact readLane_writeLane_ne h _ _ | rfl)
  · have := channel_disabled h
    cases r <;> cases ch <;> simp_all [writeReg, writeLanes, laneOf]

/-- Nothing of the write arrived. -/
theorem LeftByFailedWrite.none (r : Reg) (v : List Byte) (chip : Chip) : LeftByFailedWrite r v chip chip :=
  ⟨fun _ => .inl rfl, fun _ => rfl, fun _ => rfl, fun _ _ _ => rfl, SameActive.refl _⟩

/-- The whole write arrived. -/
theorem LeftByFailedWrite.whole (r : Reg) (v : List Byte) (chip : Chip) : LeftByFailedWrite r v chip (chip.write r v) :=
  ⟨fun h => .inr (by rw [h]), by intro h; cases r <;> first | exact absurd rfl h | rfl,
    by intro h; cases r <;> first | exact absurd rfl h | rfl, fun _ _ h => writeReg_lane r v _ h, sameActive_write _ _ _⟩

/-- A failed transaction that is one register's write leaves at most that register changed; a write of CSR, which has one
payload byte, is made or it is not. -/
theorem leftBy_receivePart {r : Reg} {v bytes : List Byte} {form : WireForm} (h : wireWrites cfg form bytes = some [(r, v)])
    (hv : v.length = regWidth r) (trace : List Event) (chip : Chip) :
    LeftByFailedWrite r v chip (chip.receivePart cfg trace form bytes) := by
  unfold Chip.receivePart
  rw [h]
  simp only [Chip.deliver]
  split
  · exact LeftByFailedWrite.whole r v chip
  · split
    · exact LeftByFailedWrite.none r v chip
    · have hr : r ≠ .csr := by
        rintro rfl
        have : v.length = 1 := hv
        omega
      exact ⟨fun h => absurd h hr, fun h => spoilReg_csr h _ _, fun h => spoilReg_fr1 h _ _,
        fun _ _ h => spoilReg_lane _ _ h, sameActive_withWritten _ _⟩

theorem wireWrites_wide (h : cfg.wf = true) {r : Reg} {v : List Byte} (hv : v.length = regWidth r) :
    wireWrites cfg .wide (wideFrame (writeByte (regAddr cfg r)) v) = some [(r, v)] := by
  simp [wireWrites, decodeWide_write h hv, regOfAddr_regAddr h]

theorem wireWrites_narrow (h : cfg.wf = true) {r : Reg} {v : List Byte} (hv : v.length = regWidth r)
    (hn : v.length ≤ narrowMaxPayload) :
    wireWrites cfg .narrow (narrowFrame (writeByte (regAddr cfg r)) v) = some [(r, v)] := by
  simp [wireWrites, decodeNarrow_write h hv hn, regOfAddr_regAddr h]

theorem wireWrites_record (h : cfg.wf = true) {r : Reg} {v : List Byte} (hv : v.length = regWidth r) :
    wireWrites cfg .stream (wideFrame (writeByte (regAddr cfg r)) v) = some [(r, v)] := streamRecords_record h hv

end Sys2Proof.Machine
end

