-- ==== Sys2Proof/Laws/State.lean ====
section
/-!
SUPPORT. One lemma for each field of the state and each update of Machine/Ops.lean, true by rfl, so that no later proof
unfolds a record update.
-/

namespace Sys2Proof.Machine

variable (s : State)

@[simp] theorem State.emit_cfg (e : Event) : (s.emit e).cfg = s.cfg := rfl
@[simp] theorem State.emit_a (e : Event) : (s.emit e).a = s.a := rfl
@[simp] theorem State.emit_c (e : Event) : (s.emit e).c = s.c := rfl
@[simp] theorem State.emit_p (e : Event) : (s.emit e).p = s.p := rfl
@[simp] theorem State.emit_q (e : Event) : (s.emit e).q = s.q := rfl
@[simp] theorem State.emit_env (e : Event) : (s.emit e).env = s.env := rfl
@[simp] theorem State.emit_trace (e : Event) : (s.emit e).trace = s.trace ++ [e] := rfl
@[simp] theorem State.emit_results (e : Event) : (s.emit e).results = s.results := rfl
@[simp] theorem State.emit_inbox (e : Event) : (s.emit e).inbox = s.inbox := rfl

@[simp] theorem State.report_cfg (r : CmdResult) : (s.report r).cfg = s.cfg := rfl
@[simp] theorem State.report_a (r : CmdResult) : (s.report r).a = s.a := rfl
@[simp] theorem State.report_c (r : CmdResult) : (s.report r).c = s.c := rfl
@[simp] theorem State.report_p (r : CmdResult) : (s.report r).p = s.p := rfl
@[simp] theorem State.report_q (r : CmdResult) : (s.report r).q = s.q := rfl
@[simp] theorem State.report_env (r : CmdResult) : (s.report r).env = s.env := rfl
@[simp] theorem State.report_trace (r : CmdResult) : (s.report r).trace = s.trace := rfl
@[simp] theorem State.report_results (r : CmdResult) : (s.report r).results = s.results ++ [r] := rfl
@[simp] theorem State.report_inbox (r : CmdResult) : (s.report r).inbox = s.inbox := rfl

@[simp] theorem State.setAdapterMode_cfg (m : Mode) : (s.setAdapterMode m).cfg = s.cfg := rfl
@[simp] theorem State.setAdapterMode_a (m : Mode) : (s.setAdapterMode m).a = { s.a with mode := m } := rfl
@[simp] theorem State.setAdapterMode_c (m : Mode) : (s.setAdapterMode m).c = s.c := rfl
@[simp] theorem State.setAdapterMode_p (m : Mode) : (s.setAdapterMode m).p = s.p := rfl
@[simp] theorem State.setAdapterMode_q (m : Mode) : (s.setAdapterMode m).q = s.q := rfl
@[simp] theorem State.setAdapterMode_env (m : Mode) : (s.setAdapterMode m).env = s.env := rfl
@[simp] theorem State.setAdapterMode_trace (m : Mode) : (s.setAdapterMode m).trace = s.trace := rfl
@[simp] theorem State.setAdapterMode_results (m : Mode) : (s.setAdapterMode m).results = s.results := rfl
@[simp] theorem State.setAdapterMode_inbox (m : Mode) : (s.setAdapterMode m).inbox = s.inbox := rfl

@[simp] theorem State.setStreaming_cfg (b : Bool) : (s.setStreaming b).cfg = s.cfg := rfl
@[simp] theorem State.setStreaming_a (b : Bool) : (s.setStreaming b).a = { s.a with streaming := b } := rfl
@[simp] theorem State.setStreaming_c (b : Bool) : (s.setStreaming b).c = s.c := rfl
@[simp] theorem State.setStreaming_p (b : Bool) : (s.setStreaming b).p = s.p := rfl
@[simp] theorem State.setStreaming_q (b : Bool) : (s.setStreaming b).q = s.q := rfl
@[simp] theorem State.setStreaming_env (b : Bool) : (s.setStreaming b).env = s.env := rfl
@[simp] theorem State.setStreaming_trace (b : Bool) : (s.setStreaming b).trace = s.trace := rfl
@[simp] theorem State.setStreaming_results (b : Bool) : (s.setStreaming b).results = s.results := rfl
@[simp] theorem State.setStreaming_inbox (b : Bool) : (s.setStreaming b).inbox = s.inbox := rfl

@[simp] theorem State.setPhase_cfg (ph : Phase) : (s.setPhase ph).cfg = s.cfg := rfl
@[simp] theorem State.setPhase_a (ph : Phase) : (s.setPhase ph).a = s.a := rfl
@[simp] theorem State.setPhase_c (ph : Phase) : (s.setPhase ph).c = { s.c with phase := ph } := rfl
@[simp] theorem State.setPhase_p (ph : Phase) : (s.setPhase ph).p = s.p := rfl
@[simp] theorem State.setPhase_q (ph : Phase) : (s.setPhase ph).q = s.q := rfl
@[simp] theorem State.setPhase_env (ph : Phase) : (s.setPhase ph).env = s.env := rfl
@[simp] theorem State.setPhase_trace (ph : Phase) : (s.setPhase ph).trace = s.trace := rfl
@[simp] theorem State.setPhase_results (ph : Phase) : (s.setPhase ph).results = s.results := rfl
@[simp] theorem State.setPhase_inbox (ph : Phase) : (s.setPhase ph).inbox = s.inbox := rfl

@[simp] theorem State.setControllerMode_cfg (m : Mode) : (s.setControllerMode m).cfg = s.cfg := rfl
@[simp] theorem State.setControllerMode_a (m : Mode) : (s.setControllerMode m).a = s.a := rfl
@[simp] theorem State.setControllerMode_c (m : Mode) : (s.setControllerMode m).c = { s.c with mode := m } := rfl
@[simp] theorem State.setControllerMode_p (m : Mode) : (s.setControllerMode m).p = s.p := rfl
@[simp] theorem State.setControllerMode_q (m : Mode) : (s.setControllerMode m).q = s.q := rfl
@[simp] theorem State.setControllerMode_env (m : Mode) : (s.setControllerMode m).env = s.env := rfl
@[simp] theorem State.setControllerMode_trace (m : Mode) : (s.setControllerMode m).trace = s.trace := rfl
@[simp] theorem State.setControllerMode_results (m : Mode) : (s.setControllerMode m).results = s.results := rfl
@[simp] theorem State.setControllerMode_inbox (m : Mode) : (s.setControllerMode m).inbox = s.inbox := rfl

@[simp] theorem State.setClock_cfg (ref : Rat) (mult : Byte) : (s.setClock ref mult).cfg = s.cfg := rfl
@[simp] theorem State.setClock_a (ref : Rat) (mult : Byte) : (s.setClock ref mult).a = s.a := rfl
@[simp] theorem State.setClock_c (ref : Rat) (mult : Byte) : (s.setClock ref mult).c = { s.c with refHz := ref, mult := mult } := rfl
@[simp] theorem State.setClock_p (ref : Rat) (mult : Byte) : (s.setClock ref mult).p = s.p := rfl
@[simp] theorem State.setClock_q (ref : Rat) (mult : Byte) : (s.setClock ref mult).q = s.q := rfl
@[simp] theorem State.setClock_env (ref : Rat) (mult : Byte) : (s.setClock ref mult).env = s.env := rfl
@[simp] theorem State.setClock_trace (ref : Rat) (mult : Byte) : (s.setClock ref mult).trace = s.trace := rfl
@[simp] theorem State.setClock_results (ref : Rat) (mult : Byte) : (s.setClock ref mult).results = s.results := rfl
@[simp] theorem State.setClock_inbox (ref : Rat) (mult : Byte) : (s.setClock ref mult).inbox = s.inbox := rfl

@[simp] theorem State.setProfile_cfg (q : Profile) : (s.setProfile q).cfg = s.cfg := rfl
@[simp] theorem State.setProfile_a (q : Profile) : (s.setProfile q).a = s.a := rfl
@[simp] theorem State.setProfile_c (q : Profile) : (s.setProfile q).c = s.c := rfl
@[simp] theorem State.setProfile_p (q : Profile) : (s.setProfile q).p = s.p := rfl
@[simp] theorem State.setProfile_q (q : Profile) : (s.setProfile q).q = q := rfl
@[simp] theorem State.setProfile_env (q : Profile) : (s.setProfile q).env = s.env := rfl
@[simp] theorem State.setProfile_trace (q : Profile) : (s.setProfile q).trace = s.trace := rfl
@[simp] theorem State.setProfile_results (q : Profile) : (s.setProfile q).results = s.results := rfl
@[simp] theorem State.setProfile_inbox (q : Profile) : (s.setProfile q).inbox = s.inbox := rfl

@[simp] theorem State.setChip_cfg (chip : Chip) : (s.setChip chip).cfg = s.cfg := rfl
@[simp] theorem State.setChip_a (chip : Chip) : (s.setChip chip).a = s.a := rfl
@[simp] theorem State.setChip_c (chip : Chip) : (s.setChip chip).c = s.c := rfl
@[simp] theorem State.setChip_p (chip : Chip) : (s.setChip chip).p = s.p := rfl
@[simp] theorem State.setChip_q (chip : Chip) : (s.setChip chip).q = s.q := rfl
@[simp] theorem State.setChip_env (chip : Chip) : (s.setChip chip).env = { s.env with chip := chip } := rfl
@[simp] theorem State.setChip_trace (chip : Chip) : (s.setChip chip).trace = s.trace := rfl
@[simp] theorem State.setChip_results (chip : Chip) : (s.setChip chip).results = s.results := rfl
@[simp] theorem State.setChip_inbox (chip : Chip) : (s.setChip chip).inbox = s.inbox := rfl

@[simp] theorem State.setScript_cfg (ds : List Draw) : (s.setScript ds).cfg = s.cfg := rfl
@[simp] theorem State.setScript_a (ds : List Draw) : (s.setScript ds).a = s.a := rfl
@[simp] theorem State.setScript_c (ds : List Draw) : (s.setScript ds).c = s.c := rfl
@[simp] theorem State.setScript_p (ds : List Draw) : (s.setScript ds).p = s.p := rfl
@[simp] theorem State.setScript_q (ds : List Draw) : (s.setScript ds).q = s.q := rfl
@[simp] theorem State.setScript_env (ds : List Draw) : (s.setScript ds).env = { s.env with script := ds } := rfl
@[simp] theorem State.setScript_trace (ds : List Draw) : (s.setScript ds).trace = s.trace := rfl
@[simp] theorem State.setScript_results (ds : List Draw) : (s.setScript ds).results = s.results := rfl
@[simp] theorem State.setScript_inbox (ds : List Draw) : (s.setScript ds).inbox = s.inbox := rfl

@[simp] theorem State.setInbox_cfg (ps : List Packet) : (s.setInbox ps).cfg = s.cfg := rfl
@[simp] theorem State.setInbox_a (ps : List Packet) : (s.setInbox ps).a = s.a := rfl
@[simp] theorem State.setInbox_c (ps : List Packet) : (s.setInbox ps).c = s.c := rfl
@[simp] theorem State.setInbox_p (ps : List Packet) : (s.setInbox ps).p = s.p := rfl
@[simp] theorem State.setInbox_q (ps : List Packet) : (s.setInbox ps).q = s.q := rfl
@[simp] theorem State.setInbox_env (ps : List Packet) : (s.setInbox ps).env = s.env := rfl
@[simp] theorem State.setInbox_trace (ps : List Packet) : (s.setInbox ps).trace = s.trace := rfl
@[simp] theorem State.setInbox_results (ps : List Packet) : (s.setInbox ps).results = s.results := rfl
@[simp] theorem State.setInbox_inbox (ps : List Packet) : (s.setInbox ps).inbox = ps := rfl

@[simp] theorem State.drawn_cfg : (s.drawn).cfg = s.cfg := rfl
@[simp] theorem State.drawn_a : (s.drawn).a = s.a := rfl
@[simp] theorem State.drawn_c : (s.drawn).c = s.c := rfl
@[simp] theorem State.drawn_p : (s.drawn).p = s.p := rfl
@[simp] theorem State.drawn_q : (s.drawn).q = s.q := rfl
@[simp] theorem State.drawn_env : (s.drawn).env = { s.env with script := s.env.script.drop 1 } := rfl
@[simp] theorem State.drawn_trace : (s.drawn).trace = s.trace := rfl
@[simp] theorem State.drawn_results : (s.drawn).results = s.results := rfl
@[simp] theorem State.drawn_inbox : (s.drawn).inbox = s.inbox := rfl

@[simp] theorem State.setPin_cfg (line : Line) (level : Bool) : (s.setPin line level).cfg = s.cfg := by cases line <;> rfl
@[simp] theorem State.setPin_a (line : Line) (level : Bool) : (s.setPin line level).a = s.a := by cases line <;> rfl
@[simp] theorem State.setPin_c (line : Line) (level : Bool) : (s.setPin line level).c = s.c := by cases line <;> rfl
@[simp] theorem State.setPin_q (line : Line) (level : Bool) : (s.setPin line level).q = s.q := by cases line <;> rfl
@[simp] theorem State.setPin_env (line : Line) (level : Bool) : (s.setPin line level).env = s.env := by cases line <;> rfl
@[simp] theorem State.setPin_trace (line : Line) (level : Bool) : (s.setPin line level).trace = s.trace := by cases line <;> rfl
@[simp] theorem State.setPin_results (line : Line) (level : Bool) : (s.setPin line level).results = s.results := by cases line <;> rfl
@[simp] theorem State.setPin_inbox (line : Line) (level : Bool) : (s.setPin line level).inbox = s.inbox := by cases line <;> rfl

@[simp] theorem State.setPin_reset_p (level : Bool) : (s.setPin .reset level).p = { s.p with reset := level } := rfl
@[simp] theorem State.setPin_update_p (level : Bool) : (s.setPin .update level).p = { s.p with update := level } := rfl

/-! Updates of one field after another. -/

@[simp] theorem State.setPhase_setPhase (x y : Phase) : (s.setPhase x).setPhase y = s.setPhase y := rfl
@[simp] theorem State.setAdapterMode_setAdapterMode (x y : Mode) :
    (s.setAdapterMode x).setAdapterMode y = s.setAdapterMode y := rfl
@[simp] theorem State.setInbox_setInbox (x y : List Packet) : (s.setInbox x).setInbox y = s.setInbox y := rfl
@[simp] theorem State.setProfile_setProfile (x y : Profile) : (s.setProfile x).setProfile y = s.setProfile y := rfl

end Sys2Proof.Machine
end

