-- ==== Sys2Proof/Laws/Proc.lean ====
section
/-!
SUPPORT. How a procedure runs: one equation for each way to build one, the whole-run relation `Within` and its closure under
sequencing, and what the end of a command gives.
-/

namespace Sys2Proof.Machine

variable {α β : Type}

@[simp] theorem Proc.bind_run (x : Proc α) (f : α → Proc β) (s : State) :
    (x >>= f) s = match x s with
      | .ok v t => f v t
      | .error e t => .error e t := by
  show EStateM.bind x f s = _
  unfold EStateM.bind
  cases x s <;> rfl

@[simp] theorem Proc.map_run (f : α → β) (x : Proc α) (s : State) :
    (f <$> x) s = match x s with
      | .ok v t => .ok (f v) t
      | .error e t => .error e t := by
  show EStateM.map f x s = _
  unfold EStateM.map
  cases x s <;> rfl

@[simp] theorem Proc.pure_run (v : α) (s : State) : (pure v : Proc α) s = .ok v s := rfl

@[simp] theorem raise_run (e : Err) (s : State) : (raise e : Proc α) s = .error e s := rfl

@[simp] theorem change_run (f : State → State) (s : State) : change f s = .ok () (f s) := rfl

@[simp] theorem look_run (f : State → α) (s : State) : look f s = .ok (f s) s := rfl

@[simp] theorem delay_run (us : Nat) (s : State) : delay us s = .ok () (s.emit (.delay us)) := rfl

@[simp] theorem enter_run (ph : Phase) (s : State) : enter ph s = .ok () (s.setPhase ph) := rfl

@[simp] theorem orRaise_ok (v : α) (s : State) : orRaise (.ok v) s = .ok v s := rfl

@[simp] theorem orRaise_error (e : Err) (s : State) : (orRaise (.error e) : Proc α) s = .error e s := rfl

@[simp] theorem require_true (e : Err) (s : State) : require true e s = .ok () s := rfl

@[simp] theorem require_false (e : Err) (s : State) : require false e s = .error e s := rfl

@[simp] theorem finish_ok (v : Value) (s : State) : finish (.ok v s) = s.report (.ok v) := rfl

@[simp] theorem finish_error (e : Err) (s : State) : finish (.error e s) = s.report (.err e) := rfl

theorem complete_def (body : Proc Value) (s : State) : complete body s = .next (finish (body s)) := rfl

/-- A command whose whole body is one computation: its value or its error is the result. -/
theorem complete_orRaise {α : Type} (x : Except Err α) (f : α → Value) (s : State) :
    complete (do let v ← orRaise x; return f v) s =
      match x with
      | .ok v => .next (s.report (.ok (f v)))
      | .error e => .next (s.report (.err e)) := by
  cases x <;> simp [complete_def]

/-- A command that ends in a next state is its procedure's last state with one result reported. -/
theorem complete_eq_report (body : Proc Value) (s : State) :
    ∃ r, complete body s = .next ((endState (body s)).report r) := by
  unfold complete
  cases h : body s with
  | ok v t => exact ⟨.ok v, by simp [endState]⟩
  | error e t => exact ⟨.err e, by simp [endState]⟩

/-! ## Relations that hold of whole runs -/

/-- Sequencing keeps a reflexive and transitive relation. -/
theorem Within.bind {R : State → State → Prop} (trans : ∀ s t u, R s t → R t u → R s u) {x : Proc α} {f : α → Proc β}
    (hx : Within R x) (hf : ∀ v, Within R (f v)) : Within R (x >>= f) := by
  intro s
  have h := hx s
  rw [Proc.bind_run]
  cases hxs : x s with
  | ok v t =>
    rw [hxs] at h
    exact trans _ _ _ h (hf v t)
  | error e t =>
    rw [hxs] at h
    exact h

theorem Within.pure {R : State → State → Prop} (refl : ∀ s, R s s) (v : α) : Within R (Pure.pure v : Proc α) :=
  fun s => refl s

theorem Within.look {R : State → State → Prop} (refl : ∀ s, R s s) (f : State → α) : Within R (Machine.look f) :=
  fun s => refl s

theorem Within.raise {R : State → State → Prop} (refl : ∀ s, R s s) (e : Err) : Within R (Machine.raise e : Proc α) :=
  fun s => refl s

theorem Within.require {R : State → State → Prop} (refl : ∀ s, R s s) (b : Bool) (e : Err) :
    Within R (Machine.require b e) := by
  intro s
  cases b <;> exact refl s

theorem Within.orRaise {R : State → State → Prop} (refl : ∀ s, R s s) (x : Except Err α) :
    Within R (Machine.orRaise x) := by
  intro s
  cases x <;> exact refl s

theorem Within.mono {R Q : State → State → Prop} (h : ∀ s t, R s t → Q s t) {x : Proc α} (hx : Within R x) : Within Q x :=
  fun s => h _ _ (hx s)

/-! ## Runs that end well, and the errors of a procedure -/

/-- A sequence ends with a value exactly when both of its parts do. -/
theorem Proc.bind_eq_ok {x : Proc α} {f : α → Proc β} {s t : State} {w : β} :
    (x >>= f) s = .ok w t ↔ ∃ v u, x s = .ok v u ∧ f v u = .ok w t := by
  rw [Proc.bind_run]
  cases x s <;> simp

theorem Proc.bind_of_ok {x : Proc α} {f : α → Proc β} {s t : State} {v : α} (h : x s = .ok v t) : (x >>= f) s = f v t := by
  rw [Proc.bind_run, h]

theorem Proc.bind_of_error {x : Proc α} {f : α → Proc β} {s t : State} {e : Err} (h : x s = .error e t) :
    (x >>= f) s = .error e t := by
  rw [Proc.bind_run, h]

/-- Every error a procedure can end with has the property. -/
def Raises (P : Err → Prop) (x : Proc α) : Prop := ∀ s e t, x s = .error e t → P e

theorem Raises.bind {P : Err → Prop} {x : Proc α} {f : α → Proc β} (hx : Raises P x) (hf : ∀ v, Raises P (f v)) :
    Raises P (x >>= f) := by
  intro s e t h
  rw [Proc.bind_run] at h
  cases hxs : x s with
  | ok v u =>
    rw [hxs] at h
    exact hf v u e t h
  | error e' u =>
    rw [hxs] at h
    cases h
    exact hx _ _ _ hxs

theorem Raises.pure {P : Err → Prop} (v : α) : Raises P (Pure.pure v : Proc α) := fun _ _ _ h => nomatch h

theorem Raises.look {P : Err → Prop} (f : State → α) : Raises P (Machine.look f) := fun _ _ _ h => nomatch h

theorem Raises.change {P : Err → Prop} (f : State → State) : Raises P (Machine.change f) := fun _ _ _ h => nomatch h

theorem Raises.orRaise {P : Err → Prop} {x : Except Err α} (h : ∀ e, x = .error e → P e) :
    Raises P (Machine.orRaise x) := by
  intro s e t hx
  cases x with
  | ok v => cases hx
  | error e' =>
    cases hx
    exact h _ rfl

theorem Raises.require {P : Err → Prop} (b : Bool) {e : Err} (h : P e) : Raises P (Machine.require b e) := by
  intro s e' t hx
  cases b <;> cases hx
  exact h

theorem Raises.mono {P Q : Err → Prop} (h : ∀ e, P e → Q e) {x : Proc α} (hx : Raises P x) : Raises Q x :=
  fun s e t hs => h e (hx s e t hs)

end Sys2Proof.Machine
end

