-- ==== Sys2Proof/Laws/Ops.lean ====
section
/-!
SUPPORT. What the shared operations do: the four primitives, the adapter's checks and the controller's register accesses,
each with one lemma for the run that succeeds and one for everything a run can change.
-/

namespace Sys2Proof.Machine

variable {s : State}

/-! ## The state after some events -/

@[simp] theorem State.after_cfg (k : Nat) (chip : Chip) (es : List Event) : (s.after k chip es).cfg = s.cfg := rfl
@[simp] theorem State.after_a (k : Nat) (chip : Chip) (es : List Event) : (s.after k chip es).a = s.a := rfl
@[simp] theorem State.after_c (k : Nat) (chip : Chip) (es : List Event) : (s.after k chip es).c = s.c := rfl
@[simp] theorem State.after_p (k : Nat) (chip : Chip) (es : List Event) : (s.after k chip es).p = s.p := rfl
@[simp] theorem State.after_q (k : Nat) (chip : Chip) (es : List Event) : (s.after k chip es).q = s.q := rfl
@[simp] theorem State.after_chip (k : Nat) (chip : Chip) (es : List Event) : (s.after k chip es).env.chip = chip := rfl
@[simp] theorem State.after_trace (k : Nat) (chip : Chip) (es : List Event) :
    (s.after k chip es).trace = s.trace ++ es := rfl
@[simp] theorem State.after_results (k : Nat) (chip : Chip) (es : List Event) :
    (s.after k chip es).results = s.results := rfl
@[simp] theorem State.after_inbox (k : Nat) (chip : Chip) (es : List Event) : (s.after k chip es).inbox = s.inbox := rfl

@[simp] theorem State.after_after (k j : Nat) (chip chip' : Chip) (es fs : List Event) :
    (s.after k chip es).after j chip' fs = s.after (k + j) chip' (es ++ fs) := by
  simp [State.after, State.envAfter, List.drop_drop, List.append_assoc]

@[simp] theorem State.after_drawAt (k j : Nat) (chip : Chip) (es trace : List Event) :
    (s.after k chip es).drawAt j trace = s.drawAt (k + j) trace := by
  simp [State.after, State.envAfter, State.drawAt, List.drop_drop]

@[simp] theorem State.after_systemHz (k : Nat) (chip : Chip) (es : List Event) :
    (s.after k chip es).systemHz = s.systemHz := rfl

@[simp] theorem State.envAfter_chip (k : Nat) (chip : Chip) : (s.envAfter k chip).chip = chip := rfl

theorem State.Wide.after (h : s.Wide) (k : Nat) (chip : Chip) (es : List Event) : (s.after k chip es).Wide :=
  ⟨h.mode, h.streaming⟩

/-! ## The primitives -/

theorem busWrite_fail (form : WireForm) (bytes : List Byte) (h : s.drawAt 0 s.trace = .fail) :
    busWrite form bytes s =
      .error .aBus (s.after 1 (s.env.chip.receivePart s.cfg s.trace form bytes) [.write bytes false]) := by
  unfold busWrite State.draw
  rw [if_pos h]
  rfl

theorem busWrite_ok (form : WireForm) (bytes : List Byte) (h : s.drawAt 0 s.trace ≠ .fail) :
    busWrite form bytes s =
      .ok () (s.after 1 (s.env.chip.receive s.cfg s.trace form bytes) [.write bytes true]) := by
  unfold busWrite State.draw
  rw [if_neg h]
  rfl

theorem busRead_some {header : Byte} {n : Nat} {d : List Byte}
    (h : answerOf s.cfg s.trace s.env.chip (s.drawAt 0 s.trace) header n = some d) :
    busRead header n s = .ok d (s.after 1 s.env.chip [.read header n (some d)]) := by
  unfold busRead State.readAnswer State.draw
  rw [h]
  rfl

theorem busRead_none {header : Byte} {n : Nat}
    (h : answerOf s.cfg s.trace s.env.chip (s.drawAt 0 s.trace) header n = none) :
    busRead header n s = .error .aBus (s.after 1 s.env.chip [.read header n none]) := by
  unfold busRead State.readAnswer State.draw
  rw [h]
  rfl

/-- A read fails exactly when the oracle fails it. -/
theorem answerOf_eq_none {cfg : Config} {trace : List Event} {chip : Chip} {d : Draw} {header : Byte} {n : Nat} :
    answerOf cfg trace chip d header n = none ↔ d = .fail := by
  cases d <;> simp [answerOf]

/-- The reference chip answers a register read with the register's width (20_memory.md R64). -/
theorem readReg_length {r : Reg} {f : RegFile} {d : List Byte} (h : readReg r f = some d) : d.length = regWidth r := by
  cases r <;> simp only [readReg, Option.some.injEq, Option.map_eq_some_iff] at h
  case csr => rw [← h, beBytes_length]; rfl
  case fr1 => rw [← h, beBytes_length]; rfl
  all_goals
    obtain ⟨ch, -, rfl⟩ := h
    simp [readLane, regWidth]

/-- An answered register read has the register's width (20_memory.md R52). -/
theorem Answers.length {k : Nat} {trace : List Event} {chip : Chip} {r : Reg} {d : List Byte} (hcfg : s.cfg.wf = true)
    (h : Answers s k trace chip r d) : d.length = regWidth r := by
  unfold Answers answerOf at h
  split at h
  · cases h
  · obtain rfl : _ = d := by simpa using h
    unfold Chip.answer
    rw [addrOfByte_readByte, regOfAddr_regAddr hcfg, Option.bind_some]
    split
    · rename_i d hd
      exact readReg_length hd
    · simp
  · obtain rfl : _ = d := by simpa using h
    simp

/-! ## Under the echo oracle (20_memory.md R64) -/

theorem drawAt_echo (h : s.env.script = []) (he : s.env.rest = .echo) (k : Nat) (trace : List Event) :
    s.drawAt k trace = .echo := by
  simp [State.drawAt, h, he]

/-- The echo oracle accepts every event. -/
theorem acceptsAll_echo (h : s.env.script = []) (he : s.env.rest = .echo) :
    ∀ (es : List Event) (k : Nat) (trace : List Event), AcceptsAll s k trace es := by
  intro es
  induction es with
  | nil => intros; trivial
  | cons e es ih =>
    intro k trace
    cases e <;> simp [AcceptsAll, drawAt_echo h he, ih]

/-- An echo draw answers a register read from the chip's written contents. -/
theorem answers_of_echo (hcfg : s.cfg.wf = true) {k : Nat} {trace : List Event} (hd : s.drawAt k trace = .echo)
    {chip : Chip} {r : Reg} {d : List Byte} (hr : readReg r chip.written = some d) : Answers s k trace chip r d := by
  unfold Answers
  rw [hd]
  simp [answerOf, Chip.answer, regOfAddr_regAddr hcfg, hr]

/-- The echo oracle answers a register read from the chip's written contents. -/
theorem answers_echo (hcfg : s.cfg.wf = true) (h : s.env.script = []) (he : s.env.rest = .echo) {k : Nat}
    {trace : List Event} {chip : Chip} {r : Reg} {d : List Byte} (hr : readReg r chip.written = some d) :
    Answers s k trace chip r d := answers_of_echo hcfg (drawAt_echo h he k trace) hr

theorem pinSet_fail (line : Line) (level : Bool) (h : s.drawAt 0 s.trace = .fail) :
    pinSet line level s = .error .pin (s.after 1 s.env.chip [.pin line level false]) := by
  unfold pinSet State.draw
  rw [if_pos h]
  rfl

theorem pinSet_ok (line : Line) (level : Bool) (h : s.drawAt 0 s.trace ≠ .fail) :
    pinSet line level s = .ok () ((s.after 1 (s.chipAfterPin line level) [.pin line level true]).setPin line level) := by
  unfold pinSet State.draw
  rw [if_neg h]
  rfl

/-! ## The adapter's checks -/

theorem narrowGate_reg {cfg : Config} {r : Reg} {v : List Byte} (hv : v.length = regWidth r)
    (hn : v.length ≤ narrowMaxPayload) : narrowGate cfg (writeByte (regAddr cfg r)) v =
      .pass (.narrow, narrowFrame (writeByte (regAddr cfg r)) v) := by
  unfold narrowGate
  rw [if_neg (by omega), hv, wellFormedTxn_reg, if_pos rfl]

theorem wideGate_reg {cfg : Config} {r : Reg} {v : List Byte} (hv : v.length = regWidth r) :
    wideGate cfg false (writeByte (regAddr cfg r)) v = .pass (.wide, wideFrame (writeByte (regAddr cfg r)) v) := by
  simp [wideGate, hv]

/-- The wide write of a whole register passes the adapter. -/
theorem writeGate_wide {r : Reg} {v : List Byte} (h : s.Wide) (hv : v.length = regWidth r) :
    writeGate s (writeByte (regAddr s.cfg r)) v = .pass (.wide, wideFrame (writeByte (regAddr s.cfg r)) v) := by
  simp [writeGate, h.mode, h.streaming, wideGate_reg hv]

/-- The narrow write of a whole register of at most two bytes passes the adapter. -/
theorem writeGate_narrow {r : Reg} {v : List Byte} (h : s.a.mode = .singleBitTwoWire) (hv : v.length = regWidth r)
    (hn : v.length ≤ narrowMaxPayload) :
    writeGate s (writeByte (regAddr s.cfg r)) v = .pass (.narrow, narrowFrame (writeByte (regAddr s.cfg r)) v) := by
  simp [writeGate, h, narrowGate_reg hv hn]

/-- The wide read of a whole register passes the adapter. -/
theorem readGate_wide {r : Reg} (h : s.Wide) :
    readGate s (writeByte (regAddr s.cfg r)) (regWidth r) = .pass (readByte (regAddr s.cfg r)) := by
  simp [readGate, h.mode, h.streaming, wideReadGate]

/-- A write of a whole register is never refused: it is sent or raises an adapter error (20_memory.md R52). -/
theorem ctlWrite_gate_ne_refuse {r : Reg} {v : List Byte} (hv : v.length = regWidth r) (ref : Refusal) :
    writeGate s (writeByte (regAddr s.cfg r)) v ≠ .refuse ref := by
  unfold writeGate narrowGate wideGate
  rw [hv]
  cases s.a.mode <;> simp <;> split <;> simp

/-- A read of a whole register is never refused (20_memory.md R52). -/
theorem ctlRead_gate_ne_refuse {r : Reg} (ref : Refusal) :
    readGate s (writeByte (regAddr s.cfg r)) (regWidth r) ≠ .refuse ref := by
  unfold readGate wideReadGate
  cases s.a.mode <;> simp
  split <;> simp

/-! ## The controller's register accesses -/

/-- An accepted write in the wide mode. -/
theorem ctlWrite_wide {r : Reg} {v : List Byte} (hcfg : s.cfg.wf = true) (h : s.Wide) (hv : v.length = regWidth r)
    (hd : s.drawAt 0 s.trace ≠ .fail) :
    ctlWrite r v s = .ok () (s.after 1 (s.env.chip.write r v) [wideW s.cfg r v]) := by
  unfold ctlWrite
  rw [writeGate_wide h hv]
  simp only [asInterface]
  rw [busWrite_ok _ _ hd, receive_wide hcfg hv]
  rfl

/-- An accepted write in the narrow mode. -/
theorem ctlWrite_narrow {r : Reg} {v : List Byte} (hcfg : s.cfg.wf = true) (h : s.a.mode = .singleBitTwoWire)
    (hv : v.length = regWidth r) (hn : v.length ≤ narrowMaxPayload) (hd : s.drawAt 0 s.trace ≠ .fail) :
    ctlWrite r v s =
      .ok () (s.after 1 (s.env.chip.write r v) [.write (narrowFrame (writeByte (regAddr s.cfg r)) v) true]) := by
  unfold ctlWrite
  rw [writeGate_narrow h hv hn]
  simp only [asInterface]
  rw [busWrite_ok _ _ hd, receive_narrow hcfg hv hn]

/-- A failed write in the wide mode. -/
theorem ctlWrite_wide_fail {r : Reg} {v : List Byte} (hcfg : s.cfg.wf = true) (h : s.Wide) (hv : v.length = regWidth r)
    (hd : s.drawAt 0 s.trace = .fail) :
    ∃ chip, LeftByFailedWrite r v s.env.chip chip ∧
      ctlWrite r v s = .error .interface (s.after 1 chip [.write (writeByte (regAddr s.cfg r) :: v) false]) := by
  refine ⟨_, leftBy_receivePart (wireWrites_wide hcfg hv) hv s.trace _, ?_⟩
  unfold ctlWrite
  rw [writeGate_wide h hv]
  simp only [asInterface]
  rw [busWrite_fail _ _ hd]
  rfl

/-- A failed read in the wide mode. -/
theorem ctlRead_wide_fail {r : Reg} (h : s.Wide) (hd : s.drawAt 0 s.trace = .fail) :
    ctlRead r s =
      .error .interface (s.after 1 s.env.chip [.read (readByte (regAddr s.cfg r)) (regWidth r) none]) := by
  unfold ctlRead
  rw [readGate_wide h]
  simp only [asInterface]
  rw [busRead_none (answerOf_eq_none.mpr hd)]

/-- An answered read in the wide mode. -/
theorem ctlRead_wide {r : Reg} {d : List Byte} (h : s.Wide) (ha : Answers s 0 s.trace s.env.chip r d) :
    ctlRead r s = .ok d (s.after 1 s.env.chip [readR s.cfg r d]) := by
  unfold ctlRead
  rw [readGate_wide h]
  simp only [asInterface]
  rw [busRead_some ha]
  rfl

/-! The same accesses after some draws and events. -/

theorem State.after_zero (s : State) : s.after 0 s.env.chip [] = s := by
  simp [State.after, State.envAfter]

section After

variable {k : Nat} {chip : Chip} {es : List Event} {r : Reg} {v d : List Byte}

theorem ctlWrite_after (hcfg : s.cfg.wf = true) (h : s.Wide) (hv : v.length = regWidth r)
    (hd : s.drawAt k (s.trace ++ es) ≠ .fail) :
    ctlWrite r v (s.after k chip es) = .ok () (s.after (k + 1) (chip.write r v) (es ++ [wideW s.cfg r v])) := by
  rw [ctlWrite_wide (s := s.after k chip es) hcfg (h.after _ _ _) hv (by rw [State.after_drawAt]; exact hd)]
  simp

theorem ctlWrite_after_fail (hcfg : s.cfg.wf = true) (h : s.Wide) (hv : v.length = regWidth r)
    (hd : s.drawAt k (s.trace ++ es) = .fail) :
    ∃ chip', LeftByFailedWrite r v chip chip' ∧ ctlWrite r v (s.after k chip es) =
      .error .interface (s.after (k + 1) chip' (es ++ [.write (writeByte (regAddr s.cfg r) :: v) false])) := by
  obtain ⟨chip', hl, he⟩ :=
    ctlWrite_wide_fail (s := s.after k chip es) hcfg (h.after _ _ _) hv (by rw [State.after_drawAt]; exact hd)
  exact ⟨chip', hl, by rw [he]; simp⟩

theorem ctlRead_after (h : s.Wide) (ha : Answers s k (s.trace ++ es) chip r d) :
    ctlRead r (s.after k chip es) = .ok d (s.after (k + 1) chip (es ++ [readR s.cfg r d])) := by
  rw [ctlRead_wide (s := s.after k chip es) (h.after _ _ _) (by unfold Answers; rw [State.after_drawAt]; exact ha)]
  simp

theorem ctlRead_after_fail (h : s.Wide) (hd : s.drawAt k (s.trace ++ es) = .fail) :
    ctlRead r (s.after k chip es) = .error .interface
      (s.after (k + 1) chip (es ++ [.read (readByte (regAddr s.cfg r)) (regWidth r) none])) := by
  rw [ctlRead_wide_fail (s := s.after k chip es) (h.after _ _ _) (by rw [State.after_drawAt]; exact hd)]
  simp

end After

/-- Any failure of a register write is Interface. -/
theorem ctlWrite_error {r : Reg} {v : List Byte} {e : Err} {t : State} (h : ctlWrite r v s = .error e t) :
    e = .interface := by
  unfold ctlWrite asInterface at h
  split at h
  · split at h <;> cases h
    rfl
  · cases h
    rfl
  · cases h
    rfl

/-- Any failure of a register read is Interface. -/
theorem ctlRead_error {r : Reg} {e : Err} {t : State} (h : ctlRead r s = .error e t) : e = .interface := by
  unfold ctlRead asInterface at h
  split at h
  · split at h <;> cases h
    rfl
  · cases h
    rfl
  · cases h
    rfl

/-! ## Everything a bus procedure can change -/

theorem BusOnly.refl (s : State) : BusOnly s s :=
  ⟨rfl, rfl, rfl, rfl, rfl, rfl, rfl, ⟨[], by simp⟩, SameActive.refl _⟩

theorem BusOnly.trans (s t u : State) (h : BusOnly s t) (k : BusOnly t u) : BusOnly s u := by
  obtain ⟨es, hes, hb⟩ := h.trace
  obtain ⟨fs, hfs, kb⟩ := k.trace
  exact ⟨k.cfg.trans h.cfg, k.a.trans h.a, k.c.trans h.c, k.p.trans h.p, k.q.trans h.q, k.results.trans h.results,
    k.inbox.trans h.inbox, ⟨es ++ fs, by rw [hfs, hes, List.append_assoc], by rw [List.all_append, hb, kb]; rfl⟩,
    h.active.trans k.active⟩

theorem busOnly_after {k : Nat} {chip : Chip} {es : List Event} (he : es.all Event.isBus = true)
    (hc : SameActive s.env.chip.active chip.active) : BusOnly s (s.after k chip es) :=
  ⟨rfl, rfl, rfl, rfl, rfl, rfl, rfl, ⟨es, rfl, he⟩, hc⟩

theorem within_busWrite (form : WireForm) (bytes : List Byte) : Within BusOnly (busWrite form bytes) := by
  intro s
  by_cases h : s.drawAt 0 s.trace = .fail
  · rw [busWrite_fail form bytes h]
    exact busOnly_after rfl (sameActive_receivePart _ _ _ _ _)
  · rw [busWrite_ok form bytes h]
    exact busOnly_after rfl (sameActive_receive _ _ _ _ _)

theorem within_busRead (header : Byte) (n : Nat) : Within BusOnly (busRead header n) := by
  intro s
  cases h : answerOf s.cfg s.trace s.env.chip (s.drawAt 0 s.trace) header n with
  | none =>
    rw [busRead_none h]
    exact busOnly_after rfl (SameActive.refl _)
  | some d =>
    rw [busRead_some h]
    exact busOnly_after rfl (SameActive.refl _)

theorem Within.asInterface {α : Type} {R : State → State → Prop} {body : Proc α} (h : Within R body) :
    Within R (asInterface body) := by
  intro s
  have := h s
  unfold Machine.asInterface
  cases hb : body s <;> rw [hb] at this <;> exact this

theorem within_ctlWrite (r : Reg) (v : List Byte) : Within BusOnly (ctlWrite r v) := by
  intro s
  unfold ctlWrite
  split
  · exact (within_busWrite _ _).asInterface s
  · exact BusOnly.refl s
  · exact BusOnly.refl s

theorem within_ctlRead (r : Reg) : Within BusOnly (ctlRead r) := by
  intro s
  unfold ctlRead
  split
  · exact (within_busRead _ _).asInterface s
  · exact BusOnly.refl s
  · exact BusOnly.refl s

/-! ## What a successful access says -/

theorem raises_ctlWrite (r : Reg) (v : List Byte) : Raises (· = .interface) (ctlWrite r v) :=
  fun _ _ _ h => ctlWrite_error h

theorem raises_ctlRead (r : Reg) : Raises (· = .interface) (ctlRead r) := fun _ _ _ h => ctlRead_error h

theorem raises_pinSet (line : Line) (level : Bool) : Raises (· = .pin) (pinSet line level) := by
  intro s e t h
  by_cases hd : s.drawAt 0 s.trace = .fail
  · rw [pinSet_fail line level hd] at h
    cases h
    rfl
  · rw [pinSet_ok line level hd] at h
    cases h

/-- A pin change that succeeds leaves the line at the level. -/
theorem pinSet_eq_ok {line : Line} {level : Bool} {t : State} (h : pinSet line level s = .ok () t) :
    t = (s.after 1 (s.chipAfterPin line level) [.pin line level true]).setPin line level := by
  by_cases hd : s.drawAt 0 s.trace = .fail
  · rw [pinSet_fail line level hd] at h
    cases h
  · rw [pinSet_ok line level hd] at h
    cases h
    rfl

/-- A read that succeeds was made in the wide mode. -/
theorem ctlRead_eq_ok {r : Reg} {d : List Byte} {t : State} (h : ctlRead r s = .ok d t) :
    s.a.mode = .fourBitSerial ∧ BusOnly s t := by
  refine ⟨?_, ?_⟩
  · cases hm : s.a.mode with
    | fourBitSerial => rfl
    | singleBitTwoWire => simp [ctlRead, readGate, hm] at h
    | singleBitThreeWire => simp [ctlRead, readGate, hm] at h
    | twoBitSerial => simp [ctlRead, readGate, hm] at h
  · have := within_ctlRead r s
    rw [h] at this
    exact this

/-- A write in the wide mode that succeeds was made with no stream. -/
theorem ctlWrite_eq_ok {r : Reg} {v : List Byte} {t : State} (h : ctlWrite r v s = .ok () t) :
    (s.a.mode = .fourBitSerial → s.a.streaming = false) ∧ BusOnly s t := by
  refine ⟨fun hm => ?_, ?_⟩
  · cases hs : s.a.streaming with
    | false => rfl
    | true => simp [ctlWrite, writeGate, wideGate, hm, hs] at h
  · have := within_ctlWrite r v s
    rw [h] at this
    exact this

end Sys2Proof.Machine
end

