-- ==== Sys2Proof/Laws/Controller.lean ====
section
/-!
SUPPORT. What the controller's procedures do: the run of each that the oracle accepts, and everything a run can change.
-/

namespace Sys2Proof.Machine

variable {s : State}

/-! ## The multiplex procedures -/

/-- MODIFY_CHANNEL, both writes accepted. -/
theorem modifyChannel_wide {cs : ChSet} {r : Reg} {v : List Byte} (hcfg : s.cfg.wf = true) (h : s.Wide)
    (hv : v.length = regWidth r)
    (ha : AcceptsAll s 0 s.trace [wideW s.cfg .csr [csrByte s.cfg s.c.mode cs], wideW s.cfg r v]) :
    modifyChannel cs r v s =
      .ok () (s.after 2 ((s.env.chip.write .csr [csrByte s.cfg s.c.mode cs]).write r v)
        [wideW s.cfg .csr [csrByte s.cfg s.c.mode cs], wideW s.cfg r v]) := by
  obtain ⟨h0, h1, -⟩ := ha
  simp only [modifyChannel, csrFor, Proc.bind_run, look_run]
  rw [ctlWrite_wide hcfg h rfl h0]
  simp only
  rw [ctlWrite_wide (s := s.after 1 _ _) hcfg (h.after _ _ _) hv (by rw [State.after_drawAt]; exact h1)]
  simp

/-- The CSR read, answered with one byte. -/
theorem readCsr_wide {b : Byte} (h : s.Wide) (ha : Answers s 0 s.trace s.env.chip .csr [b]) :
    readCsr s = .ok b (s.after 1 s.env.chip [readR s.cfg .csr [b]]) := by
  simp [readCsr, ctlRead_wide h ha]

theorem readCsr_after {k : Nat} {chip : Chip} {es : List Event} {b : Byte} (h : s.Wide)
    (ha : Answers s k (s.trace ++ es) chip .csr [b]) :
    readCsr (s.after k chip es) = .ok b (s.after (k + 1) chip (es ++ [readR s.cfg .csr [b]])) := by
  simp [readCsr, ctlRead_after h ha]

theorem readCsr_after_fail {k : Nat} {chip : Chip} {es : List Event} (h : s.Wide)
    (hd : s.drawAt k (s.trace ++ es) = .fail) :
    readCsr (s.after k chip es) = .error .interface
      (s.after (k + 1) chip (es ++ [.read (readByte (regAddr s.cfg .csr)) 1 none])) := by
  simp [readCsr, ctlRead_after_fail h hd, regWidth]

/-- The restore, accepted. -/
theorem restoreCsr_after {k : Nat} {chip : Chip} {es : List Event} {saved : Byte} (hcfg : s.cfg.wf = true) (h : s.Wide)
    (hd : s.drawAt k (s.trace ++ es) ≠ .fail) :
    restoreCsr saved (s.after k chip es) =
      .ok () (s.after (k + 1) (chip.write .csr [saved]) (es ++ [wideW s.cfg .csr [saved]])) := by
  unfold restoreCsr
  rw [ctlWrite_after hcfg h rfl hd]

/-- The restore, failed: the chip is as it was. -/
theorem restoreCsr_after_fail {k : Nat} {chip : Chip} {es : List Event} {saved : Byte} (hcfg : s.cfg.wf = true)
    (h : s.Wide) (hd : s.drawAt k (s.trace ++ es) = .fail) :
    restoreCsr saved (s.after k chip es) = .error .interface
      (s.after (k + 1) chip (es ++ [.write [writeByte (regAddr s.cfg .csr), saved] false])) := by
  obtain ⟨chip', -, he⟩ := ctlWrite_after_fail (chip := chip) (r := .csr) (v := [saved]) hcfg h rfl hd
  unfold restoreCsr
  rw [he]
  rfl

/-- READ_CHANNEL, all four transactions accepted. -/
theorem readChannel_wide {ch : Channel} {r : Reg} {saved : Byte} {d : List Byte} (hcfg : s.cfg.wf = true) (h : s.Wide)
    (h0 : Answers s 0 s.trace s.env.chip .csr [saved])
    (h1 : s.drawAt 1 (s.trace ++ [readR s.cfg .csr [saved]]) ≠ .fail)
    (h2 : Answers s 2
      (s.trace ++ [readR s.cfg .csr [saved], wideW s.cfg .csr [csrByte s.cfg s.c.mode (channelFlag ch)]])
      (s.env.chip.write .csr [csrByte s.cfg s.c.mode (channelFlag ch)]) r d)
    (h3 : s.drawAt 3
      (s.trace ++ [readR s.cfg .csr [saved], wideW s.cfg .csr [csrByte s.cfg s.c.mode (channelFlag ch)], readR s.cfg r d])
      ≠ .fail) :
    readChannel ch r s =
      .ok d (s.after 4 ((s.env.chip.write .csr [csrByte s.cfg s.c.mode (channelFlag ch)]).write .csr [saved])
        [readR s.cfg .csr [saved], wideW s.cfg .csr [csrByte s.cfg s.c.mode (channelFlag ch)], readR s.cfg r d,
          wideW s.cfg .csr [saved]]) := by
  simp only [readChannel, csrFor, Proc.bind_run, look_run]
  rw [readCsr_wide h h0]
  simp only
  rw [ctlWrite_wide (s := s.after 1 _ _) hcfg (h.after _ _ _) rfl (by rw [State.after_drawAt]; exact h1)]
  simp only [State.after_after, State.after_chip, State.after_cfg, State.after_c, List.cons_append, List.nil_append]
  rw [ctlRead_wide (s := s.after _ _ _) (h.after _ _ _) (by unfold Answers; rw [State.after_drawAt]; exact h2)]
  simp only [State.after_after, State.after_chip, State.after_cfg, List.cons_append, List.nil_append]
  rw [restoreCsr_after hcfg h h3]
  simp

/-! ## The multiplex procedures, where one of their transactions fails -/

section Fails

variable {cs : ChSet} {ch : Channel} {r : Reg} {v d : List Byte} {saved : Byte}

/-- The write that selects the channels fails. -/
theorem modifyChannel_select_fail (hcfg : s.cfg.wf = true) (h : s.Wide) (hd : s.drawAt 0 (s.trace ++ []) = .fail) :
    ∃ chip, LeftByFailedWrite .csr [csrByte s.cfg s.c.mode cs] s.env.chip chip ∧
      modifyChannel cs r v s = .error .interface
        (s.after 1 chip [.write (writeByte (regAddr s.cfg .csr) :: [csrByte s.cfg s.c.mode cs]) false]) := by
  obtain ⟨chip, hl, he⟩ := ctlWrite_after_fail (k := 0) (chip := s.env.chip) (r := .csr)
    (v := [csrByte s.cfg s.c.mode cs]) hcfg h rfl hd
  rw [State.after_zero] at he
  exact ⟨chip, hl, (Proc.bind_of_ok (look_run _ _)).trans (Proc.bind_of_error he)⟩

/-- The write of the register fails. -/
theorem modifyChannel_write_fail (hcfg : s.cfg.wf = true) (h : s.Wide) (hv : v.length = regWidth r)
    (h0 : s.drawAt 0 s.trace ≠ .fail)
    (hd : s.drawAt 1 (s.trace ++ [wideW s.cfg .csr [csrByte s.cfg s.c.mode cs]]) = .fail) :
    ∃ chip, LeftByFailedWrite r v (s.env.chip.write .csr [csrByte s.cfg s.c.mode cs]) chip ∧
      modifyChannel cs r v s = .error .interface (s.after 2 chip
        [wideW s.cfg .csr [csrByte s.cfg s.c.mode cs], .write (writeByte (regAddr s.cfg r) :: v) false]) := by
  obtain ⟨chip, hl, he⟩ := ctlWrite_after_fail (k := 1)
    (chip := s.env.chip.write .csr [csrByte s.cfg s.c.mode cs]) hcfg h hv hd
  exact ⟨chip, hl, (Proc.bind_of_ok (look_run _ _)).trans
    ((Proc.bind_of_ok (ctlWrite_wide hcfg h rfl h0)).trans he)⟩

/-- The CSR read fails. -/
theorem readChannel_read_csr_fail (h : s.Wide) (hd : s.drawAt 0 (s.trace ++ []) = .fail) :
    readChannel ch r s = .error .interface
      (s.after 1 s.env.chip [.read (readByte (regAddr s.cfg .csr)) 1 none]) := by
  have he := readCsr_after_fail (chip := s.env.chip) h hd
  rw [State.after_zero] at he
  exact Proc.bind_of_error he

/-- The write that selects the channel fails. -/
theorem readChannel_select_fail (hcfg : s.cfg.wf = true) (h : s.Wide) (h0 : Answers s 0 s.trace s.env.chip .csr [saved])
    (hd : s.drawAt 1 (s.trace ++ [readR s.cfg .csr [saved]]) = .fail) :
    let w := csrByte s.cfg s.c.mode (channelFlag ch)
    ∃ chip, LeftByFailedWrite .csr [w] s.env.chip chip ∧
      readChannel ch r s = .error .interface (s.after 2 chip
        [readR s.cfg .csr [saved], .write (writeByte (regAddr s.cfg .csr) :: [w]) false]) := by
  intro w
  obtain ⟨chip, hl, he⟩ := ctlWrite_after_fail (k := 1) (chip := s.env.chip) (r := .csr) (v := [w]) hcfg h rfl hd
  exact ⟨chip, hl, (Proc.bind_of_ok (readCsr_wide h h0)).trans
    ((Proc.bind_of_ok (look_run _ _)).trans (Proc.bind_of_error he))⟩

/-- The read of the register fails; CSR stays at the channel (R166). -/
theorem readChannel_read_fail (hcfg : s.cfg.wf = true) (h : s.Wide) (h0 : Answers s 0 s.trace s.env.chip .csr [saved])
    (h1 : s.drawAt 1 (s.trace ++ [readR s.cfg .csr [saved]]) ≠ .fail) :
    let w := csrByte s.cfg s.c.mode (channelFlag ch)
    s.drawAt 2 (s.trace ++ [readR s.cfg .csr [saved], wideW s.cfg .csr [w]]) = .fail →
      readChannel ch r s = .error .interface (s.after 3 (s.env.chip.write .csr [w])
        [readR s.cfg .csr [saved], wideW s.cfg .csr [w], .read (readByte (regAddr s.cfg r)) (regWidth r) none]) :=
  fun hd => (Proc.bind_of_ok (readCsr_wide h h0)).trans ((Proc.bind_of_ok (look_run _ _)).trans
    ((Proc.bind_of_ok (ctlWrite_after (k := 1) (r := .csr) hcfg h rfl h1)).trans
      (Proc.bind_of_error (ctlRead_after_fail h hd))))

/-- The restore fails; CSR stays at the channel (R166). -/
theorem readChannel_restore_fail (hcfg : s.cfg.wf = true) (h : s.Wide)
    (h0 : Answers s 0 s.trace s.env.chip .csr [saved])
    (h1 : s.drawAt 1 (s.trace ++ [readR s.cfg .csr [saved]]) ≠ .fail) :
    let w := csrByte s.cfg s.c.mode (channelFlag ch)
    Answers s 2 (s.trace ++ [readR s.cfg .csr [saved], wideW s.cfg .csr [w]]) (s.env.chip.write .csr [w]) r d →
    s.drawAt 3 (s.trace ++ [readR s.cfg .csr [saved], wideW s.cfg .csr [w], readR s.cfg r d]) = .fail →
      readChannel ch r s = .error .interface (s.after 4 (s.env.chip.write .csr [w]) [readR s.cfg .csr [saved],
        wideW s.cfg .csr [w], readR s.cfg r d, .write [writeByte (regAddr s.cfg .csr), saved] false]) :=
  fun h2 hd => (Proc.bind_of_ok (readCsr_wide h h0)).trans ((Proc.bind_of_ok (look_run _ _)).trans
    ((Proc.bind_of_ok (ctlWrite_after (k := 1) (r := .csr) hcfg h rfl h1)).trans
      ((Proc.bind_of_ok (ctlRead_after h h2)).trans (Proc.bind_of_error (restoreCsr_after_fail hcfg h hd)))))

end Fails

/-! ## Everything a procedure can change -/

theorem within_modifyChannel (cs : ChSet) (r : Reg) (v : List Byte) : Within BusOnly (modifyChannel cs r v) :=
  Within.bind BusOnly.trans (Within.look BusOnly.refl _) fun _ =>
    Within.bind BusOnly.trans (within_ctlWrite _ _) fun _ => within_ctlWrite _ _

theorem within_readCsr : Within BusOnly readCsr :=
  Within.bind BusOnly.trans (within_ctlRead _) fun _ => Within.pure BusOnly.refl _

theorem within_restoreCsr (saved : Byte) : Within BusOnly (restoreCsr saved) := by
  intro s
  have hs := within_ctlWrite .csr [saved] s
  unfold restoreCsr
  cases h : ctlWrite .csr [saved] s <;> rw [h] at hs
  · exact hs
  · exact ⟨hs.cfg, hs.a, hs.c, hs.p, hs.q, hs.results, hs.inbox, hs.trace, SameActive.refl _⟩

theorem within_readChannel (ch : Channel) (r : Reg) : Within BusOnly (readChannel ch r) :=
  Within.bind BusOnly.trans within_readCsr fun _ =>
    Within.bind BusOnly.trans (Within.look BusOnly.refl _) fun _ =>
      Within.bind BusOnly.trans (within_ctlWrite _ _) fun _ =>
        Within.bind BusOnly.trans (within_ctlRead _) fun _ =>
          Within.bind BusOnly.trans (within_restoreCsr _) fun _ => Within.pure BusOnly.refl _

theorem within_selfTest : Within BusOnly selfTestBody := by
  refine Within.bind BusOnly.trans within_readCsr fun saved => Within.bind BusOnly.trans (within_ctlWrite _ _) fun _ =>
    Within.bind BusOnly.trans within_readCsr fun w => ?_
  split
  · refine Within.bind BusOnly.trans (within_ctlWrite _ _) fun _ => Within.bind BusOnly.trans within_readCsr fun w' => ?_
    split
    · exact Within.bind BusOnly.trans (within_ctlWrite _ _) fun _ => Within.pure BusOnly.refl _
    · exact Within.pure BusOnly.refl _
  · exact Within.pure BusOnly.refl _

/-- The steady-state procedures raise Interface only. -/
theorem raises_modifyChannel (cs : ChSet) (r : Reg) (v : List Byte) : Raises (· = .interface) (modifyChannel cs r v) :=
  (Raises.look _).bind fun _ => (raises_ctlWrite _ _).bind fun _ => raises_ctlWrite _ _

theorem raises_readCsr : Raises (· = .interface) readCsr := (raises_ctlRead _).bind fun _ => Raises.pure _

theorem raises_restoreCsr (saved : Byte) : Raises (· = .interface) (restoreCsr saved) := by
  intro s e t h
  unfold restoreCsr at h
  cases hx : ctlWrite .csr [saved] s <;> rw [hx] at h <;> cases h
  exact ctlWrite_error hx

theorem raises_readChannel (ch : Channel) (r : Reg) : Raises (· = .interface) (readChannel ch r) :=
  raises_readCsr.bind fun _ => (Raises.look _).bind fun _ => (raises_ctlWrite _ _).bind fun _ =>
    (raises_ctlRead _).bind fun _ => (raises_restoreCsr _).bind fun _ => Raises.pure _

theorem raises_selfTest : Raises (· = .interface) selfTestBody := by
  refine raises_readCsr.bind fun saved => (raises_ctlWrite _ _).bind fun _ => raises_readCsr.bind fun w => ?_
  split
  · refine (raises_ctlWrite _ _).bind fun _ => raises_readCsr.bind fun w' => ?_
    split
    · exact (raises_ctlWrite _ _).bind fun _ => Raises.pure _
    · exact Raises.pure _
  · exact Raises.pure _

/-! ## CONFIGURE_SYSTEM_CLOCK's body -/

/-- Both transactions accepted. -/
theorem configureClock_wide {ref eff : Rat} {mult : Byte} {old : List Byte} (hcfg : s.cfg.wf = true) (h : s.Wide)
    (hv : validateClocking s.cfg ref mult = .ok eff) (h0 : Answers s 0 s.trace s.env.chip .fr1 old)
    (h1 : s.drawAt 1 (s.trace ++ [readR s.cfg .fr1 old]) ≠ .fail) :
    configureClock ref mult s =
      .ok eff ((s.after 2 (s.env.chip.write .fr1 (fr1Merge s.cfg old mult eff))
        [readR s.cfg .fr1 old, wideW s.cfg .fr1 (fr1Merge s.cfg old mult eff)]).setClock ref mult) := by
  have hl : old.length = 3 := h0.length hcfg
  simp only [configureClock, Proc.bind_run, look_run, hv, orRaise_ok]
  rw [ctlRead_wide h h0]
  simp only
  rw [ctlWrite_wide (s := s.after 1 _ _) hcfg (h.after _ _ _) (by simp [fr1Merge, hl, regWidth])
    (by rw [State.after_drawAt]; exact h1)]
  simp

/-- The FR1 read fails. -/
theorem configureClock_read_fail {ref eff : Rat} {mult : Byte} (h : s.Wide)
    (hv : validateClocking s.cfg ref mult = .ok eff) (hd : s.drawAt 0 (s.trace ++ []) = .fail) :
    configureClock ref mult s = .error .interface
      (s.after 1 s.env.chip [.read (readByte (regAddr s.cfg .fr1)) (regWidth .fr1) none]) := by
  have he := ctlRead_after_fail (chip := s.env.chip) (r := .fr1) h hd
  rw [State.after_zero] at he
  simp only [configureClock, Proc.bind_run, look_run, hv, orRaise_ok]
  rw [he]
  rfl

/-- The FR1 write fails. -/
theorem configureClock_write_fail {ref eff : Rat} {mult : Byte} {old : List Byte} (hcfg : s.cfg.wf = true) (h : s.Wide)
    (hv : validateClocking s.cfg ref mult = .ok eff) (h0 : Answers s 0 s.trace s.env.chip .fr1 old)
    (hd : s.drawAt 1 (s.trace ++ [readR s.cfg .fr1 old]) = .fail) :
    ∃ chip, LeftByFailedWrite .fr1 (fr1Merge s.cfg old mult eff) s.env.chip chip ∧
      configureClock ref mult s = .error .interface (s.after 2 chip
        [readR s.cfg .fr1 old, .write (writeByte (regAddr s.cfg .fr1) :: fr1Merge s.cfg old mult eff) false]) := by
  obtain ⟨chip, hl, he⟩ := ctlWrite_after_fail (k := 1) (chip := s.env.chip) (r := .fr1)
    (v := fr1Merge s.cfg old mult eff) hcfg h (by simp [fr1Merge, h0.length hcfg, regWidth]) hd
  refine ⟨chip, hl, ?_⟩
  simp only [configureClock, Proc.bind_run, look_run, hv, orRaise_ok]
  rw [ctlRead_wide h h0]
  simp only [he, List.cons_append, List.nil_append]

/-- A clock that VALIDATE_CLOCKING rejects: its error, and nothing happens (42_channel_mux.md R173). -/
theorem configureClock_rejected {ref : Rat} {mult : Byte} {e : Err} (hv : validateClocking s.cfg ref mult = .error e) :
    configureClock ref mult s = .error e s := by
  simp [configureClock, hv]

/-- It stores a clock that VALIDATE_CLOCKING accepts, or leaves the clock as it was and ends with an error. -/
theorem configureClock_cases (ref : Rat) (mult : Byte) (s : State) :
    (∃ e, validateClocking s.cfg ref mult = .error e ∧ configureClock ref mult s = .error e s) ∨
    ∃ eff, validateClocking s.cfg ref mult = .ok eff ∧
      ((∃ t, BusOnly s t ∧ configureClock ref mult s = .error .interface t) ∨
       (∃ t, BusOnly s t ∧ configureClock ref mult s = .ok eff (t.setClock ref mult) ∧ s.a.mode = .fourBitSerial ∧
         s.a.streaming = false)) := by
  cases hv : validateClocking s.cfg ref mult with
  | error e => exact .inl ⟨e, rfl, configureClock_rejected hv⟩
  | ok eff =>
    refine .inr ⟨eff, rfl, ?_⟩
    simp only [configureClock, Proc.bind_run, look_run, hv, orRaise_ok]
    have hr := within_ctlRead .fr1 s
    cases h1 : ctlRead .fr1 s with
    | error e t =>
      rw [h1] at hr
      obtain rfl := ctlRead_error h1
      exact .inl ⟨t, hr, rfl⟩
    | ok old t =>
      obtain ⟨hm, ht⟩ := ctlRead_eq_ok h1
      have hw := within_ctlWrite .fr1 (fr1Merge s.cfg old mult eff) t
      simp only
      cases h2 : ctlWrite .fr1 (fr1Merge s.cfg old mult eff) t with
      | error e u =>
        rw [h2] at hw
        obtain rfl := ctlWrite_error h2
        exact .inl ⟨u, ht.trans _ _ _ hw, rfl⟩
      | ok v u =>
        obtain ⟨hs, hu⟩ := ctlWrite_eq_ok h2
        refine .inr ⟨u, ht.trans _ _ _ hu, rfl, hm, ?_⟩
        have := hs (by rw [ht.a, hm])
        rwa [ht.a] at this

end Sys2Proof.Machine
end

