-- ==== Sys2Proof/Laws/Bringup.lean ====
section
/-!
SUPPORT. What INIT's procedures do: the run of each that the oracle accepts, everything a run can change, the errors it can
raise, and what a successful run says.
-/

namespace Sys2Proof.Machine

/-- A state in the middle of a bring-up that started in s: the adapter, the controller and the pins as given, after k draws
and the events es. -/
def State.mid (s : State) (a : Adapter) (c : Controller) (p : Pins) (k : Nat) (chip : Chip) (es : List Event) : State :=
  { s with a := a, c := c, p := p, env := s.envAfter k chip, trace := s.trace ++ es }

variable {s : State} {a : Adapter} {c : Controller} {p : Pins} {k : Nat} {chip : Chip} {es : List Event}

@[simp] theorem State.mid_trace : (s.mid a c p k chip es).trace = s.trace ++ es := rfl
@[simp] theorem State.mid_cfg : (s.mid a c p k chip es).cfg = s.cfg := rfl
@[simp] theorem State.mid_a : (s.mid a c p k chip es).a = a := rfl
@[simp] theorem State.mid_c : (s.mid a c p k chip es).c = c := rfl
@[simp] theorem State.mid_p : (s.mid a c p k chip es).p = p := rfl
@[simp] theorem State.mid_chip : (s.mid a c p k chip es).env.chip = chip := rfl

@[simp] theorem State.mid_drawAt (j : Nat) (trace : List Event) :
    (s.mid a c p k chip es).drawAt j trace = s.drawAt (k + j) trace := by
  simp [State.mid, State.envAfter, State.drawAt, List.drop_drop]

@[simp] theorem State.mid_after (j : Nat) (chip' : Chip) (fs : List Event) :
    (s.mid a c p k chip es).after j chip' fs = s.mid a c p (k + j) chip' (es ++ fs) := by
  simp [State.after, State.mid, State.envAfter, List.drop_drop, List.append_assoc]

@[simp] theorem State.mid_emit (e : Event) : (s.mid a c p k chip es).emit e = s.mid a c p k chip (es ++ [e]) := by
  simp [State.emit, State.mid, List.append_assoc]

@[simp] theorem State.mid_setPhase (ph : Phase) :
    (s.mid a c p k chip es).setPhase ph = s.mid a { c with phase := ph } p k chip es := rfl
@[simp] theorem State.mid_setControllerMode (m : Mode) :
    (s.mid a c p k chip es).setControllerMode m = s.mid a { c with mode := m } p k chip es := rfl
@[simp] theorem State.mid_setAdapterMode (m : Mode) :
    (s.mid a c p k chip es).setAdapterMode m = s.mid { a with mode := m } c p k chip es := rfl
@[simp] theorem State.mid_setClock (ref : Rat) (mult : Byte) :
    (s.mid a c p k chip es).setClock ref mult = s.mid a { c with refHz := ref, mult := mult } p k chip es := rfl
@[simp] theorem State.mid_setPin_update (b : Bool) :
    (s.mid a c p k chip es).setPin .update b = s.mid a c { p with update := b } k chip es := rfl
@[simp] theorem State.mid_setPin_reset (b : Bool) :
    (s.mid a c p k chip es).setPin .reset b = s.mid a c { p with reset := b } k chip es := rfl

/-- A bring-up starts in its own start state. -/
theorem State.mid_start (s : State) : s.mid s.a s.c s.p 0 s.env.chip [] = s := by
  simp [State.mid, State.envAfter]

/-- An accepted pin change. -/
theorem pinSet_mid {line : Line} {level : Bool} (h : s.drawAt k (s.trace ++ es) ≠ .fail) :
    pinSet line level (s.mid a c p k chip es) =
      .ok () ((s.mid a c p (k + 1) ((s.mid a c p k chip es).chipAfterPin line level)
        (es ++ [.pin line level true])).setPin line level) := by
  rw [pinSet_ok _ _ (by simpa using h)]
  simp

/-- The waits before the rising edge (log 25). -/
def leadOf (cfg : Config) : List Event := if cfg.latchLeadDwell then [.delay 5] else []

/-- The events of a latch pulse. -/
def pulseOf (cfg : Config) : List Event :=
  leadOf cfg ++ [.pin .update true true, .delay 5, .pin .update false true, .delay 5]

theorem leadDwell_mid :
    leadDwell (s.mid a c p k chip es) = .ok () (s.mid a c p k chip (es ++ leadOf s.cfg)) := by
  unfold leadDwell leadOf
  cases h : s.cfg.latchLeadDwell <;> simp [h]

/-- A latch pulse, accepted: it commits, and the line ends low (70_reset_and_hazards.md R263). -/
theorem latchPulse_mid (hp : p.update = false) (ha : AcceptsAll s k (s.trace ++ es) (pulseOf s.cfg)) :
    latchPulse (s.mid a c p k chip es) = .ok () (s.mid a c p (k + 2) chip.commit (es ++ pulseOf s.cfg)) := by
  obtain ⟨reset, update⟩ := p
  subst hp
  have ha : AcceptsAll s k (s.trace ++ (es ++ leadOf s.cfg))
      [.pin .update true true, .delay 5, .pin .update false true, .delay 5] := by
    unfold pulseOf at ha
    cases hl : s.cfg.latchLeadDwell <;> simpa [leadOf, hl, AcceptsAll, List.append_assoc] using ha
  obtain ⟨h1, h2, -⟩ := ha
  simp only [latchPulse, Proc.bind_run, leadDwell_mid]
  rw [pinSet_mid h1]
  simp only [delay_run, State.mid_setPin_update, State.mid_emit, tDwellUs]
  rw [pinSet_mid (by simpa [List.append_assoc] using h2)]
  simp [pulseOf, State.chipAfterPin]

/-! ## The run that the oracle accepts -/

/-- A list of events is accepted if its first part is, and then its second. -/
theorem acceptsAll_append {es fs : List Event} {k : Nat} {trace : List Event} (h : AcceptsAll s k trace (es ++ fs)) :
    AcceptsAll s k trace es ∧
      AcceptsAll s (k + (es.filter fun e => match e with | .delay _ => false | _ => true).length) (trace ++ es) fs := by
  induction es generalizing k trace with
  | nil => simpa [AcceptsAll] using h
  | cons e es ih =>
    cases e <;> simp only [List.cons_append, AcceptsAll] at h ⊢
    case delay =>
      obtain ⟨a, b⟩ := ih h
      exact ⟨a, by simpa [List.append_assoc] using b⟩
    all_goals
      obtain ⟨h0, h⟩ := h
      obtain ⟨a, b⟩ := ih h
      exact ⟨⟨h0, a⟩, by simpa [Nat.add_assoc, Nat.add_comm, Nat.add_left_comm, List.append_assoc] using b⟩

/-- The events of INIT from Idle to NarrowModeSelected. -/
def resetEvents : List Event := [.pin .update false true, .pin .reset true true, .delay 5, .pin .reset false true]

theorem initReset_mid {m : Mode} (h : AcceptsAll s 0 s.trace resetEvents) :
    initReset m s = .ok () (s.mid { s.a with mode := .singleBitTwoWire }
      { s.c with mode := m, phase := .narrowModeSelected } { reset := false, update := false } 3
      (s.env.chip.assertReset s.cfg (s.trace ++ [.pin .update false true])) resetEvents) := by
  obtain ⟨h0, h1, h2, -⟩ := h
  simp only [initReset, Proc.bind_run, enter_run, change_run]
  have e : (s.setPhase .idle).setControllerMode m = s.mid s.a { s.c with phase := .idle, mode := m } s.p 0 s.env.chip [] := by
    conv_lhs => rw [← State.mid_start s]
    simp
  rw [e, pinSet_mid (by simpa using h0)]
  simp only [State.mid_setPin_update, State.chipAfterPin, List.nil_append]
  rw [pinSet_mid (by simpa using h1)]
  simp only [State.mid_setPin_reset, State.mid_setPhase, delay_run, State.mid_emit, tDwellUs]
  rw [pinSet_mid (by simpa using h2)]
  simp [State.chipAfterPin, resetEvents]

/-- INIT's read-back of CSR and its check against the byte written (70_reset_and_hazards.md R262). -/
def verifyMode (w : Byte) : Proc Unit := do
  let r ← readCsr
  require (r == w) .check
  enter .csrVerified

/-- INIT's CSR write and first pulse, accepted: what is left is the read-back and its check. -/
theorem initMode_mid {m : Mode} (hcfg : s.cfg.wf = true) (ha : a.mode = .singleBitTwoWire)
    (h : AcceptsAll s k (s.trace ++ es)
      (.write (narrowFrame (writeByte (regAddr s.cfg .csr)) [csrByte s.cfg m allChannels]) true :: pulseOf s.cfg)) :
    initMode m (s.mid a c { reset := false, update := false } k chip es) =
      verifyMode (csrByte s.cfg m allChannels)
        (s.mid { a with mode := m } { c with phase := .desiredModeSelected } { reset := false, update := false } (k + 3)
          ((chip.write .csr [csrByte s.cfg m allChannels]).commit)
          (es ++ .write (narrowFrame (writeByte (regAddr s.cfg .csr)) [csrByte s.cfg m allChannels]) true ::
            (pulseOf s.cfg ++ [.delay 5]))) := by
  obtain ⟨h0, h1⟩ := h
  simp only [initMode, Proc.bind_run, look_run, State.mid_cfg]
  rw [ctlWrite_narrow (s := s.mid _ _ _ _ _ _) hcfg ha rfl (by simp) (by simpa using h0)]
  simp only [enter_run, State.mid_after, State.mid_setPhase, State.mid_cfg, State.mid_chip]
  rw [latchPulse_mid rfl (by simpa using h1)]
  simp [verifyMode, delay_run, tDwellUs, Nat.add_assoc]

/-- INIT up to the read-back, accepted: what is left is the read-back, its check and the clock (70_reset_and_hazards.md R262). -/
theorem initSequence_head {m : Mode} {ref : Rat} {mult : Byte} (hcfg : s.cfg.wf = true)
    (h : AcceptsAll s 0 s.trace (initHead s.cfg (csrByte s.cfg m allChannels) (pulseOf s.cfg))) :
    initSequence m ref mult s =
      (do verifyMode (csrByte s.cfg m allChannels); initClock ref mult : Proc Unit)
      (s.mid { s.a with mode := m } { s.c with mode := m, phase := .desiredModeSelected }
        { reset := false, update := false } 6
        (((s.env.chip.assertReset s.cfg (s.trace ++ [.pin .update false true])).write .csr
          [csrByte s.cfg m allChannels]).commit)
        (initHead s.cfg (csrByte s.cfg m allChannels) (pulseOf s.cfg))) := by
  have hh : initHead s.cfg (csrByte s.cfg m allChannels) (pulseOf s.cfg) = resetEvents ++
      ((.write (narrowFrame (writeByte (regAddr s.cfg .csr)) [csrByte s.cfg m allChannels]) true :: pulseOf s.cfg) ++
        [.delay 5]) := by
    simp [initHead, resetEvents, narrowFrame]
  rw [hh] at h ⊢
  obtain ⟨h1, h2⟩ := acceptsAll_append h
  have h2 : AcceptsAll s 3 (s.trace ++ resetEvents) (_ ++ [.delay 5]) := h2
  simp only [initSequence, Proc.bind_run]
  rw [initReset_mid h1]
  simp only
  rw [initMode_mid hcfg rfl (acceptsAll_append h2).1]
  simp only [List.cons_append]

/-- The read-back answered: Check unless it is the byte written. -/
theorem verifyMode_mid {w b : Byte} (hm : a.mode = .fourBitSerial) (hs : a.streaming = false)
    (h : Answers s k (s.trace ++ es) chip .csr [b]) :
    verifyMode w (s.mid a c p k chip es) =
      if b = w then .ok () (s.mid a { c with phase := .csrVerified } p (k + 1) chip (es ++ [readR s.cfg .csr [b]]))
      else .error .check (s.mid a c p (k + 1) chip (es ++ [readR s.cfg .csr [b]])) := by
  simp only [verifyMode, Proc.bind_run]
  rw [readCsr_wide (s := s.mid _ _ _ _ _ _) ⟨hm, hs⟩ (by simpa [Answers] using h)]
  by_cases hb : b = w
  · simp [hb]
  · simp [hb, beq_false_of_ne hb]

/-- INIT in the wide mode, its read-back answered: Check unless it is the byte written, and then the clock step. -/
theorem initSequence_readBack {ref : Rat} {mult b : Byte} (hcfg : s.cfg.wf = true) (hs : s.a.streaming = false)
    (h : AcceptsAll s 0 s.trace (initHead s.cfg (csrByte s.cfg .fourBitSerial allChannels) (pulseOf s.cfg)))
    (hb : Answers s 6 (s.trace ++ initHead s.cfg (csrByte s.cfg .fourBitSerial allChannels) (pulseOf s.cfg))
      (((s.env.chip.assertReset s.cfg (s.trace ++ [.pin .update false true])).write .csr
        [csrByte s.cfg .fourBitSerial allChannels]).commit) .csr [b]) :
    let mid : Phase → State := fun ph =>
      s.mid { mode := .fourBitSerial, streaming := false } { s.c with mode := .fourBitSerial, phase := ph }
        { reset := false, update := false } 7
        (((s.env.chip.assertReset s.cfg (s.trace ++ [.pin .update false true])).write .csr
          [csrByte s.cfg .fourBitSerial allChannels]).commit)
        (initHead s.cfg (csrByte s.cfg .fourBitSerial allChannels) (pulseOf s.cfg) ++ [readR s.cfg .csr [b]])
    initSequence .fourBitSerial ref mult s =
      if b = csrByte s.cfg .fourBitSerial allChannels then initClock ref mult (mid .csrVerified)
      else .error .check (mid .desiredModeSelected) := by
  intro mid
  rw [initSequence_head hcfg h, Proc.bind_run]
  simp only [hs]
  rw [verifyMode_mid rfl rfl hb]
  by_cases hw : b = csrByte s.cfg .fourBitSerial allChannels
  · rw [if_pos hw, if_pos hw]
  · rw [if_neg hw, if_neg hw]

/-- INIT's clock step and second pulse, accepted. -/
theorem initClock_mid {ref eff : Rat} {mult : Byte} {old : List Byte} (hcfg : s.cfg.wf = true)
    (hm : a.mode = .fourBitSerial) (hs : a.streaming = false) (hv : validateClocking s.cfg ref mult = .ok eff)
    (h0 : Answers s k (s.trace ++ es) chip .fr1 old)
    (h : AcceptsAll s (k + 1) (s.trace ++ es ++ [readR s.cfg .fr1 old])
      (wideW s.cfg .fr1 (fr1Merge s.cfg old mult eff) :: pulseOf s.cfg)) :
    initClock ref mult (s.mid a c { reset := false, update := false } k chip es) =
      .ok () (s.mid a { phase := .ready, refHz := ref, mult := mult, mode := c.mode } { reset := false, update := false }
        (k + 4) (chip.write .fr1 (fr1Merge s.cfg old mult eff)).commit
        (es ++ readR s.cfg .fr1 old :: wideW s.cfg .fr1 (fr1Merge s.cfg old mult eff) :: pulseOf s.cfg)) := by
  obtain ⟨h1, h2⟩ := h
  simp only [initClock, Proc.bind_run]
  rw [configureClock_wide (s := s.mid _ _ _ _ _ _) (old := old) (eff := eff) hcfg ⟨hm, hs⟩ hv
    (by unfold Answers; simpa [Answers] using h0) (by simpa using h1)]
  simp only [enter_run, State.mid_after, State.mid_setPhase, State.mid_setClock, State.mid_cfg, State.mid_chip]
  rw [latchPulse_mid rfl (by simpa [wideW] using h2)]
  simp [Nat.add_assoc]

/-! ## Everything a bring-up can change -/

/-- What INIT may do on the way: it appends events, moves the environment, the pins and the controller on, and sets the
adapter's mode to m or to the narrow mode. -/
structure BringupOnly (m : Mode) (s t : State) : Prop where
  cfg       : t.cfg = s.cfg
  streaming : t.a.streaming = s.a.streaming
  mode      : t.a.mode = s.a.mode ∨ t.a.mode = m ∨ t.a.mode = .singleBitTwoWire
  q         : t.q = s.q
  results   : t.results = s.results
  inbox     : t.inbox = s.inbox
  trace     : ∃ es, t.trace = s.trace ++ es

variable {m : Mode}

theorem BringupOnly.refl (s : State) : BringupOnly m s s := ⟨rfl, rfl, .inl rfl, rfl, rfl, rfl, ⟨[], by simp⟩⟩

theorem BringupOnly.trans (s t u : State) (h : BringupOnly m s t) (k : BringupOnly m t u) : BringupOnly m s u := by
  obtain ⟨es, hes⟩ := h.trace
  obtain ⟨fs, hfs⟩ := k.trace
  refine ⟨k.cfg.trans h.cfg, k.streaming.trans h.streaming, ?_, k.q.trans h.q, k.results.trans h.results,
    k.inbox.trans h.inbox, ⟨es ++ fs, by rw [hfs, hes, List.append_assoc]⟩⟩
  rcases k.mode with hk | hk
  · rw [hk]
    exact h.mode
  · exact .inr hk

theorem BusOnly.bringup {s t : State} (h : BusOnly s t) : BringupOnly m s t := by
  obtain ⟨es, hes, -⟩ := h.trace
  exact ⟨h.cfg, by rw [h.a], .inl (by rw [h.a]), h.q, h.results, h.inbox, ⟨es, hes⟩⟩

theorem within_pinSet (line : Line) (level : Bool) : Within (BringupOnly m) (pinSet line level) := by
  intro s
  by_cases h : s.drawAt 0 s.trace = .fail
  · rw [pinSet_fail line level h]
    exact ⟨rfl, rfl, .inl rfl, rfl, rfl, rfl, ⟨_, rfl⟩⟩
  · rw [pinSet_ok line level h]
    cases line <;> exact ⟨rfl, rfl, .inl rfl, rfl, rfl, rfl, ⟨_, rfl⟩⟩

theorem within_delay (us : Nat) : Within (BringupOnly m) (delay us) :=
  fun _ => ⟨rfl, rfl, .inl rfl, rfl, rfl, rfl, ⟨_, rfl⟩⟩

theorem within_enter (ph : Phase) : Within (BringupOnly m) (enter ph) :=
  fun _ => ⟨rfl, rfl, .inl rfl, rfl, rfl, rfl, ⟨[], (List.append_nil _).symm⟩⟩

theorem within_leadDwell : Within (BringupOnly m) leadDwell := by
  intro s
  unfold leadDwell
  split
  · exact within_delay _ s
  · exact BringupOnly.refl s

theorem within_latchPulse : Within (BringupOnly m) latchPulse :=
  Within.bind BringupOnly.trans within_leadDwell fun _ => Within.bind BringupOnly.trans (within_pinSet _ _) fun _ =>
    Within.bind BringupOnly.trans (within_delay _) fun _ => Within.bind BringupOnly.trans (within_pinSet _ _) fun _ =>
    within_delay _

theorem within_initReset : Within (BringupOnly m) (initReset m) := by
  have mode : Within (BringupOnly m) (change (·.setControllerMode m)) :=
    fun s => ⟨rfl, rfl, .inl rfl, rfl, rfl, rfl, ⟨[], (List.append_nil _).symm⟩⟩
  have narrow : Within (BringupOnly m) (change (·.setAdapterMode .singleBitTwoWire)) :=
    fun s => ⟨rfl, rfl, .inr (.inr rfl), rfl, rfl, rfl, ⟨[], (List.append_nil _).symm⟩⟩
  exact Within.bind BringupOnly.trans (within_enter _) fun _ => Within.bind BringupOnly.trans mode fun _ =>
    Within.bind BringupOnly.trans (within_pinSet _ _) fun _ => Within.bind BringupOnly.trans (within_pinSet _ _) fun _ =>
    Within.bind BringupOnly.trans (within_enter _) fun _ => Within.bind BringupOnly.trans (within_delay _) fun _ =>
    Within.bind BringupOnly.trans (within_pinSet _ _) fun _ => Within.bind BringupOnly.trans (within_enter _) fun _ =>
    Within.bind BringupOnly.trans narrow fun _ => within_enter _

theorem within_initMode : Within (BringupOnly m) (initMode m) := by
  have wide : Within (BringupOnly m) (change (·.setAdapterMode m)) :=
    fun s => ⟨rfl, rfl, .inr (.inl rfl), rfl, rfl, rfl, ⟨[], (List.append_nil _).symm⟩⟩
  exact Within.bind BringupOnly.trans (Within.look BringupOnly.refl _) fun w =>
    Within.bind BringupOnly.trans (Within.mono (fun _ _ h => h.bringup) (within_ctlWrite _ _)) fun _ =>
    Within.bind BringupOnly.trans (within_enter _) fun _ => Within.bind BringupOnly.trans within_latchPulse fun _ =>
    Within.bind BringupOnly.trans (within_enter _) fun _ => Within.bind BringupOnly.trans wide fun _ =>
    Within.bind BringupOnly.trans (within_delay _) fun _ => Within.bind BringupOnly.trans (within_enter _) fun _ =>
    Within.bind BringupOnly.trans (Within.mono (fun _ _ h => h.bringup) within_readCsr) fun _ =>
    Within.bind BringupOnly.trans (Within.require BringupOnly.refl _ _) fun _ => within_enter _

theorem within_configureClock (ref : Rat) (mult : Byte) : Within (BringupOnly m) (configureClock ref mult) := by
  intro s
  rcases configureClock_cases ref mult s with ⟨e, -, h⟩ | ⟨eff, -, ⟨t, ht, h⟩ | ⟨t, ht, h, -⟩⟩ <;> rw [h]
  · exact BringupOnly.refl s
  · exact ht.bringup
  · exact BringupOnly.trans s t _ ht.bringup ⟨rfl, rfl, .inl rfl, rfl, rfl, rfl, ⟨[], (List.append_nil _).symm⟩⟩

theorem within_initSequence (ref : Rat) (mult : Byte) : Within (BringupOnly m) (initSequence m ref mult) :=
  Within.bind BringupOnly.trans within_initReset fun _ => Within.bind BringupOnly.trans within_initMode fun _ =>
    Within.bind BringupOnly.trans (within_configureClock _ _) fun _ =>
    Within.bind BringupOnly.trans (within_enter _) fun _ => Within.bind BringupOnly.trans within_latchPulse fun _ =>
    Within.bind BringupOnly.trans (within_enter _) fun _ => within_enter _

/-! ## The errors of a bring-up -/

/-- INIT's five error codes (70_reset_and_hazards.md R264). -/
def initError (e : Err) : Prop := e = .pin ∨ e = .interface ∨ e = .check ∨ e = .bounds ∨ e = .frequency

theorem raises_leadDwell : Raises (· = .pin) leadDwell := by
  intro s e t h
  unfold leadDwell at h
  split at h <;> cases h

theorem raises_latchPulse : Raises (· = .pin) latchPulse :=
  raises_leadDwell.bind fun _ => (raises_pinSet _ _).bind fun _ => (Raises.change _).bind fun _ =>
    (raises_pinSet _ _).bind fun _ => Raises.change _

theorem raises_configureClock (ref : Rat) (mult : Byte) :
    Raises (fun e => e = .interface ∨ e = .bounds ∨ e = .frequency) (configureClock ref mult) := by
  intro s e t h
  rcases configureClock_cases ref mult s with ⟨e', hv, h'⟩ | ⟨eff, -, ⟨t', ht, h'⟩ | ⟨t', ht, h', -⟩⟩ <;> rw [h'] at h <;>
    cases h
  · unfold validateClocking at hv
    split_ifs at hv <;> cases hv <;> simp
  · exact .inl rfl

theorem raises_initSequence (ref : Rat) (mult : Byte) : Raises initError (initSequence m ref mult) := by
  have pin : ∀ {α : Type} {x : Proc α}, Raises (· = .pin) x → Raises initError x := fun h => h.mono fun _ h => .inl h
  have bus : ∀ {α : Type} {x : Proc α}, Raises (· = .interface) x → Raises initError x :=
    fun h => h.mono fun _ h => .inr (.inl h)
  refine Raises.bind ?_ fun _ => Raises.bind ?_ fun _ => ?_
  · exact (Raises.change _).bind fun _ => (Raises.change _).bind fun _ => (pin (raises_pinSet _ _)).bind fun _ =>
      (pin (raises_pinSet _ _)).bind fun _ => (Raises.change _).bind fun _ => (Raises.change _).bind fun _ =>
      (pin (raises_pinSet _ _)).bind fun _ => (Raises.change _).bind fun _ => (Raises.change _).bind fun _ =>
      Raises.change _
  · exact (Raises.look _).bind fun _ => (bus (raises_ctlWrite _ _)).bind fun _ => (Raises.change _).bind fun _ =>
      (pin raises_latchPulse).bind fun _ => (Raises.change _).bind fun _ => (Raises.change _).bind fun _ =>
      (Raises.change _).bind fun _ => (Raises.change _).bind fun _ => (bus raises_readCsr).bind fun _ =>
      (Raises.require _ (.inr (.inr (.inl rfl)))).bind fun _ => Raises.change _
  · refine ((raises_configureClock ref mult).mono ?_).bind fun _ => (Raises.change _).bind fun _ =>
      (pin raises_latchPulse).bind fun _ => (Raises.change _).bind fun _ => Raises.change _
    rintro e (rfl | rfl | rfl) <;> simp [initError]

/-! ## What a successful bring-up says -/

theorem leadDwell_eq_ok {s t : State} (h : leadDwell s = .ok () t) :
    t.a = s.a ∧ t.c = s.c ∧ t.p = s.p ∧ t.cfg = s.cfg := by
  unfold leadDwell at h
  split at h <;> cases h <;> exact ⟨rfl, rfl, rfl, rfl⟩

theorem latchPulse_eq_ok {s t : State} (h : latchPulse s = .ok () t) :
    t.a = s.a ∧ t.c = s.c ∧ t.p = { s.p with update := false } ∧ t.cfg = s.cfg := by
  obtain ⟨_, s1, h1, h⟩ := Proc.bind_eq_ok.mp h
  obtain ⟨_, s2, h2, h⟩ := Proc.bind_eq_ok.mp h
  obtain ⟨_, s3, h3, h⟩ := Proc.bind_eq_ok.mp h
  obtain ⟨_, s4, h4, h⟩ := Proc.bind_eq_ok.mp h
  obtain ⟨ha, hc, hp, hcfg⟩ := leadDwell_eq_ok h1
  obtain rfl := pinSet_eq_ok h2
  cases h3
  obtain rfl := pinSet_eq_ok h4
  cases h
  exact ⟨ha, hc, by rw [← hp]; rfl, hcfg⟩

/-- The controller, the adapter's mode and the pins after a successful INIT from Idle to NarrowModeSelected. -/
theorem initReset_eq_ok {s t : State} (h : initReset m s = .ok () t) :
    t.c.mode = m ∧ t.p = { reset := false, update := false } ∧ t.cfg = s.cfg ∧ t.a.streaming = s.a.streaming := by
  have hw := within_initReset (m := m) s
  rw [h] at hw
  have hw : BringupOnly m s t := hw
  refine ⟨?_, ?_, hw.cfg, hw.streaming⟩ <;>
  · obtain ⟨_, s1, h1, h⟩ := Proc.bind_eq_ok.mp h
    obtain ⟨_, s2, h2, h⟩ := Proc.bind_eq_ok.mp h
    obtain ⟨_, s3, h3, h⟩ := Proc.bind_eq_ok.mp h
    obtain ⟨_, s4, h4, h⟩ := Proc.bind_eq_ok.mp h
    obtain ⟨_, s5, h5, h⟩ := Proc.bind_eq_ok.mp h
    obtain ⟨_, s6, h6, h⟩ := Proc.bind_eq_ok.mp h
    obtain ⟨_, s7, h7, h⟩ := Proc.bind_eq_ok.mp h
    obtain ⟨_, s8, h8, h⟩ := Proc.bind_eq_ok.mp h
    obtain ⟨_, s9, h9, h⟩ := Proc.bind_eq_ok.mp h
    cases h1
    cases h2
    obtain rfl := pinSet_eq_ok h3
    obtain rfl := pinSet_eq_ok h4
    cases h5
    cases h6
    obtain rfl := pinSet_eq_ok h7
    cases h8
    cases h9
    cases h
    rfl

/-- A successful INIT ends Ready with its arguments stored, in the wide mode with no stream and the pins at rest, and its
clock is one VALIDATE_CLOCKING accepts (70_reset_and_hazards.md R262, R265). -/
theorem initSequence_eq_ok {ref : Rat} {mult : Byte} {s t : State} (h : initSequence m ref mult s = .ok () t) :
    m = .fourBitSerial ∧ s.a.streaming = false ∧ t.a = { mode := .fourBitSerial, streaming := false } ∧
    t.c = { phase := .ready, refHz := ref, mult := mult, mode := m } ∧ t.p = { reset := false, update := false } ∧
    ∃ eff, validateClocking s.cfg ref mult = .ok eff := by
  obtain ⟨_, s1, h1, h⟩ := Proc.bind_eq_ok.mp h
  obtain ⟨_, s2, h2, h⟩ := Proc.bind_eq_ok.mp h
  obtain ⟨hm1, hp1, hc1, hs1⟩ := initReset_eq_ok h1
  -- the second part: the mode write, its pulse and the read-back
  have part2 : s2.a = { mode := m, streaming := s1.a.streaming } ∧ s2.c.mode = m ∧
      s2.p = { reset := false, update := false } ∧ s2.cfg = s1.cfg := by
    obtain ⟨w, t0, k0, h2⟩ := Proc.bind_eq_ok.mp h2
    cases k0
    obtain ⟨_, t1, k1, h2⟩ := Proc.bind_eq_ok.mp h2
    obtain ⟨-, b1⟩ := ctlWrite_eq_ok k1
    obtain ⟨_, t2, k2, h2⟩ := Proc.bind_eq_ok.mp h2
    cases k2
    obtain ⟨_, t3, k3, h2⟩ := Proc.bind_eq_ok.mp h2
    obtain ⟨pa, pc, pp, pcfg⟩ := latchPulse_eq_ok k3
    obtain ⟨_, t4, k4, h2⟩ := Proc.bind_eq_ok.mp h2
    cases k4
    obtain ⟨_, t5, k5, h2⟩ := Proc.bind_eq_ok.mp h2
    cases k5
    obtain ⟨_, t6, k6, h2⟩ := Proc.bind_eq_ok.mp h2
    cases k6
    obtain ⟨_, t7, k7, h2⟩ := Proc.bind_eq_ok.mp h2
    cases k7
    obtain ⟨r, t8, k8, h2⟩ := Proc.bind_eq_ok.mp h2
    obtain ⟨_, t9, k9, last⟩ := Proc.bind_eq_ok.mp h2
    have b8 := within_readCsr (((((t3.setPhase .latched1).setAdapterMode m).emit (.delay tDwellUs)).setPhase
      .desiredModeSelected))
    rw [show readCsr (((((t3.setPhase .latched1).setAdapterMode m).emit (.delay tDwellUs)).setPhase
      .desiredModeSelected)) = _ from k8] at b8
    have b8 : BusOnly _ t8 := b8
    have e9 : t9 = t8 := by
      unfold require at k9
      split at k9 <;> cases k9
      rfl
    subst e9
    cases last
    refine ⟨?_, ?_, ?_, ?_⟩
    · show t9.a = _
      rw [b8.a]
      show Adapter.mk m t3.a.streaming = _
      rw [pa]
      show Adapter.mk m t1.a.streaming = _
      rw [b1.a]
    · show t9.c.mode = _
      rw [b8.c]
      show t3.c.mode = _
      rw [pc]
      show t1.c.mode = _
      rw [b1.c, hm1]
    · show t9.p = _
      rw [b8.p]
      show t3.p = _
      rw [pp]
      show Pins.mk t1.p.reset false = _
      rw [b1.p, hp1]
    · show t9.cfg = _
      rw [b8.cfg]
      show t3.cfg = _
      rw [pcfg]
      exact b1.cfg
  obtain ⟨ha2, hm2, hp2, hc2⟩ := part2
  obtain ⟨eff, s3, h3, h⟩ := Proc.bind_eq_ok.mp h
  rcases configureClock_cases ref mult s2 with ⟨e, -, h'⟩ | ⟨eff', hv, ⟨t', ht, h'⟩ | ⟨t', ht, h', hmode, hstr⟩⟩ <;>
    rw [h'] at h3 <;> cases h3
  obtain ⟨_, s4, h4, h⟩ := Proc.bind_eq_ok.mp h
  cases h4
  obtain ⟨_, s5, h5, h⟩ := Proc.bind_eq_ok.mp h
  obtain ⟨pa, pc, pp, pcfg⟩ := latchPulse_eq_ok h5
  obtain ⟨_, s6, h6, h⟩ := Proc.bind_eq_ok.mp h
  cases h6
  cases h
  rw [ha2] at hmode hstr
  simp only at hmode hstr
  refine ⟨hmode, by rw [← hs1, hstr], ?_, ?_, ?_, ⟨_, by rw [← hc1, ← hc2]; exact hv⟩⟩
  · show s5.a = _
    rw [pa]
    show t'.a = _
    rw [ht.a, ha2, hmode, hstr]
  · show ({ s5.c with phase := .ready } : Controller) = _
    rw [pc]
    show Controller.mk .ready ref mult t'.c.mode = _
    rw [ht.c, hm2]
  · show s5.p = _
    rw [pp]
    show Pins.mk t'.p.reset false = _
    rw [ht.p, hp2]

end Sys2Proof.Machine
end

