-- ==== Sys2Proof/Laws/Memory.lean ====
section
/-!
SUPPORT. The profile buffer: a read after a write, a write leaves every other address alone, and every operation keeps the
canonical form.
-/

namespace Sys2Proof.Machine

/-- Reading the address just written gives the byte; every other address reads as before. -/
@[simp] theorem Memory.read?_write (m : Memory) (a x : Nat) (b : Byte) :
    (m.write a b).read? x = if a = x then some b else m.read? x := by
  induction m with
  | nil => rfl
  | cons kc m ih =>
    obtain ⟨k, c⟩ := kc
    simp only [Memory.write]
    split
    · rfl
    · split
      · rename_i h
        subst h
        simp only [Memory.read?]
        split <;> rfl
      · simp only [Memory.read?, ih]
        split <;> split <;> simp_all

/-- A run of bytes written at an address: the addresses of the run read as the run, every other as before. -/
theorem Memory.read?_writeBytes (m : Memory) (a x : Nat) (bs : List Byte) :
    (m.writeBytes a bs).read? x = if a ≤ x ∧ x < a + bs.length then bs[x - a]? else m.read? x := by
  induction bs generalizing m a with
  | nil =>
    rw [if_neg (by simp)]
    rfl
  | cons b bs ih =>
    rw [Memory.writeBytes, ih, Memory.read?_write]
    by_cases h : a = x
    · subst h
      simp
    · by_cases h' : a + 1 ≤ x ∧ x < a + 1 + bs.length
      · rw [if_pos h', if_pos (by simp; omega), show x - a = (x - (a + 1)) + 1 by omega]
        simp
      · rw [if_neg h', if_neg h, if_neg (by simp; omega)]

theorem Memory.wf_iff (m : Memory) :
    m.wf = true ↔ m.Pairwise (fun x y => x.1 < y.1) ∧ ∀ x ∈ m, x.1 < profileCap := by
  simp [Memory.wf]

/-- The addresses of a memory after a write are the old ones and the new one. -/
theorem Memory.mem_write {m : Memory} {a : Nat} {b : Byte} {y : Host.Cell} (h : y ∈ m.write a b) :
    y.1 = a ∨ y ∈ m := by
  induction m with
  | nil =>
    simp only [Memory.write, List.mem_singleton] at h
    exact .inl (by rw [h])
  | cons kc m ih =>
    obtain ⟨k, c⟩ := kc
    simp only [Memory.write] at h
    split at h
    · rcases List.mem_cons.mp h with rfl | h
      · exact .inl rfl
      · exact .inr h
    · split at h
      · rcases List.mem_cons.mp h with rfl | h
        · exact .inl rfl
        · exact .inr (List.mem_cons_of_mem _ h)
      · rcases List.mem_cons.mp h with rfl | h
        · exact .inr List.mem_cons_self
        · exact (ih h).imp_right (List.mem_cons_of_mem _)

/-- A write inside the buffer keeps the canonical form. -/
theorem Memory.wf_write {m : Memory} {a : Nat} {b : Byte} (hm : m.wf = true) (ha : a < profileCap) :
    (m.write a b).wf = true := by
  rw [Memory.wf_iff] at hm ⊢
  refine ⟨?_, fun y hy => (Memory.mem_write hy).elim (fun h => h ▸ ha) (hm.2 y)⟩
  have hp := hm.1
  clear hm
  induction m with
  | nil => simp [Memory.write]
  | cons kc m ih =>
    obtain ⟨k, c⟩ := kc
    rw [List.pairwise_cons] at hp
    simp only [Memory.write]
    split
    · rename_i h
      refine List.pairwise_cons.mpr ⟨?_, List.pairwise_cons.mpr hp⟩
      intro y hy
      rcases List.mem_cons.mp hy with rfl | hy
      · exact h
      · exact Nat.lt_trans h (hp.1 y hy)
    · split
      · rename_i h
        subst h
        exact List.pairwise_cons.mpr hp
      · refine List.pairwise_cons.mpr ⟨fun y hy => ?_, ih hp.2⟩
        rcases Memory.mem_write hy with h | hy
        · show k < y.1
          omega
        · exact hp.1 y hy

/-- A run of bytes written inside the buffer keeps the canonical form. -/
theorem Memory.wf_writeBytes {m : Memory} {a : Nat} {bs : List Byte} (hm : m.wf = true)
    (ha : a + bs.length ≤ profileCap) : (m.writeBytes a bs).wf = true := by
  induction bs generalizing m a with
  | nil => exact hm
  | cons b bs ih =>
    rw [List.length_cons] at ha
    exact ih (Memory.wf_write hm (by omega)) (by omega)

/-- The buffer at the start of a run is in canonical form. -/
theorem Memory.wf_reset : State.reset.q.buf.wf = true := rfl

/-- Two memories in canonical form that read the same are the same data. -/
theorem Memory.eq_of_read? : ∀ {m n : Memory}, m.wf = true → n.wf = true → (∀ a, m.read? a = n.read? a) → m = n := by
  have lookup : ∀ {m : Memory} {k : Nat}, (∀ y ∈ m, k < y.1) → m.read? k = none := by
    intro m k h
    induction m with
    | nil => rfl
    | cons kc m ih =>
      have := h kc List.mem_cons_self
      simp only [Memory.read?]
      rw [if_neg (by omega)]
      exact ih fun y hy => h y (List.mem_cons_of_mem _ hy)
  intro m
  induction m with
  | nil =>
    rintro (_ | ⟨⟨k, c⟩, n⟩) - - h
    · rfl
    · simpa [Memory.read?] using h k
  | cons kc m ih =>
    obtain ⟨k, c⟩ := kc
    rintro (_ | ⟨⟨k', c'⟩, n⟩) hm hn h
    · simpa [Memory.read?] using h k
    · rw [Memory.wf_iff, List.pairwise_cons] at hm hn
      obtain rfl : k = k' := by
        rcases Nat.lt_trichotomy k k' with hk | hk | hk
        · have := h k
          rw [lookup (m := (k', c') :: n) (k := k) (by
            intro y hy
            rcases List.mem_cons.mp hy with rfl | hy
            · exact hk
            · exact Nat.lt_trans hk (hn.1.1 y hy))] at this
          simp [Memory.read?] at this
        · exact hk
        · have := h k'
          rw [lookup (m := (k, c) :: m) (k := k') (by
            intro y hy
            rcases List.mem_cons.mp hy with rfl | hy
            · exact hk
            · exact Nat.lt_trans hk (hm.1.1 y hy))] at this
          simp [Memory.read?] at this
      obtain rfl : c = c' := by simpa [Memory.read?] using h k
      congr 1
      refine ih ((Memory.wf_iff _).mpr ⟨hm.1.2, fun y hy => hm.2 y (List.mem_cons_of_mem _ hy)⟩)
        ((Memory.wf_iff _).mpr ⟨hn.1.2, fun y hy => hn.2 y (List.mem_cons_of_mem _ hy)⟩) fun a => ?_
      by_cases ha : k = a
      · subst ha
        rw [lookup (fun y hy => hm.1.1 y hy), lookup (fun y hy => hn.1.1 y hy)]
      · simpa [Memory.read?, ha] using h a

/-! ## The bytes below the cursor -/

@[simp] theorem Memory.bytesBelow_length (m : Memory) (n : Nat) : (m.bytesBelow n).length = n := by
  simp [Memory.bytesBelow]

theorem Memory.byteAt_writeBytes (m : Memory) (a x : Nat) (bs : List Byte) :
    (m.writeBytes a bs).byteAt x = if h : a ≤ x ∧ x < a + bs.length then bs[x - a]'(by omega) else m.byteAt x := by
  unfold Memory.byteAt
  rw [Memory.read?_writeBytes]
  split
  · rename_i h
    rw [List.getElem?_eq_getElem (by omega)]
    rfl
  · rfl

/-- Appending a run at the cursor appends it to the bytes below the cursor. -/
theorem Memory.bytesBelow_append (m : Memory) (n : Nat) (bs : List Byte) :
    (m.writeBytes n bs).bytesBelow (n + bs.length) = m.bytesBelow n ++ bs := by
  apply List.ext_getElem
  · simp
  · intro k h1 h2
    simp only [Memory.bytesBelow, List.getElem_map, List.getElem_range]
    rw [Memory.byteAt_writeBytes]
    split
    · rename_i h
      rw [List.getElem_append_right (by simp; omega)]
      simp
    · rename_i h
      simp only [Memory.bytesBelow_length, List.length_append] at h2
      rw [List.getElem_append_left (by simp; omega)]
      simp

end Sys2Proof.Machine
end

