-- ==== Sys2Proof/Laws/Profile.lean ====
section
/-!
SUPPORT. What the profile commands append: every one appends one run of bytes at the cursor.
-/

namespace Sys2Proof.Machine

theorem Memory.writeBytes_append (m : Memory) (a : Nat) (xs ys : List Byte) :
    (m.writeBytes a xs).writeBytes (a + xs.length) ys = m.writeBytes a (xs ++ ys) := by
  induction xs generalizing m a with
  | nil => rfl
  | cons x xs ih =>
    simp only [Memory.writeBytes, List.length_cons, List.cons_append]
    rw [← ih, show a + (xs.length + 1) = a + 1 + xs.length by omega]

/-- The profile with a run of bytes appended at the cursor. -/
def Profile.append (q : Profile) (bs : List Byte) : Profile :=
  { q with buf := q.buf.writeBytes q.cursor bs, cursor := q.cursor + bs.length }

variable (q : Profile) (bs cs : List Byte)

@[simp] theorem Profile.append_nil : q.append [] = q := rfl

@[simp] theorem Profile.append_append : (q.append bs).append cs = q.append (bs ++ cs) := by
  simp [Profile.append, Memory.writeBytes_append, Nat.add_assoc]

@[simp] theorem Profile.append_cursor : (q.append bs).cursor = q.cursor + bs.length := rfl
@[simp] theorem Profile.append_mode : (q.append bs).mode = q.mode := rfl
@[simp] theorem Profile.append_status : (q.append bs).status = q.status := rfl

@[simp] theorem Profile.append_bytes : (q.append bs).bytes = q.bytes ++ bs := Memory.bytesBelow_append _ _ _

/-- Outside the appended run the buffer reads as before. -/
theorem Profile.append_read? (a : Nat) (h : a < q.cursor ∨ q.cursor + bs.length ≤ a) :
    (q.append bs).buf.read? a = q.buf.read? a := by
  show (q.buf.writeBytes q.cursor bs).read? a = _
  rw [Memory.read?_writeBytes, if_neg (by omega)]

/-- Appending inside the capacity keeps an unfinished profile's shape. -/
theorem Profile.WF.append {q : Profile} (h : q.WF) {bs : List Byte} (hn : q.cursor + bs.length ≤ profileCap)
    (hs : q.status = .finalized → bs.length % 4 = 0) : (q.append bs).WF := by
  refine ⟨hn, Memory.wf_writeBytes h.buf_wf hn, fun a => ?_, fun hf => ?_⟩
  · show ((q.buf.writeBytes q.cursor bs).read? a).isSome = decide (a < q.cursor + bs.length)
    rw [Memory.read?_writeBytes]
    split
    · rw [List.getElem?_eq_getElem (by omega)]
      simp
      omega
    · rw [h.written]
      simp only [decide_eq_decide]
      omega
  · have := h.aligned hf
    have := hs hf
    show (q.cursor + bs.length) % 4 = 0
    omega

@[simp] theorem Profile.addWrite_eq (a : RegAddr) (p : List Byte) :
    q.addWrite a p = q.append (writeByte a :: p) := by
  simp [Profile.addWrite, Profile.append]
  omega

@[simp] theorem Profile.addReg_eq (cfg : Config) (r : Reg) (p : List Byte) :
    q.addReg cfg r p = q.append (writeByte (regAddr cfg r) :: p) := Profile.addWrite_eq _ _ _

/-- The record of a value that is present. -/
def optRecord {α : Type} (cfg : Config) (r : Reg) (payload : α → List Byte) : Option α → List Byte
  | some v => writeByte (regAddr cfg r) :: payload v
  | none => []

@[simp] theorem Profile.addOpt_eq {α : Type} (cfg : Config) (r : Reg) (payload : α → List Byte) (v : Option α) :
    q.addOpt cfg r payload v = q.append (optRecord cfg r payload v) := by
  cases v <;> simp [Profile.addOpt, optRecord]

/-- The records of PROFILE_UPDATE_CHANNELS. -/
def updateRecords (cfg : Config) (m : Mode) (cs : ChSet) (ftw : Option Word) (pow : Option (BitVec 16))
    (acr : Option Word) : List Byte :=
  [writeByte (regAddr cfg .csr), csrByte cfg m cs] ++ optRecord cfg .cftw0 ftwPayload ftw ++
    optRecord cfg .cpow0 powPayload pow ++ optRecord cfg .acr acrPayload acr

theorem Profile.addUpdate_eq (cfg : Config) (cs : ChSet) (ftw : Option Word) (pow : Option (BitVec 16))
    (acr : Option Word) : q.addUpdate cfg cs ftw pow acr = q.append (updateRecords cfg q.mode cs ftw pow acr) := by
  simp [Profile.addUpdate, updateRecords]

@[simp] theorem updateRecords_length (cfg : Config) (m : Mode) (cs : ChSet) (ftw : Option Word)
    (pow : Option (BitVec 16)) (acr : Option Word) :
    (updateRecords cfg m cs ftw pow acr).length = updateNeed ftw pow acr := by
  cases ftw <;> cases pow <;> cases acr <;>
    simp [updateRecords, updateNeed, optRecord, ftwPayload, powPayload, acrPayload]

/-- The pad records of PROFILE_FINALIZE. -/
def padRecords (cfg : Config) (q : Profile) : List Byte :=
  (if q.cursor % 2 = 1 then writeByte (regAddr cfg .lsrr) :: lsrrPad cfg else []) ++
  (if (q.cursor + pad1 q.cursor) % 4 = 2 then [writeByte (regAddr cfg .csr), csrPad cfg q.mode] else [])

theorem Profile.padded_eq (cfg : Config) : q.padded cfg = q.append (padRecords cfg q) := by
  unfold Profile.padded padRecords pad1
  by_cases h : q.cursor % 2 = 1
  · simp only [if_pos h, Profile.addReg_eq, Profile.append_cursor, Profile.append_mode]
    have hl : (writeByte (regAddr cfg .lsrr) :: lsrrPad cfg).length = 3 := by simp [lsrrPad]
    rw [hl]
    split <;> simp
  · simp only [if_neg h, Nat.add_zero, List.nil_append]
    split <;> simp

theorem padRecords_length (cfg : Config) : (padRecords cfg q).length = pad1 q.cursor + pad2 q.cursor := by
  unfold padRecords pad2
  rw [List.length_append]
  congr 1
  · unfold pad1
    split <;> simp [lsrrPad]
  · split <;> simp

/-- After the padding the cursor is a multiple of 4 (43_profile.md R204). -/
theorem padded_aligned (n : Nat) : (n + (pad1 n + pad2 n)) % 4 = 0 := by
  unfold pad2 pad1
  split_ifs <;> omega

theorem Memory.read?_of_bytes {m : Memory} {n : Nat} (h : ∀ a, (m.read? a).isSome = decide (a < n)) {a : Nat}
    (ha : a < n) : m.read? a = some (m.byteAt a) := by
  have := h a
  rw [decide_eq_true ha] at this
  obtain ⟨b, hb⟩ := Option.isSome_iff_exists.mp this
  simp [Memory.byteAt, hb]

/-! ## The word view (20_memory.md R55) -/

theorem wordsOf_length (e : Endian) : ∀ bs : List Byte, (wordsOf e bs).length = bs.length / 4
  | [] => rfl
  | [_] => by simp [wordsOf]
  | [_, _] => by simp [wordsOf]
  | [_, _, _] => by simp [wordsOf]
  | _ :: _ :: _ :: _ :: rest => by
    simp [wordsOf, wordsOf_length e rest]
    omega

/-- The k-th word is made of the k-th group of four bytes. -/
theorem wordsOf_get (e : Endian) : ∀ (bs : List Byte) (k : Nat), 4 * k + 4 ≤ bs.length → ∃ b0 b1 b2 b3 : Byte,
    (bs.drop (4 * k)).take 4 = [b0, b1, b2, b3] ∧ (wordsOf e bs)[k]? = some (wordOf e b0 b1 b2 b3)
  | [], k, h => by simp at h
  | [_], k, h => by simp at h
  | [_, _], k, h => by simp at h
  | [_, _, _], k, h => by simp at h
  | b0 :: b1 :: b2 :: b3 :: rest, 0, _ => ⟨b0, b1, b2, b3, rfl, rfl⟩
  | b0 :: b1 :: b2 :: b3 :: rest, k + 1, h => by
    obtain ⟨c0, c1, c2, c3, h1, h2⟩ := wordsOf_get e rest k (by simp at h; omega)
    refine ⟨c0, c1, c2, c3, ?_, ?_⟩
    · rw [show 4 * (k + 1) = 4 * k + 1 + 1 + 1 + 1 by ring]
      simpa using h1
    · simpa [wordsOf] using h2

end Sys2Proof.Machine
end

