-- ==== Sys2Proof/Laws/Transport.lean ====
section
/-!
SUPPORT. What the adapter's transactions do: the run of each kind of transaction, and which errors and refusals each of its
checks can give.
-/

namespace Sys2Proof.Machine

variable {s : State}

/-! ## One transaction -/

theorem sendWrite_ok {w : WireForm × List Byte} (h : s.drawAt 0 s.trace ≠ .fail) :
    complete (sendWrite w) s =
      .next ((s.after 1 (s.env.chip.receive s.cfg s.trace w.1 w.2) [.write w.2 true]).report (.ok .none)) := by
  simp [complete_def, sendWrite, busWrite_ok w.1 w.2 h]

theorem sendWrite_fail {w : WireForm × List Byte} (h : s.drawAt 0 s.trace = .fail) :
    complete (sendWrite w) s =
      .next ((s.after 1 (s.env.chip.receivePart s.cfg s.trace w.1 w.2) [.write w.2 false]).report (.err .aBus)) := by
  simp [complete_def, sendWrite, busWrite_fail w.1 w.2 h]

theorem sendRead_ok {header : Byte} {n : Nat} {d : List Byte}
    (h : answerOf s.cfg s.trace s.env.chip (s.drawAt 0 s.trace) header n = some d) :
    complete (sendRead n header) s =
      .next ((s.after 1 s.env.chip [.read header n (some d)]).report (.ok (.bytes d))) := by
  simp [complete_def, sendRead, busRead_some h]

theorem sendRead_fail {header : Byte} {n : Nat}
    (h : answerOf s.cfg s.trace s.env.chip (s.drawAt 0 s.trace) header n = none) :
    complete (sendRead n header) s = .next ((s.after 1 s.env.chip [.read header n none]).report (.err .aBus)) := by
  simp [complete_def, sendRead, busRead_none h]

theorem within_sendWrite (w : WireForm × List Byte) : Within BusOnly (sendWrite w) :=
  Within.bind BusOnly.trans (within_busWrite _ _) fun _ => Within.pure BusOnly.refl _

theorem within_sendRead (n : Nat) (header : Byte) : Within BusOnly (sendRead n header) :=
  Within.bind BusOnly.trans (within_busRead _ _) fun _ => Within.pure BusOnly.refl _

/-! ## What the checks can refuse and raise -/

theorem gated_refused {α : Type} {g : Gate α} {body : α → Proc Value} {r : Refusal} (h : gated g body s = .refused r) :
    g = .refuse r := by
  cases g <;> simp [gated, complete] at h
  subst h
  rfl

theorem narrowGate_refuse {cfg : Config} {a : Byte} {d : List Byte} {r : Refusal} (h : narrowGate cfg a d = .refuse r) :
    r = .illFormedTransaction := by
  unfold narrowGate at h
  split_ifs at h
  cases h
  rfl

theorem narrowGate_raise {cfg : Config} {a : Byte} {d : List Byte} {e : Err} (h : narrowGate cfg a d = .raise e) :
    e = .aLength := by
  unfold narrowGate at h
  split_ifs at h
  cases h
  rfl

theorem wideGate_refuse {cfg : Config} {st : Bool} {a : Byte} {d : List Byte} {r : Refusal}
    (h : wideGate cfg st a d = .refuse r) : r = .illFormedTransaction := by
  unfold wideGate at h
  split_ifs at h
  cases h
  rfl

theorem wideGate_raise {cfg : Config} {st : Bool} {a : Byte} {d : List Byte} {e : Err}
    (h : wideGate cfg st a d = .raise e) : e = .aInvalidState := by
  unfold wideGate at h
  split_ifs at h
  cases h
  rfl

theorem wideReadGate_refuse {cfg : Config} {st : Bool} {a : Byte} {n : Nat} {r : Refusal}
    (h : wideReadGate cfg st a n = .refuse r) : r = .illFormedTransaction := by
  unfold wideReadGate at h
  split_ifs at h
  cases h
  rfl

theorem wideReadGate_raise {cfg : Config} {st : Bool} {a : Byte} {n : Nat} {e : Err}
    (h : wideReadGate cfg st a n = .raise e) : e = .aInvalidState := by
  unfold wideReadGate at h
  split_ifs at h
  cases h
  rfl

theorem writeGate_refuse {a : Byte} {d : List Byte} {r : Refusal} (h : writeGate s a d = .refuse r) :
    r = .illFormedTransaction := by
  unfold writeGate at h
  split_ifs at h
  split at h
  · exact narrowGate_refuse h
  · exact wideGate_refuse h
  · cases h
  · cases h

theorem writeGate_raise {a : Byte} {d : List Byte} {e : Err} (h : writeGate s a d = .raise e) :
    e = .aInvalidAddress ∨ e = .aInvalidState ∨ e = .aLength := by
  unfold writeGate at h
  split_ifs at h
  · cases h
    simp
  split at h
  · simp [narrowGate_raise h]
  · simp [wideGate_raise h]
  all_goals cases h; simp

theorem readGate_refuse {a : Byte} {n : Nat} {r : Refusal} (h : readGate s a n = .refuse r) :
    r = .illFormedTransaction := by
  unfold readGate at h
  split_ifs at h
  split at h
  · exact wideReadGate_refuse h
  all_goals cases h

theorem readGate_raise {a : Byte} {n : Nat} {e : Err} (h : readGate s a n = .raise e) :
    e = .aInvalidAddress ∨ e = .aInvalidState := by
  unfold readGate at h
  split_ifs at h
  · cases h
    simp
  split at h
  · simp [wideReadGate_raise h]
  all_goals cases h; simp

theorem streamGate_refuse {b : List Byte} {r : Refusal} (h : streamGate s b = .refuse r) : r = .unalignedStream := by
  unfold streamGate at h
  split_ifs at h
  cases h
  rfl

theorem streamGate_raise {b : List Byte} {e : Err} (h : streamGate s b = .raise e) : e = .aInvalidState := by
  unfold streamGate at h
  split_ifs at h
  cases h
  rfl

theorem recordGate_refuse {a : RegAddr} {b : List Byte} {r : Refusal} (h : recordGate s a b = .refuse r) :
    r = .illFormedTransaction := by
  unfold recordGate at h
  split_ifs at h
  cases h
  rfl

/-- A command whose checks have been made and that is not refused ends with one result, after a run of its body or after
nothing at all. -/
theorem gated_next {α : Type} {g : Gate α} {body : α → Proc Value} {R : State → State → Prop} (refl : ∀ s, R s s)
    (hb : ∀ v, Within R (body v)) {t : State} (h : gated g body s = .next t) : ∃ u r, R s u ∧ t = u.report r := by
  cases g with
  | refuse r => cases h
  | raise e =>
    cases h
    exact ⟨s, .err e, refl s, rfl⟩
  | pass v =>
    obtain ⟨r, hr⟩ := complete_eq_report (body v) s
    refine ⟨endState (body v s), r, hb v s, ?_⟩
    have : complete (body v) s = .next t := h
    rw [hr] at this
    cases this
    rfl

end Sys2Proof.Machine
end

