-- ==== Sys2Proof/Laws/Exec.lean ====
section
/-!
SUPPORT. The inversion of `exec`: every refusal an instruction can end in, and everything a next state can be.
-/

namespace Sys2Proof.Machine

open Sys2Proof

variable {s t : State}

/-- The refusals, by family. -/
theorem exec_refused_cases {i : Instr} {r : Refusal} (h : exec i s = .refused r) :
    (i.isCodec = true ∧ r = .nonPositiveSystemClock) ∨
    (i.isTransport = true ∧ hostOwns s.c.phase = false ∧ r = .transportOwned) ∨
    (i.isTransport = true ∧ hostOwns s.c.phase = true ∧ (r = .illFormedTransaction ∨ r = .unalignedStream)) ∨
    (i.isSteady = true ∧ i.wellFormed s.cfg = false ∧ r = .illegalOperand) ∨
    (i.isSteady = true ∧ s.c.phase ≠ .ready ∧ r = .notReady) ∨
    (i.isSteady = true ∧ s.c.phase = .ready ∧ s.systemHz ≤ 0 ∧ r = .nonPositiveSystemClock) ∨
    (i.isInit = true ∧ hostOwns s.c.phase = false ∧ r = .controllerExists) ∨
    (i.isProfile = true ∧ (r = .illegalOperand ∨ (s.q.status ≠ .opened ∧ r = .noOpenProfile))) ∨
    (i.isWire = true ∧ ((hostOwns s.c.phase = false ∧ r = .transportOwned) ∨ r = .illFormedTransaction)) := by
  have owned : ∀ {k : StepOutcome}, ifHostOwns s k = .refused r →
      (hostOwns s.c.phase = false ∧ r = .transportOwned) ∨ (hostOwns s.c.phase = true ∧ k = .refused r) := by
    intro k h
    unfold ifHostOwns at h
    split at h
    · exact .inr ⟨‹_›, h⟩
    · rename_i ho
      cases h
      exact .inl ⟨Bool.eq_false_iff.mpr ho, rfl⟩
  have ready : ∀ {k : StepOutcome}, ifReady s k = .refused r →
      (s.c.phase ≠ .ready ∧ r = .notReady) ∨ (s.c.phase = .ready ∧ k = .refused r) := by
    intro k h
    unfold ifReady at h
    split at h
    · exact .inr ⟨‹_›, h⟩
    · cases h
      exact .inl ⟨‹_›, rfl⟩
  have opened : ∀ {k : StepOutcome}, ifProfileOpen s k = .refused r →
      (s.q.status ≠ .opened ∧ r = .noOpenProfile) ∨ k = .refused r := by
    intro k h
    unfold ifProfileOpen at h
    split at h
    · exact .inr h
    · cases h
      exact .inl ⟨‹_›, rfl⟩
  have nonEmpty : ∀ {cs : ChSet} {k : StepOutcome}, ifNonEmpty cs k = .refused r →
      (cs = 0 ∧ r = .illegalOperand) ∨ k = .refused r := by
    intro cs k h
    unfold ifNonEmpty at h
    split at h
    · cases h
      exact .inl ⟨‹_›, rfl⟩
    · exact .inr h
  cases i with
  | validateClocking => cases h
  | freqToFtw hz sys =>
    have h : execFreqToFtw hz sys s = _ := h
    unfold execFreqToFtw at h
    split at h <;> cases h
    exact .inl ⟨rfl, rfl⟩
  | ftwToFreq => cases h
  | phaseToPow => cases h
  | powToPhase => cases h
  | ampToAcr => cases h
  | acrToAmp => cases h
  | configureMode =>
    rcases owned h with h | ⟨-, h⟩
    · exact .inr (.inl ⟨rfl, h⟩)
    · cases h
  | startStream =>
    rcases owned h with h | ⟨-, h⟩
    · exact .inr (.inl ⟨rfl, h⟩)
    · cases h
  | xportWrite =>
    rcases owned h with h | ⟨ho, h⟩
    · exact .inr (.inl ⟨rfl, h⟩)
    · exact .inr (.inr (.inl ⟨rfl, ho, .inl (writeGate_refuse (gated_refused h))⟩))
  | xportRead =>
    rcases owned h with h | ⟨ho, h⟩
    · exact .inr (.inl ⟨rfl, h⟩)
    · exact .inr (.inr (.inl ⟨rfl, ho, .inl (readGate_refuse (gated_refused h))⟩))
  | streamWrite =>
    rcases owned h with h | ⟨ho, h⟩
    · exact .inr (.inl ⟨rfl, h⟩)
    · exact .inr (.inr (.inl ⟨rfl, ho, .inr (streamGate_refuse (gated_refused h))⟩))
  | init m ref mult =>
    have h : execInit m ref mult s = _ := h
    unfold execInit at h
    split at h
    · cases h
    · rename_i ho
      cases h
      exact .inr (.inr (.inr (.inr (.inr (.inr (.inl ⟨rfl, Bool.eq_false_iff.mpr ho, rfl⟩))))))
  | setFrequency cs hz =>
    rcases nonEmpty h with ⟨rfl, hr⟩ | h
    · exact .inr (.inr (.inr (.inl ⟨rfl, rfl, hr⟩)))
    · rcases ready h with h | ⟨hr, h⟩
      · exact .inr (.inr (.inr (.inr (.inl ⟨rfl, h⟩))))
      · split at h <;> cases h
        exact .inr (.inr (.inr (.inr (.inr (.inl ⟨rfl, hr, ‹_›, rfl⟩)))))
  | setPhase cs turns =>
    rcases nonEmpty h with ⟨rfl, hr⟩ | h
    · exact .inr (.inr (.inr (.inl ⟨rfl, rfl, hr⟩)))
    · rcases ready h with h | ⟨-, h⟩
      · exact .inr (.inr (.inr (.inr (.inl ⟨rfl, h⟩))))
      · cases h
  | setAmplitude cs amp =>
    rcases nonEmpty h with ⟨rfl, hr⟩ | h
    · exact .inr (.inr (.inr (.inl ⟨rfl, rfl, hr⟩)))
    · rcases ready h with h | ⟨-, h⟩
      · exact .inr (.inr (.inr (.inr (.inl ⟨rfl, h⟩))))
      · cases h
  | getFrequency =>
    rcases ready h with h | ⟨-, h⟩
    · exact .inr (.inr (.inr (.inr (.inl ⟨rfl, h⟩))))
    · cases h
  | getPhase =>
    rcases ready h with h | ⟨-, h⟩
    · exact .inr (.inr (.inr (.inr (.inl ⟨rfl, h⟩))))
    · cases h
  | getAmplitude =>
    rcases ready h with h | ⟨-, h⟩
    · exact .inr (.inr (.inr (.inr (.inl ⟨rfl, h⟩))))
    · cases h
  | configureSystemClock =>
    rcases ready h with h | ⟨-, h⟩
    · exact .inr (.inr (.inr (.inr (.inl ⟨rfl, h⟩))))
    · cases h
  | selfTest =>
    rcases ready h with h | ⟨-, h⟩
    · exact .inr (.inr (.inr (.inr (.inl ⟨rfl, h⟩))))
    · cases h
  | freeze =>
    rcases ready h with h | ⟨-, h⟩
    · exact .inr (.inr (.inr (.inr (.inl ⟨rfl, h⟩))))
    · cases h
  | profileNew => cases h
  | profileUpdateChannels cs ftw pow acr =>
    refine .inr (.inr (.inr (.inr (.inr (.inr (.inr (.inl ⟨rfl, ?_⟩)))))))
    rcases nonEmpty h with ⟨-, h⟩ | h
    · exact .inl h
    · rcases opened h with h | h
      · exact .inr h
      · cases h
  | profileSetSystemClock ref mult =>
    refine .inr (.inr (.inr (.inr (.inr (.inr (.inr (.inl ⟨rfl, ?_⟩)))))))
    rcases opened h with h | h
    · exact .inr h
    · split at h <;> cases h
      exact .inl rfl
  | profileFinalize =>
    refine .inr (.inr (.inr (.inr (.inr (.inr (.inr (.inl ⟨rfl, ?_⟩)))))))
    rcases opened h with h | h
    · exact .inr h
    · cases h
  | frameWideWrite a p =>
    refine .inr (.inr (.inr (.inr (.inr (.inr (.inr (.inr ⟨rfl, ?_⟩)))))))
    rcases owned h with h | ⟨-, h⟩
    · exact .inl h
    · have h := gated_refused h
      split at h
      · exact .inr (wideGate_refuse h)
      · cases h
  | frameWideRead a =>
    refine .inr (.inr (.inr (.inr (.inr (.inr (.inr (.inr ⟨rfl, ?_⟩)))))))
    rcases owned h with h | ⟨-, h⟩
    · exact .inl h
    · have h := gated_refused h
      split at h
      · exact .inr (wideReadGate_refuse h)
      · cases h
  | frameNarrowWrite a p =>
    refine .inr (.inr (.inr (.inr (.inr (.inr (.inr (.inr ⟨rfl, ?_⟩)))))))
    rcases owned h with h | ⟨-, h⟩
    · exact .inl h
    · have h := gated_refused h
      split at h
      · exact .inr (narrowGate_refuse h)
      · cases h
  | profileRecord a p =>
    refine .inr (.inr (.inr (.inr (.inr (.inr (.inr (.inr ⟨rfl, ?_⟩)))))))
    rcases owned h with h | ⟨-, h⟩
    · exact .inl h
    · exact .inr (recordGate_refuse (gated_refused h))

/-! ## Passing a gate -/

theorem ifHostOwns_next {k : StepOutcome} (h : ifHostOwns s k = .next t) : hostOwns s.c.phase = true ∧ k = .next t := by
  unfold ifHostOwns at h
  split at h
  · exact ⟨‹_›, h⟩
  · cases h

theorem ifReady_next {k : StepOutcome} (h : ifReady s k = .next t) : s.c.phase = .ready ∧ k = .next t := by
  unfold ifReady at h
  split at h
  · exact ⟨‹_›, h⟩
  · cases h

theorem ifProfileOpen_next {k : StepOutcome} (h : ifProfileOpen s k = .next t) :
    s.q.status = .opened ∧ k = .next t := by
  unfold ifProfileOpen at h
  split at h
  · exact ⟨‹_›, h⟩
  · cases h

theorem ifNonEmpty_next {cs : ChSet} {k : StepOutcome} (h : ifNonEmpty cs k = .next t) : k = .next t := by
  unfold ifNonEmpty at h
  split at h
  · cases h
  · exact h

/-! ## What a next state can be -/

/-- What the last state of an instruction's own procedure can be, before its result is reported. -/
inductive Effect (s : State) (i : Instr) (u : State) : Prop
  /-- Bus transactions only, or nothing. -/
  | bus (hi : i.isInit = false) (hp : i.isProfile = false) (h : BusOnly s u)
  | mode (m : Mode) (hi : i = .configureMode m) (ho : hostOwns s.c.phase = true) (h : u = s.setAdapterMode m)
  | stream (hi : i = .startStream) (ho : hostOwns s.c.phase = true) (h : u = s.setStreaming true)
  | clock (ref eff : Rat) (mult : Byte) (v : State) (hi : i = .configureSystemClock ref mult)
      (hr : s.c.phase = .ready) (hb : BusOnly s v) (hv : validateClocking s.cfg ref mult = .ok eff)
      (h : u = v.setClock ref mult)
  | freeze (hi : i = .freeze) (hr : s.c.phase = .ready) (h : u = s.setPhase .frozen)
  | profile (q : Profile) (hi : i.isProfile = true) (h : u = s.setProfile q) (wf : s.q.WF → q.WF)
      (hm : (∃ m, i = .profileNew m) ∨ q.mode = s.q.mode)
      (hst : (∃ m, i = .profileNew m) ∨ i = .profileFinalize ∨ q.status = s.q.status)
  | failed (m : Mode) (ref : Rat) (mult : Byte) (hi : i = .init m ref mult) (ho : hostOwns s.c.phase = true)
      (h : BringupOnly m s u) (hc : u.c.phase = .failed)
  | up (ref eff : Rat) (mult : Byte) (hi : i = .init .fourBitSerial ref mult) (ho : hostOwns s.c.phase = true)
      (h : BringupOnly .fourBitSerial s u) (hs : s.a.streaming = false)
      (ha : u.a = { mode := .fourBitSerial, streaming := false })
      (hc : u.c = { phase := .ready, refHz := ref, mult := mult, mode := .fourBitSerial })
      (hp : u.p = { reset := false, update := false }) (hv : validateClocking s.cfg ref mult = .ok eff)

theorem profile_wf_opened {q : Profile} (h : q.WF) (ho : q.status = .opened) {bs : List Byte}
    (hn : q.cursor + bs.length ≤ profileCap) : (q.append bs).WF :=
  h.append hn fun hf => by rw [ho] at hf; cases hf

/-- A profile command that runs ends with a profile and a result, and nothing else changed. -/
theorem setProfile_self (s : State) : s.setProfile s.q = s := rfl

/-- Every instruction that ends in a next state reports one result after one of these effects. -/
theorem exec_next_cases {i : Instr} (h : exec i s = .next t) : ∃ u r, Effect s i u ∧ t = u.report r := by
  have owned := @ifHostOwns_next s t
  have ready := @ifReady_next s t
  have opened := @ifProfileOpen_next s t
  have nonEmpty := @ifNonEmpty_next t
  have bus : ∀ {body : Proc Value}, i.isInit = false → i.isProfile = false → Within BusOnly body →
      complete body s = .next t → ∃ u r, Effect s i u ∧ t = u.report r := by
    intro body hi hp hb h
    obtain ⟨r, hr⟩ := complete_eq_report body s
    rw [hr] at h
    cases h
    exact ⟨_, r, .bus hi hp (hb s), rfl⟩
  have gate : ∀ {α : Type} {g : Gate α} {body : α → Proc Value}, i.isInit = false → i.isProfile = false →
      (∀ v, Within BusOnly (body v)) → gated g body s = .next t → ∃ u r, Effect s i u ∧ t = u.report r := by
    intro α g body hi hp hb h
    obtain ⟨u, r, hu, rfl⟩ := gated_next BusOnly.refl hb h
    exact ⟨u, r, .bus hi hp hu, rfl⟩
  have pureB : ∀ v : Value, Within BusOnly (pure v : Proc Value) := fun v => Within.pure BusOnly.refl v
  have codec : ∀ {α : Type} (x : Except Err α) (f : α → Value), Within BusOnly (do let v ← orRaise x; return f v) :=
    fun x f => Within.bind BusOnly.trans (Within.orRaise BusOnly.refl x) fun _ => pureB _
  cases i with
  | validateClocking ref mult => exact bus rfl rfl (codec _ _) h
  | freqToFtw hz sys =>
    have h : execFreqToFtw hz sys s = _ := h
    unfold execFreqToFtw at h
    split at h
    · cases h
    · exact bus rfl rfl (codec _ _) h
  | ftwToFreq => exact bus rfl rfl (pureB _) h
  | phaseToPow => exact bus rfl rfl (pureB _) h
  | powToPhase => exact bus rfl rfl (pureB _) h
  | ampToAcr => exact bus rfl rfl (codec _ _) h
  | acrToAmp => exact bus rfl rfl (pureB _) h
  | configureMode m =>
    obtain ⟨ho, h⟩ := owned h
    cases h
    exact ⟨_, .ok .none, .mode m rfl ho rfl, rfl⟩
  | startStream =>
    obtain ⟨ho, h⟩ := owned h
    cases h
    exact ⟨_, .ok .none, .stream rfl ho rfl, rfl⟩
  | xportWrite => exact gate rfl rfl within_sendWrite (owned h).2
  | xportRead => exact gate rfl rfl (within_sendRead _) (owned h).2
  | streamWrite => exact gate rfl rfl within_sendWrite (owned h).2
  | init m ref mult =>
    have h : execInit m ref mult s = _ := h
    unfold execInit at h
    split at h
    · rename_i ho
      have hw := within_initSequence (m := m) ref mult s
      cases hx : initSequence m ref mult s with
      | ok v u =>
        rw [hx] at hw
        have hu : t = u.report (.ok .none) := by
          have : complete (orFailed (initSequence m ref mult)) s = .next (u.report (.ok .none)) := by
            simp [complete_def, orFailed, hx]
          rw [this] at h
          cases h
          rfl
        obtain ⟨rfl, hs, ha, hc, hp, eff, hv⟩ := initSequence_eq_ok hx
        exact ⟨u, _, .up ref eff mult rfl ho hw hs ha hc hp hv, hu⟩
      | error e u =>
        rw [hx] at hw
        have hw : BringupOnly m s u := hw
        have hu : t = (u.setPhase .failed).report (.err e) := by
          have : complete (orFailed (initSequence m ref mult)) s = .next ((u.setPhase .failed).report (.err e)) := by
            simp [complete_def, orFailed, hx]
          rw [this] at h
          cases h
          rfl
        have hf : BringupOnly m s (u.setPhase .failed) :=
          ⟨hw.cfg, hw.streaming, hw.mode, hw.q, hw.results, hw.inbox, hw.trace⟩
        exact ⟨_, _, .failed m ref mult rfl ho hf rfl, hu⟩
    · cases h
  | setFrequency cs hz =>
    obtain ⟨-, h⟩ := ready (nonEmpty h)
    split at h
    · cases h
    · exact bus rfl rfl (Within.bind BusOnly.trans (Within.orRaise BusOnly.refl _) fun _ =>
        Within.bind BusOnly.trans (within_modifyChannel _ _ _) fun _ => pureB _) h
  | getFrequency => exact bus rfl rfl (Within.bind BusOnly.trans (within_readChannel _ _) fun _ => pureB _) (ready h).2
  | setPhase =>
    exact bus rfl rfl (Within.bind BusOnly.trans (within_modifyChannel _ _ _) fun _ => pureB _) (ready (nonEmpty h)).2
  | getPhase => exact bus rfl rfl (Within.bind BusOnly.trans (within_readChannel _ _) fun _ => pureB _) (ready h).2
  | setAmplitude =>
    exact bus rfl rfl (Within.bind BusOnly.trans (Within.orRaise BusOnly.refl _) fun _ =>
        Within.bind BusOnly.trans (within_modifyChannel _ _ _) fun _ => pureB _) (ready (nonEmpty h)).2
  | getAmplitude => exact bus rfl rfl (Within.bind BusOnly.trans (within_readChannel _ _) fun _ => pureB _) (ready h).2
  | configureSystemClock ref mult =>
    obtain ⟨hr, h⟩ := ready h
    rw [complete_def, Proc.bind_run] at h
    rcases configureClock_cases ref mult s with ⟨e, hv, hx⟩ | ⟨eff, hv, ⟨u, hu, hx⟩ | ⟨u, hu, hx, -⟩⟩ <;> rw [hx] at h <;>
      cases h
    · exact ⟨s, .err e, .bus rfl rfl (BusOnly.refl s), rfl⟩
    · exact ⟨u, .err .interface, .bus rfl rfl hu, rfl⟩
    · exact ⟨_, .ok (.q eff), .clock ref eff mult u rfl hr hu hv rfl, rfl⟩
  | selfTest => exact bus rfl rfl within_selfTest (ready h).2
  | freeze =>
    obtain ⟨hr, h⟩ := ready h
    cases h
    exact ⟨_, .ok (.mode s.c.mode), .freeze rfl hr rfl, rfl⟩
  | profileNew m =>
    cases h
    exact ⟨_, .ok .none, .profile _ rfl rfl (fun _ => ⟨Nat.zero_le _, rfl, fun a => by simp [Memory.read?],
      fun hf => by cases hf⟩) (.inl ⟨m, rfl⟩) (.inl ⟨m, rfl⟩), rfl⟩
  | profileUpdateChannels cs ftw pow acr =>
    obtain ⟨ho, h⟩ := opened (nonEmpty h)
    rw [complete_def, Proc.bind_run] at h
    unfold requireRoom require at h
    by_cases hn : s.q.cursor + updateNeed ftw pow acr ≤ profileCap
    · simp only [decide_eq_true hn, if_true] at h
      cases h
      refine ⟨_, .ok .none, .profile _ rfl rfl (fun wf => ?_) (.inr (by rw [Profile.addUpdate_eq]; rfl))
        (.inr (.inr (by rw [Profile.addUpdate_eq]; rfl))), rfl⟩
      rw [Profile.addUpdate_eq]
      exact profile_wf_opened wf ho (by simpa using hn)
    · simp only [decide_eq_false hn] at h
      cases h
      exact ⟨_, .err .pOverflow, .profile s.q rfl (setProfile_self s).symm id (.inr rfl) (.inr (.inr rfl)), rfl⟩
  | profileSetSystemClock ref mult =>
    obtain ⟨ho, h⟩ := opened h
    split at h
    · cases h
    rw [complete_def, Proc.bind_run] at h
    unfold requireRoom require at h
    by_cases hn : s.q.cursor + 4 ≤ profileCap
    · simp only [decide_eq_true hn, if_true] at h
      cases h
      refine ⟨_, .ok (.q (effHz s.cfg ref mult)), .profile _ rfl rfl (fun wf => ?_)
        (.inr (by rw [Profile.addReg_eq]; rfl)) (.inr (.inr (by rw [Profile.addReg_eq]; rfl))), rfl⟩
      rw [Profile.addReg_eq]
      exact profile_wf_opened wf ho (by simpa [fr1Fresh] using hn)
    · simp only [decide_eq_false hn] at h
      cases h
      exact ⟨_, .err .pOverflow, .profile s.q rfl (setProfile_self s).symm id (.inr rfl) (.inr (.inr rfl)), rfl⟩
  | profileFinalize =>
    obtain ⟨ho, h⟩ := opened h
    rw [complete_def, Proc.bind_run] at h
    unfold requireRoom require at h
    by_cases hn : s.q.cursor + (pad1 s.q.cursor + pad2 s.q.cursor) ≤ profileCap
    · simp only [decide_eq_true hn, if_true] at h
      cases h
      refine ⟨_, _, .profile _ rfl rfl (fun wf => ?_) (.inr (by rw [Profile.padded_eq]; rfl)) (.inr (.inl rfl)), rfl⟩
      rw [Profile.padded_eq]
      have wf' := profile_wf_opened wf ho (bs := padRecords s.cfg s.q) (by rw [padRecords_length]; exact hn)
      refine ⟨wf'.cursor_le, wf'.buf_wf, wf'.written, fun _ => ?_⟩
      show (s.q.cursor + (padRecords s.cfg s.q).length) % 4 = 0
      rw [padRecords_length]
      exact padded_aligned _
    · simp only [decide_eq_false hn] at h
      cases h
      exact ⟨_, .err .pOverflow, .profile s.q rfl (setProfile_self s).symm id (.inr rfl) (.inr (.inr rfl)), rfl⟩
  | frameWideWrite => exact gate rfl rfl within_sendWrite (owned h).2
  | frameWideRead => exact gate rfl rfl (within_sendRead _) (owned h).2
  | frameNarrowWrite => exact gate rfl rfl within_sendWrite (owned h).2
  | profileRecord => exact gate rfl rfl within_sendWrite (owned h).2

end Sys2Proof.Machine
end

