-- ==== Sys2Proof/Laws/PerInstr.lean ====
section
/-!
SUPPORT. Statements for all instructions, made per instruction. MatchesTable: the first byte of an instruction's packet has
the bits that its row of spec/opcode_table.json fixes.
-/

/-- The packet of an instruction has a first byte, and it equals the row's pattern under the row's mask
(spec/opcode_table.json). -/
def Sys2Proof.Laws.MatchesTable.Statement (i : Sys2Proof.Instr) : Prop :=
  ∃ b, Sys2Proof.firstByte (Sys2Proof.encode i) = some b ∧
    b &&& (Sys2Proof.tableRow i).mask = (Sys2Proof.tableRow i).pattern

namespace Sys2Proof.Laws.MatchesTable

open Sys2Proof.Machine

theorem writeByte_masked (a : RegAddr) : writeByte a &&& 0x80#8 = 0x00#8 := by
  revert a; decide

theorem readByte_masked (a : RegAddr) : readByte a &&& 0x80#8 = 0x80#8 := by
  revert a; decide

theorem narrow_masked (a : RegAddr) :
    expandPair ((writeByte a).getLsbD 7) ((writeByte a).getLsbD 6) &&& 0xFE#8 = 0x00#8 := by
  revert a; decide

theorem validateClocking (ref : Rat) (mult : Byte) : Statement (.validateClocking ref mult) :=
  ⟨_, rfl, by simp [opcodeByte, tableRow]⟩

theorem freqToFtw (hz sys : Rat) : Statement (.freqToFtw hz sys) :=
  ⟨_, rfl, by simp [opcodeByte, tableRow]⟩

theorem ftwToFreq (ftw : Word) (sys : Rat) : Statement (.ftwToFreq ftw sys) :=
  ⟨_, rfl, by simp [opcodeByte, tableRow]⟩

theorem phaseToPow (turns : Rat) : Statement (.phaseToPow turns) :=
  ⟨_, rfl, by simp [opcodeByte, tableRow]⟩

theorem powToPhase (pow : BitVec 16) : Statement (.powToPhase pow) :=
  ⟨_, rfl, by simp [opcodeByte, tableRow]⟩

theorem ampToAcr (amp : Rat) : Statement (.ampToAcr amp) :=
  ⟨_, rfl, by simp [opcodeByte, tableRow]⟩

theorem acrToAmp (a0 a1 a2 : Byte) : Statement (.acrToAmp a0 a1 a2) :=
  ⟨_, rfl, by simp [opcodeByte, tableRow]⟩

theorem configureMode (m : Mode) : Statement (.configureMode m) :=
  ⟨_, rfl, by simp [opcodeByte, tableRow]⟩

theorem startStream : Statement (.startStream) :=
  ⟨_, rfl, by simp [opcodeByte, tableRow]⟩

theorem xportWrite (addr : Byte) (data : List Byte) : Statement (.xportWrite addr data) :=
  ⟨_, rfl, by simp [opcodeByte, tableRow]⟩

theorem xportRead (addr : Byte) (n : Byte) : Statement (.xportRead addr n) :=
  ⟨_, rfl, by simp [opcodeByte, tableRow]⟩

theorem streamWrite (bytes : List Byte) : Statement (.streamWrite bytes) :=
  ⟨_, rfl, by simp [opcodeByte, tableRow]⟩

theorem init (m : Mode) (ref : Rat) (mult : Byte) : Statement (.init m ref mult) :=
  ⟨_, rfl, by simp [opcodeByte, tableRow]⟩

theorem setFrequency (cs : ChSet) (hz : Rat) : Statement (.setFrequency cs hz) :=
  ⟨_, rfl, by simp [opcodeByte, tableRow]⟩

theorem getFrequency (ch : Channel) : Statement (.getFrequency ch) :=
  ⟨_, rfl, by simp [opcodeByte, tableRow]⟩

theorem setPhase (cs : ChSet) (turns : Rat) : Statement (.setPhase cs turns) :=
  ⟨_, rfl, by simp [opcodeByte, tableRow]⟩

theorem getPhase (ch : Channel) : Statement (.getPhase ch) :=
  ⟨_, rfl, by simp [opcodeByte, tableRow]⟩

theorem setAmplitude (cs : ChSet) (amp : Rat) : Statement (.setAmplitude cs amp) :=
  ⟨_, rfl, by simp [opcodeByte, tableRow]⟩

theorem getAmplitude (ch : Channel) : Statement (.getAmplitude ch) :=
  ⟨_, rfl, by simp [opcodeByte, tableRow]⟩

theorem configureSystemClock (ref : Rat) (mult : Byte) : Statement (.configureSystemClock ref mult) :=
  ⟨_, rfl, by simp [opcodeByte, tableRow]⟩

theorem selfTest : Statement (.selfTest) :=
  ⟨_, rfl, by simp [opcodeByte, tableRow]⟩

theorem freeze : Statement (.freeze) :=
  ⟨_, rfl, by simp [opcodeByte, tableRow]⟩

theorem profileNew (m : Mode) : Statement (.profileNew m) :=
  ⟨_, rfl, by simp [opcodeByte, tableRow]⟩

theorem profileUpdateChannels (cs : ChSet) (ftw : Option Word) (pow : Option (BitVec 16)) (acr : Option Word) :
    Statement (.profileUpdateChannels cs ftw pow acr) :=
  ⟨_, rfl, by simp [opcodeByte, tableRow]⟩

theorem profileSetSystemClock (ref : Rat) (mult : Byte) : Statement (.profileSetSystemClock ref mult) :=
  ⟨_, rfl, by simp [opcodeByte, tableRow]⟩

theorem profileFinalize : Statement (.profileFinalize) :=
  ⟨_, rfl, by simp [opcodeByte, tableRow]⟩

theorem frameWideWrite (a : RegAddr) (payload : List Byte) : Statement (.frameWideWrite a payload) :=
  ⟨_, rfl, writeByte_masked a⟩

theorem frameWideRead (a : RegAddr) : Statement (.frameWideRead a) := ⟨_, rfl, readByte_masked a⟩

theorem frameNarrowWrite (a : RegAddr) (payload : List Byte) : Statement (.frameNarrowWrite a payload) :=
  ⟨_, rfl, narrow_masked a⟩

theorem profileRecord (a : RegAddr) (payload : List Byte) : Statement (.profileRecord a payload) :=
  ⟨_, rfl, writeByte_masked a⟩

end Sys2Proof.Laws.MatchesTable
end

