-- ==== Sys2Proof/Laws/Trace.lean ====
section
/-!
SUPPORT. Errors are precise (60_exceptions.md R231 to R233): a command's events all succeed, but perhaps the last, and a failed
last event is what the command's error reports.
-/

namespace Sys2Proof.Machine

open Sys2Proof

variable {α β : Type} {s t : State}

/-- The run keeps the results; the events it appends all succeed where it ends with a value, and where it ends with an error all
succeed or the last is the failed one the error reports. -/
def PreciseRun (s : State) : EStateM.Result Err State α → Prop
  | .ok _ t => t.results = s.results ∧ ∃ es, t.trace = s.trace ++ es ∧ es.all Event.accepted = true
  | .error e t =>
    t.results = s.results ∧ ∃ es, t.trace = s.trace ++ es ∧ (es.all Event.accepted = true ∨ FailedLast es e)

/-- Every run of the procedure is precise. -/
def Precise (x : Proc α) : Prop := ∀ s, PreciseRun s (x s)

/-- A run after events that all succeeded. -/
theorem PreciseRun.after {x : EStateM.Result Err State β} {es : List Event} (hr : t.results = s.results)
    (hes : t.trace = s.trace ++ es) (hall : es.all Event.accepted = true) (k : PreciseRun t x) : PreciseRun s x := by
  cases x with
  | ok v u =>
    obtain ⟨kr, fs, hfs, kall⟩ := k
    exact ⟨kr.trans hr, es ++ fs, by rw [hfs, hes, List.append_assoc], by rw [List.all_append, hall, kall]; rfl⟩
  | error e u =>
    obtain ⟨kr, fs, hfs, k⟩ := k
    refine ⟨kr.trans hr, es ++ fs, by rw [hfs, hes, List.append_assoc], ?_⟩
    rcases k with kall | ⟨gs, ev, rfl, hgs, hev⟩
    · exact .inl (by rw [List.all_append, hall, kall]; rfl)
    · exact .inr ⟨es ++ gs, ev, (List.append_assoc _ _ _).symm, by rw [List.all_append, hall, hgs]; rfl, hev⟩

theorem Precise.bind {x : Proc α} {f : α → Proc β} (hx : Precise x) (hf : ∀ v, Precise (f v)) : Precise (x >>= f) := by
  intro s
  have h := hx s
  rw [Proc.bind_run]
  cases hxs : x s with
  | ok v u =>
    rw [hxs] at h
    obtain ⟨hr, es, hes, hall⟩ := h
    exact (hf v u).after hr hes hall
  | error e u =>
    rw [hxs] at h
    exact h

theorem Precise.pure (v : α) : Precise (Pure.pure v : Proc α) := fun _ => ⟨rfl, [], (List.append_nil _).symm, rfl⟩

theorem Precise.look (f : State → α) : Precise (Machine.look f) := fun _ => ⟨rfl, [], (List.append_nil _).symm, rfl⟩

/-- A change of the state that leaves the observation alone. -/
theorem Precise.change {f : State → State} (h : ∀ s, (f s).results = s.results ∧ (f s).trace = s.trace) :
    Precise (Machine.change f) :=
  fun s => ⟨(h s).1, [], by rw [(h s).2, List.append_nil], rfl⟩

theorem Precise.raise (e : Err) : Precise (Machine.raise e : Proc α) :=
  fun _ => ⟨rfl, [], (List.append_nil _).symm, .inl rfl⟩

theorem Precise.require (b : Bool) (e : Err) : Precise (Machine.require b e) := by
  intro s
  cases b
  · exact ⟨rfl, [], (List.append_nil _).symm, .inl rfl⟩
  · exact ⟨rfl, [], (List.append_nil _).symm, rfl⟩

theorem Precise.orRaise (x : Except Err α) : Precise (Machine.orRaise x) := by
  intro s
  cases x
  · exact ⟨rfl, [], (List.append_nil _).symm, .inl rfl⟩
  · exact ⟨rfl, [], (List.append_nil _).symm, rfl⟩

/-! ## The primitives and the controller's accesses -/

theorem precise_busWrite (form : WireForm) (bytes : List Byte) : Precise (busWrite form bytes) := by
  intro s
  by_cases h : s.drawAt 0 s.trace = .fail
  · rw [busWrite_fail form bytes h]
    exact ⟨rfl, _, rfl, .inr ⟨[], _, rfl, rfl, rfl, rfl⟩⟩
  · rw [busWrite_ok form bytes h]
    exact ⟨rfl, _, rfl, rfl⟩

theorem precise_busRead (header : Byte) (n : Nat) : Precise (busRead header n) := by
  intro s
  cases h : answerOf s.cfg s.trace s.env.chip (s.drawAt 0 s.trace) header n with
  | none =>
    rw [busRead_none h]
    exact ⟨rfl, _, rfl, .inr ⟨[], _, rfl, rfl, rfl, rfl⟩⟩
  | some d =>
    rw [busRead_some h]
    exact ⟨rfl, _, rfl, rfl⟩

theorem precise_pinSet (line : Line) (level : Bool) : Precise (pinSet line level) := by
  intro s
  by_cases h : s.drawAt 0 s.trace = .fail
  · rw [pinSet_fail line level h]
    exact ⟨rfl, _, rfl, .inr ⟨[], _, rfl, rfl, rfl, rfl⟩⟩
  · rw [pinSet_ok line level h]
    cases line <;> exact ⟨rfl, _, rfl, rfl⟩

theorem precise_delay (us : Nat) : Precise (delay us) := fun _ => ⟨rfl, _, rfl, rfl⟩

theorem raises_busWrite (form : WireForm) (bytes : List Byte) : Raises (· = .aBus) (busWrite form bytes) := by
  intro s e t h
  by_cases hd : s.drawAt 0 s.trace = .fail
  · rw [busWrite_fail form bytes hd] at h
    cases h
    rfl
  · rw [busWrite_ok form bytes hd] at h
    cases h

theorem raises_busRead (header : Byte) (n : Nat) : Raises (· = .aBus) (busRead header n) := by
  intro s e t h
  cases ha : answerOf s.cfg s.trace s.env.chip (s.drawAt 0 s.trace) header n with
  | none =>
    rw [busRead_none ha] at h
    cases h
    rfl
  | some d =>
    rw [busRead_some ha] at h
    cases h

/-- The event A_Bus reports is one Interface may report. -/
theorem FailedLast.asInterface {es : List Event} (h : FailedLast es .aBus) : FailedLast es .interface := by
  obtain ⟨fs, ev, hes, hfs, hev, hb⟩ := h
  refine ⟨fs, ev, hes, hfs, hev, ?_⟩
  cases ev <;> first | rfl | cases hb

theorem Precise.asInterface {x : Proc α} (h : Precise x) (hx : Raises (· = .aBus) x) : Precise (asInterface x) := by
  intro s
  have hs := h s
  unfold Machine.asInterface
  cases hxs : x s with
  | ok v t =>
    rw [hxs] at hs
    exact hs
  | error e t =>
    rw [hxs] at hs
    obtain rfl := hx s e t hxs
    obtain ⟨hr, es, hes, k⟩ := hs
    exact ⟨hr, es, hes, k.imp_right FailedLast.asInterface⟩

theorem precise_ctlWrite (r : Reg) (v : List Byte) : Precise (ctlWrite r v) := by
  intro s
  unfold ctlWrite
  split
  · exact (precise_busWrite _ _).asInterface (raises_busWrite _ _) s
  · exact Precise.raise (α := Unit) .interface s
  · exact Precise.raise (α := Unit) .interface s

theorem precise_ctlRead (r : Reg) : Precise (ctlRead r) := by
  intro s
  unfold ctlRead
  split
  · exact (precise_busRead _ _).asInterface (raises_busRead _ _) s
  · exact Precise.raise (α := List Byte) .interface s
  · exact Precise.raise (α := List Byte) .interface s

/-! ## The commands' bodies -/

theorem precise_sendWrite (w : WireForm × List Byte) : Precise (sendWrite w) :=
  (precise_busWrite _ _).bind fun _ => .pure _

theorem precise_sendRead (n : Nat) (header : Byte) : Precise (sendRead n header) :=
  (precise_busRead _ _).bind fun _ => .pure _

theorem precise_readCsr : Precise readCsr := (precise_ctlRead _).bind fun _ => .pure _

theorem precise_modifyChannel (cs : ChSet) (r : Reg) (v : List Byte) : Precise (modifyChannel cs r v) :=
  (Precise.look _).bind fun _ => (precise_ctlWrite _ _).bind fun _ => precise_ctlWrite _ _

theorem precise_restoreCsr (saved : Byte) : Precise (restoreCsr saved) := by
  intro s
  have hs := precise_ctlWrite .csr [saved] s
  unfold restoreCsr
  cases h : ctlWrite .csr [saved] s <;> rw [h] at hs <;> exact hs

theorem precise_readChannel (ch : Channel) (r : Reg) : Precise (readChannel ch r) :=
  precise_readCsr.bind fun _ => (Precise.look _).bind fun _ => (precise_ctlWrite _ _).bind fun _ =>
    (precise_ctlRead _).bind fun _ => (precise_restoreCsr _).bind fun _ => .pure _

theorem precise_configureClock (ref : Rat) (mult : Byte) : Precise (configureClock ref mult) :=
  (Precise.look _).bind fun _ => (Precise.orRaise _).bind fun _ => (precise_ctlRead _).bind fun _ =>
    (precise_ctlWrite _ _).bind fun _ =>
      (Precise.change (f := (·.setClock ref mult)) fun _ => ⟨rfl, rfl⟩).bind fun _ => .pure _

theorem precise_selfTest : Precise selfTestBody := by
  refine precise_readCsr.bind fun saved => (precise_ctlWrite _ _).bind fun _ => precise_readCsr.bind fun w => ?_
  split
  · refine (precise_ctlWrite _ _).bind fun _ => precise_readCsr.bind fun w' => ?_
    split
    · exact (precise_ctlWrite _ _).bind fun _ => .pure _
    · exact .pure _
  · exact .pure _

theorem precise_enter (ph : Phase) : Precise (enter ph) := .change fun _ => ⟨rfl, rfl⟩

theorem precise_latchPulse : Precise latchPulse := by
  refine Precise.bind (fun s => ?_) fun _ => (precise_pinSet _ _).bind fun _ => (precise_delay _).bind fun _ =>
    (precise_pinSet _ _).bind fun _ => precise_delay _
  unfold leadDwell
  split
  · exact precise_delay _ s
  · exact Precise.pure () s

theorem precise_initSequence (m : Mode) (ref : Rat) (mult : Byte) : Precise (initSequence m ref mult) := by
  have up : Precise (initReset m) :=
    (precise_enter _).bind fun _ => (Precise.change (f := (·.setControllerMode m)) fun _ => ⟨rfl, rfl⟩).bind fun _ =>
      (precise_pinSet _ _).bind fun _ =>
      (precise_pinSet _ _).bind fun _ => (precise_enter _).bind fun _ => (precise_delay _).bind fun _ =>
      (precise_pinSet _ _).bind fun _ => (precise_enter _).bind fun _ =>
      (Precise.change (f := (·.setAdapterMode .singleBitTwoWire)) fun _ => ⟨rfl, rfl⟩).bind fun _ => precise_enter _
  have mode : Precise (initMode m) :=
    (Precise.look _).bind fun _ => (precise_ctlWrite _ _).bind fun _ => (precise_enter _).bind fun _ =>
      precise_latchPulse.bind fun _ => (precise_enter _).bind fun _ =>
      (Precise.change (f := (·.setAdapterMode m)) fun _ => ⟨rfl, rfl⟩).bind fun _ =>
      (precise_delay _).bind fun _ => (precise_enter _).bind fun _ => precise_readCsr.bind fun _ =>
      (Precise.require _ _).bind fun _ => precise_enter _
  have clock : Precise (initClock ref mult) :=
    (precise_configureClock _ _).bind fun _ => (precise_enter _).bind fun _ => precise_latchPulse.bind fun _ =>
      (precise_enter _).bind fun _ => precise_enter _
  exact up.bind fun _ => mode.bind fun _ => clock

theorem Precise.orFailed {x : Proc Unit} (h : Precise x) : Precise (orFailed x) := by
  intro s
  have hs := h s
  unfold Machine.orFailed
  cases hx : x s <;> rw [hx] at hs <;> exact hs

/-! ## Every command -/

/-- What a precise command appends: its events and one result; a failed event is its last, and the result reports it. -/
def PreciseNext (s t : State) : Prop :=
  ∃ es r, t.trace = s.trace ++ es ∧ t.results = s.results ++ [r] ∧
    (es.all Event.accepted = true ∨ ∃ e, r = .err e ∧ FailedLast es e)

theorem complete_precise {body : Proc Value} (hn : complete body s = .next t) (h : Precise body) : PreciseNext s t := by
  have hs := h s
  rw [complete_def] at hn
  cases hb : body s with
  | ok v u =>
    rw [hb] at hn hs
    cases hn
    obtain ⟨hr, es, hes, hall⟩ := hs
    exact ⟨es, .ok v, hes, congrArg (· ++ [_]) hr, .inl hall⟩
  | error e u =>
    rw [hb] at hn hs
    cases hn
    obtain ⟨hr, es, hes, k⟩ := hs
    exact ⟨es, .err e, hes, congrArg (· ++ [_]) hr, k.imp_right fun hl => ⟨e, rfl, hl⟩⟩

theorem gated_precise {g : Gate α} {body : α → Proc Value} (h : ∀ v, Precise (body v))
    (hn : gated g body s = .next t) : PreciseNext s t := by
  cases g with
  | refuse r => cases hn
  | raise e => exact complete_precise hn (Precise.raise e)
  | pass v => exact complete_precise hn (h v)

/-- Every instruction that answers a next state is precise. -/
theorem exec_precise {i : Instr} (h : exec i s = .next t) : PreciseNext s t := by
  have whole : ∀ {b : Prop} [Decidable b] {r : Refusal} {k : StepOutcome},
      (if b then .refused r else k) = .next t → k = .next t := by
    intro b _ r k h
    split at h
    · cases h
    · exact h
  cases i with
  | validateClocking =>
    exact complete_precise h ((Precise.orRaise _).bind fun _ => .pure _)
  | freqToFtw =>
    have h := whole h
    exact complete_precise h ((Precise.orRaise _).bind fun _ => .pure _)
  | ftwToFreq => exact complete_precise h (.pure _)
  | phaseToPow => exact complete_precise h (.pure _)
  | powToPhase => exact complete_precise h (.pure _)
  | ampToAcr =>
    exact complete_precise h ((Precise.orRaise _).bind fun _ => .pure _)
  | acrToAmp => exact complete_precise h (.pure _)
  | configureMode =>
    have h := (ifHostOwns_next h).2
    exact complete_precise h (Precise.bind (Precise.change fun _ => ⟨rfl, rfl⟩) fun _ => .pure _)
  | startStream =>
    have h := (ifHostOwns_next h).2
    exact complete_precise h (Precise.bind (Precise.change fun _ => ⟨rfl, rfl⟩) fun _ => .pure _)
  | xportWrite => exact gated_precise precise_sendWrite (ifHostOwns_next h).2
  | xportRead => exact gated_precise (precise_sendRead _) (ifHostOwns_next h).2
  | streamWrite => exact gated_precise precise_sendWrite (ifHostOwns_next h).2
  | init m ref mult =>
    have h : execInit m ref mult s = _ := h
    unfold execInit at h
    split at h
    · exact complete_precise h (precise_initSequence m ref mult).orFailed
    · cases h
  | setFrequency =>
    have h := whole (ifReady_next (ifNonEmpty_next h)).2
    exact complete_precise h ((Precise.orRaise _).bind fun _ => (precise_modifyChannel _ _ _).bind fun _ => .pure _)
  | getFrequency =>
    have h := (ifReady_next h).2
    exact complete_precise h ((precise_readChannel _ _).bind fun _ => .pure _)
  | setPhase =>
    have h := (ifReady_next (ifNonEmpty_next h)).2
    exact complete_precise h ((precise_modifyChannel _ _ _).bind fun _ => .pure _)
  | getPhase =>
    have h := (ifReady_next h).2
    exact complete_precise h ((precise_readChannel _ _).bind fun _ => .pure _)
  | setAmplitude =>
    have h := (ifReady_next (ifNonEmpty_next h)).2
    exact complete_precise h ((Precise.orRaise _).bind fun _ => (precise_modifyChannel _ _ _).bind fun _ => .pure _)
  | getAmplitude =>
    have h := (ifReady_next h).2
    exact complete_precise h ((precise_readChannel _ _).bind fun _ => .pure _)
  | configureSystemClock =>
    have h := (ifReady_next h).2
    exact complete_precise h ((precise_configureClock _ _).bind fun _ => .pure _)
  | selfTest =>
    have h := (ifReady_next h).2
    exact complete_precise h precise_selfTest
  | freeze =>
    have h := (ifReady_next h).2
    exact complete_precise h (Precise.bind (Precise.change fun _ => ⟨rfl, rfl⟩) fun _ => .pure _)
  | profileNew =>
    exact complete_precise h (Precise.bind (Precise.change fun _ => ⟨rfl, rfl⟩) fun _ => .pure _)
  | profileUpdateChannels =>
    have h := (ifProfileOpen_next (ifNonEmpty_next h)).2
    exact complete_precise h ((Precise.require _ _).bind fun _ =>
      Precise.bind (Precise.change fun _ => ⟨rfl, rfl⟩) fun _ => .pure _)
  | profileSetSystemClock =>
    have h := whole (ifProfileOpen_next h).2
    exact complete_precise h ((Precise.require _ _).bind fun _ =>
      Precise.bind (Precise.change fun _ => ⟨rfl, rfl⟩) fun _ => .pure _)
  | profileFinalize =>
    have h := (ifProfileOpen_next h).2
    exact complete_precise h ((Precise.require _ _).bind fun _ =>
      Precise.bind (Precise.change fun _ => ⟨rfl, rfl⟩) fun _ => (Precise.look _).bind fun _ => .pure _)
  | frameWideWrite => exact gated_precise precise_sendWrite (ifHostOwns_next h).2
  | frameWideRead => exact gated_precise (precise_sendRead _) (ifHostOwns_next h).2
  | frameNarrowWrite => exact gated_precise precise_sendWrite (ifHostOwns_next h).2
  | profileRecord => exact gated_precise precise_sendWrite (ifHostOwns_next h).2

end Sys2Proof.Machine
end

