-- ==== Sys2Proof/Machine/Asm.lean ====
section
/-!
DEFINITION. The text form of the commands, one a line (30_encoding.md R86; log 31): a mnemonic, then name=value operands in
the order of the opcode table, with # starting a comment. The assembler gives the packet of a line; whether the packet is
legal is the decoder's question.
-/

namespace Sys2Proof.Machine

/-- The pieces of a text between the separators. -/
def splitChars (sep : Char) : List Char → List (List Char)
  | [] => [[]]
  | x :: xs =>
    match splitChars sep xs with
    | [] => [[x]]
    | w :: ws => if x = sep then [] :: w :: ws else (x :: w) :: ws

/-- The value of a digit in base 10 or 16. -/
def digitVal (base : Nat) (c : Char) : Option Nat :=
  let n := c.toNat
  if 48 ≤ n ∧ n ≤ 57 then some (n - 48)
  else if base = 16 ∧ 65 ≤ n ∧ n ≤ 70 then some (n - 55)
  else if base = 16 ∧ 97 ≤ n ∧ n ≤ 102 then some (n - 87)
  else none

/-- The value of a digit sequence after a prefix of value v. -/
def digitsFrom (base : Nat) : Nat → List Char → Option Nat
  | v, [] => some v
  | v, c :: cs => (digitVal base c).bind fun d => digitsFrom base (v * base + d) cs

/-- A non-empty digit sequence. -/
def digits (base : Nat) : List Char → Option Nat
  | [] => none
  | c :: cs => digitsFrom base 0 (c :: cs)

/-- An integer in hex (`0x…`) or decimal. -/
def natText : List Char → Option Nat
  | '0' :: 'x' :: ds => digits 16 ds
  | ds => digits 10 ds

/-- An integer below a bound. -/
def natBelow (bound : Nat) (t : List Char) : Option Nat := (natText t).bind fun n => if n < bound then some n else none

/-- An exponent: a decimal integer, maybe negative, as a power of ten. -/
def tenTo : List Char → Option Rat
  | '-' :: ds => (digits 10 ds).map fun n => 1 / ((10 ^ n : Nat) : Rat)
  | ds => (digits 10 ds).map fun n => ((10 ^ n : Nat) : Rat)

/-- A decimal mantissa, with or without a fraction. -/
def mantissa (t : List Char) : Option Rat :=
  match splitChars '.' t with
  | [i] => (digits 10 i).map fun n => (n : Rat)
  | [i, f] =>
    (digits 10 i).bind fun n => (digits 10 f).map fun k => (n : Rat) + (k : Rat) / ((10 ^ f.length : Nat) : Rat)
  | _ => none

/-- A number in decimal or exponent form. -/
def numberText (t : List Char) : Option Rat :=
  match splitChars 'e' t with
  | [m] => mantissa m
  | [m, x] => (mantissa m).bind fun a => (tenTo x).map fun b => a * b
  | _ => none

/-- A non-negative rational: a number, or `p/q`. -/
def fractionText (t : List Char) : Option Rat :=
  match splitChars '/' t with
  | [p] => numberText p
  | [p, q] => (numberText p).bind fun a => (numberText q).bind fun b => if b = 0 then none else some (a / b)
  | _ => none

/-- A rational. -/
def ratText : List Char → Option Rat
  | '-' :: t => (fractionText t).map fun x => -x
  | t => fractionText t

/-- A channel by its name (10_state.md R31). -/
def channelText (cfg : Config) (t : List Char) : Option Channel :=
  if t = "ONE".toList then some .one
  else if t = "TWO".toList then some cfg.names.two
  else if t = "THREE".toList then some cfg.names.three
  else if t = "FOUR".toList then some cfg.names.four
  else none

/-- The union of the named channels. -/
def unionText (cfg : Config) : List (List Char) → Option ChSet
  | [] => some 0
  | t :: ts => (channelText cfg t).bind fun ch => (unionText cfg ts).map fun cs => channelFlag ch ||| cs

/-- A channel set byte: names joined by |, `-` for none, or an integer. -/
def chSetText (cfg : Config) (t : List Char) : Option Byte :=
  if t = ['-'] then some 0
  else
    match natBelow 256 t with
    | some n => some (BitVec.ofNat 8 n)
    | none => (unionText cfg (splitChars '|' t)).map chSetByte

/-- A Mode by name, or by its index. -/
def modeText (t : List Char) : Option Nat :=
  if t = "TWO_WIRE".toList then some 0
  else if t = "THREE_WIRE".toList then some 1
  else if t = "TWO_BIT".toList then some 2
  else if t = "FOUR_BIT".toList then some 3
  else natText t

/-- The bytes between commas. -/
def bytesBetween : List (List Char) → Option (List Byte)
  | [] => some []
  | t :: ts => (natBelow 256 t).bind fun n => (bytesBetween ts).map fun bs => BitVec.ofNat 8 n :: bs

/-- A byte sequence `[0x12,0x34]`. -/
def bytesText : List Char → Option (List Byte)
  | '[' :: t =>
    match t.reverse with
    | ']' :: r => if r = [] then some [] else bytesBetween (splitChars ',' r.reverse)
    | _ => none
  | _ => none

/-- An option: `-` when absent. -/
def optText {α : Type} (f : List Char → Option α) (t : List Char) : Option (Option α) :=
  if t = ['-'] then some none else (f t).map some

/-- The kind of an operand (30_encoding.md R83). -/
inductive OperandKind
  | mode | chSet | ch | u8 | u16 | u32 | q | bytes | optU16 | optU32
  deriving DecidableEq, Repr

/-- An operand's value. -/
def operandText (cfg : Config) (k : OperandKind) (t : List Char) : Option Operand :=
  match k with
  | .mode => (modeText t).map .mode
  | .chSet => (chSetText cfg t).map .chSet
  | .ch => (chSetText cfg t).map .ch
  | .u8 => (natBelow (2 ^ 8) t).map fun n => .u8 (BitVec.ofNat 8 n)
  | .u16 => (natBelow (2 ^ 16) t).map fun n => .u16 (BitVec.ofNat 16 n)
  | .u32 => (natBelow (2 ^ 32) t).map fun n => .u32 (BitVec.ofNat 32 n)
  | .q => (ratText t).map .q
  | .bytes => (bytesText t).map .bytes
  | .optU16 => (optText (natBelow (2 ^ 16)) t).map fun o => .optU16 (o.map (BitVec.ofNat 16))
  | .optU32 => (optText (natBelow (2 ^ 32)) t).map fun o => .optU32 (o.map (BitVec.ofNat 32))

/-- The operands of an opcode, with their names, in the order of the table (30_encoding.md R83). -/
def operandSpec : Opcode → List (String × OperandKind)
  | .validateClocking => [("ref", .q), ("mult", .u8)]
  | .freqToFtw => [("hz", .q), ("sys", .q)]
  | .ftwToFreq => [("ftw", .u32), ("sys", .q)]
  | .phaseToPow => [("turns", .q)]
  | .powToPhase => [("pow", .u16)]
  | .ampToAcr => [("amp", .q)]
  | .acrToAmp => [("acr", .bytes)]
  | .configureMode => [("m", .mode)]
  | .startStream => []
  | .xportWrite => [("addr", .u8), ("data", .bytes)]
  | .xportRead => [("addr", .u8), ("n", .u8)]
  | .streamWrite => [("bytes", .bytes)]
  | .init => [("m", .mode), ("ref", .q), ("mult", .u8)]
  | .setFrequency => [("cs", .chSet), ("hz", .q)]
  | .getFrequency => [("ch", .ch)]
  | .setPhase => [("cs", .chSet), ("turns", .q)]
  | .getPhase => [("ch", .ch)]
  | .setAmplitude => [("cs", .chSet), ("amp", .q)]
  | .getAmplitude => [("ch", .ch)]
  | .configureSystemClock => [("ref", .q), ("mult", .u8)]
  | .selfTest => []
  | .freeze => []
  | .profileNew => [("m", .mode)]
  | .profileUpdateChannels => [("cs", .chSet), ("ftw", .optU32), ("pow", .optU16), ("acr", .optU32)]
  | .profileSetSystemClock => [("ref", .q), ("mult", .u8)]
  | .profileFinalize => []

/-- An opcode's mnemonic (30_encoding.md R83). -/
def opcodeName : Opcode → String
  | .validateClocking => "VALIDATE_CLOCKING"
  | .freqToFtw => "FREQ_TO_FTW"
  | .ftwToFreq => "FTW_TO_FREQ"
  | .phaseToPow => "PHASE_TO_POW"
  | .powToPhase => "POW_TO_PHASE"
  | .ampToAcr => "AMP_TO_ACR"
  | .acrToAmp => "ACR_TO_AMP"
  | .configureMode => "CONFIGURE_MODE"
  | .startStream => "START_STREAM"
  | .xportWrite => "XPORT_WRITE"
  | .xportRead => "XPORT_READ"
  | .streamWrite => "STREAM_WRITE"
  | .init => "INIT"
  | .setFrequency => "SET_FREQUENCY"
  | .getFrequency => "GET_FREQUENCY"
  | .setPhase => "SET_PHASE"
  | .getPhase => "GET_PHASE"
  | .setAmplitude => "SET_AMPLITUDE"
  | .getAmplitude => "GET_AMPLITUDE"
  | .configureSystemClock => "CONFIGURE_SYSTEM_CLOCK"
  | .selfTest => "SELF_TEST"
  | .freeze => "FREEZE"
  | .profileNew => "PROFILE_NEW"
  | .profileUpdateChannels => "PROFILE_UPDATE_CHANNELS"
  | .profileSetSystemClock => "PROFILE_SET_SYSTEM_CLOCK"
  | .profileFinalize => "PROFILE_FINALIZE"

/-- The operands of a line, each `name=value` with the table's name. -/
def operandsText (cfg : Config) : List (String × OperandKind) → List (List Char) → Option (List Operand)
  | [], [] => some []
  | (name, k) :: spec, t :: ts =>
    match splitChars '=' t with
    | [n, v] =>
      if n = name.toList then
        (operandText cfg k v).bind fun o => (operandsText cfg spec ts).map fun os => o :: os
      else none
    | _ => none
  | _, _ => none

/-- The words of a line before its comment. -/
def lineWords (line : List Char) : List (List Char) :=
  (splitChars ' ' (line.takeWhile fun c => c ≠ '#')).filter fun w => !w.isEmpty

/-- The packet of a line; none where the line is no command (30_encoding.md R86). -/
def assemble (cfg : Config) (line : List Char) : Option Packet :=
  match lineWords line with
  | [] => none
  | name :: ts =>
    match allOpcodes.find? fun o => (opcodeName o).toList == name with
    | none => none
    | some o => (operandsText cfg (operandSpec o) ts).map (commandPacket o)

end Sys2Proof.Machine
end

