-- ==== Sys2Proof/Tests/Slice0.lean ====
section
/-!
SUPPORT. The model's own tests: ill-formed instructions that WellFormed refuses, words written out from the encoding tables,
one step of each instruction with the result of 95_test_vectors.md, and for every statement with hypotheses a state and
operands that meet them.
-/

open Sys2Proof Sys2Proof.Machine

namespace Sys2Proof.Tests

/-! ## WellFormed refuses (30_encoding.md R84; 20_memory.md R52; 41_transport.md R134) -/

theorem test_wf_setFrequency_no_channel : (Instr.setFrequency 0 1).wellFormed Config.default = false := by decide

theorem test_wf_setPhase_no_channel : (Instr.setPhase 0 1).wellFormed Config.default = false := by decide

theorem test_wf_setAmplitude_no_channel : (Instr.setAmplitude 0 1).wellFormed Config.default = false := by decide

theorem test_wf_profileUpdate_no_channel :
    (Instr.profileUpdateChannels 0 none none none).wellFormed Config.default = false := by decide

theorem test_wf_wideWrite_short : (Instr.frameWideWrite 0x04#7 [1, 2, 3]).wellFormed Config.default = false := by decide

theorem test_wf_wideRead_no_register : (Instr.frameWideRead 0x02#7).wellFormed Config.default = false := by decide

theorem test_wf_narrowWrite_too_long :
    (Instr.frameNarrowWrite 0x06#7 [1, 2, 3]).wellFormed Config.default = false := by decide

theorem test_wf_narrowWrite_short : (Instr.frameNarrowWrite 0x05#7 [1]).wellFormed Config.default = false := by decide

theorem test_wf_record_no_register : (Instr.profileRecord 0x03#7 [1]).wellFormed Config.default = false := by decide

/-- Two registers at one address are not six addresses (log 30). -/
theorem test_wf_config_collision :
    ({ Config.default with reg := { Config.default.reg with csr := 0x04#7 } } : Config).wf = false := by decide

/-! ## Decoding (30_encoding.md R83 for the opcodes, R72, R73, R75, R77 and L2-X for the frames) -/

/-- A packet decodes to the instruction it stands for, in a mode. -/
def decodesTo (mode : Mode) (p : Packet) (i : Instr) : Bool := decode Config.default mode p == .ok i

theorem test_decode_codec :
    decodesTo .singleBitTwoWire (.command 0b00000001#8 [.q 25000000, .u8 4]) (.validateClocking 25000000 4) ∧
    decodesTo .singleBitTwoWire (.command 0b00000010#8 [.q 1, .q 2]) (.freqToFtw 1 2) ∧
    decodesTo .singleBitTwoWire (.command 0b00000011#8 [.u32 7, .q 2]) (.ftwToFreq 7 2) ∧
    decodesTo .singleBitTwoWire (.command 0b00000100#8 [.q (1 / 4)]) (.phaseToPow (1 / 4)) ∧
    decodesTo .singleBitTwoWire (.command 0b00000101#8 [.u16 0x1000]) (.powToPhase 0x1000) ∧
    decodesTo .singleBitTwoWire (.command 0b00000110#8 [.q (1 / 2)]) (.ampToAcr (1 / 2)) ∧
    decodesTo .singleBitTwoWire (.command 0b00000111#8 [.bytes [0x00, 0x12, 0x34]]) (.acrToAmp 0x00 0x12 0x34) := by
  decide +kernel

theorem test_decode_transport :
    decodesTo .singleBitTwoWire (.command 0b00010000#8 [.mode 1]) (.configureMode .singleBitThreeWire) ∧
    decodesTo .singleBitTwoWire (.command 0b00010000#8 [.mode 2]) (.configureMode .twoBitSerial) ∧
    decodesTo .singleBitTwoWire (.command 0b00010001#8 []) .startStream ∧
    decodesTo .singleBitTwoWire (.command 0b00010010#8 [.u8 0x84, .bytes [1]]) (.xportWrite 0x84 [1]) ∧
    decodesTo .singleBitTwoWire (.command 0b00010011#8 [.u8 0x04, .u8 4]) (.xportRead 0x04 4) ∧
    decodesTo .singleBitTwoWire (.command 0b00010100#8 [.bytes [1, 2]]) (.streamWrite [1, 2]) := by
  decide

theorem test_decode_controller :
    decodesTo .singleBitTwoWire (.command 0b00100000#8 [.mode 0, .q 1, .u8 21]) (.init .singleBitTwoWire 1 21) ∧
    decodesTo .singleBitTwoWire (.command 0b00100011#8 [.chSet 0x30, .q 5]) (.setFrequency 0b0011#4 5) ∧
    decodesTo .singleBitTwoWire (.command 0b00100100#8 [.ch 0x10]) (.getFrequency .one) ∧
    decodesTo .singleBitTwoWire (.command 0b00100101#8 [.chSet 0xF0, .q 5]) (.setPhase 0xF#4 5) ∧
    decodesTo .singleBitTwoWire (.command 0b00100110#8 [.ch 0x20]) (.getPhase .two) ∧
    decodesTo .singleBitTwoWire (.command 0b00100111#8 [.chSet 0x40, .q 5]) (.setAmplitude 0b0100#4 5) ∧
    decodesTo .singleBitTwoWire (.command 0b00101000#8 [.ch 0x80]) (.getAmplitude .four) ∧
    decodesTo .singleBitTwoWire (.command 0b00101001#8 [.q 1, .u8 5]) (.configureSystemClock 1 5) ∧
    decodesTo .singleBitTwoWire (.command 0b00101010#8 []) .selfTest ∧
    decodesTo .singleBitTwoWire (.command 0b00101011#8 []) .freeze := by
  decide

theorem test_decode_profile :
    decodesTo .singleBitTwoWire (.command 0b00110000#8 [.mode 3]) (.profileNew .fourBitSerial) ∧
    decodesTo .singleBitTwoWire
      (.command 0b00110001#8 [.chSet 0x20, .optU32 none, .optU16 (some 0x1000), .optU32 (some 9)])
      (.profileUpdateChannels 0b0010#4 none (some 0x1000) (some 9)) ∧
    decodesTo .singleBitTwoWire (.command 0b00110010#8 [.q 1, .u8 31]) (.profileSetSystemClock 1 31) ∧
    decodesTo .singleBitTwoWire (.command 0b00110011#8 []) .profileFinalize := by
  decide

/-- FR1's wide write, CPOW0's wide read, LSRR's narrow write (L2-T4) and the pad record of L1-6. -/
theorem test_decode_frames :
    decodesTo .fourBitSerial (.frame [0b00000001#8, 0x94, 0x00, 0x00]) (.frameWideWrite 1#7 [0x94, 0x00, 0x00]) ∧
    decodesTo .fourBitSerial (.frame [0b10000101#8]) (.frameWideRead 5#7) ∧
    decodesTo .singleBitTwoWire
      (.frame [0x00, 0x00, 0x01, 0x11, 0x00, 0x01, 0x00, 0x10, 0x00, 0x11, 0x01, 0x00])
      (.frameNarrowWrite 7#7 [0x12, 0x34]) ∧
    decodesTo .fourBitSerial (.record [0x07, 0x00, 0x00]) (.profileRecord 7#7 [0x00, 0x00]) := by
  decide

/-- A malformed expanded byte, a read header in a narrow frame, and a frame in a mode without frames (30_encoding.md R81,
R85; 41_transport.md R136). -/
theorem test_decode_malformed :
    decode Config.default .singleBitTwoWire (.frame [0x02, 0x00, 0x00, 0x00]) = .error .malformedFrame ∧
    decode Config.default .singleBitTwoWire (.frame [0x10, 0x00, 0x00, 0x00]) = .error .malformedFrame ∧
    decode Config.default .twoBitSerial (.frame [0x00, 0x16]) = .error .malformedFrame := by
  decide

/-- The model's choice (log 15): FR1 or ACR whole in expanded bytes has no narrow frame (30_encoding.md R75). -/
theorem test_decode_narrow_too_long :
    decode Config.default .singleBitTwoWire (.frame ([0x01, 0x94, 0x00, 0x00].flatMap expand)) =
      .error .illFormedTransaction ∧
    decode Config.default .singleBitTwoWire (.frame ([0x06, 0x00, 0x12, 0x34].flatMap expand)) =
      .error .illFormedTransaction := by
  decide

/-- 30_encoding.md R85: CPOW0's read header and its two response bytes, as an observer of the bus decodes them; a header with a
byte too few is no whole frame; a write frame has no response. -/
theorem test_observeFrame :
    observeFrame Config.default .fourBitSerial [0x85, 0x10, 0x00] = .ok (.frameWideRead 5#7, [0x10, 0x00]) ∧
    observeFrame Config.default .fourBitSerial [0x85, 0x10] = .error .malformedFrame ∧
    observeFrame Config.default .fourBitSerial [0x00, 0x16] = .ok (.frameWideWrite 0#7 [0x16], []) := by
  decide

/-- 30_encoding.md R86: L2-M3's line is the packet of L3's notation. -/
theorem test_assemble_setFrequency :
    assemble Config.default "SET_FREQUENCY cs=ONE|TWO hz=1e6  # two channels".toList =
      some (.command 0x23#8 [.chSet 0x30#8, .q 1000000]) := by
  decide +kernel

/-- 30_encoding.md R86: rationals, options and byte lists, as L2-P10 and L2-C7 write them. -/
theorem test_assemble_operands :
    assemble Config.default "PROFILE_UPDATE_CHANNELS cs=ONE ftw=- pow=0xC000 acr=0xAB001200".toList =
      some (.command 0x31#8 [.chSet 0x10#8, .optU32 none, .optU16 (some 0xC000), .optU32 (some 0xAB001200)]) ∧
    assemble Config.default "PHASE_TO_POW turns=-1/16384".toList = some (.command 0x04#8 [.q (-1 / 16384)]) ∧
    assemble Config.default "ACR_TO_AMP acr=[0x00,0x12]".toList = some (.command 0x07#8 [.bytes [0x00, 0x12]]) := by
  decide +kernel

/-! ## One step of each instruction -/

/-- The reset state with the adapter as given and the echo oracle at zero (95_test_vectors.md, L2-T). -/
def hostState (mode : Mode) (streaming : Bool) : State :=
  { State.reset with
    a := { mode := mode, streaming := streaming }
    env := { State.reset.env with rest := .echo } }

/-- Ready-100 with the echo oracle holding the given CSR and FR1 (95_test_vectors.md, L2-M). -/
def ready100 (csr : Byte) (fr1 : BitVec 24) : State :=
  { State.reset with
    a := { mode := .fourBitSerial, streaming := false }
    c := { phase := .ready, refHz := 25000000, mult := 4, mode := .fourBitSerial }
    env :=
      { script := []
        rest := .echo
        chip := { written := { RegFile.reset with csr := csr, fr1 := fr1 }, active := RegFile.reset } } }

/-- An open profile in FourBitSerial holding these bytes. -/
def openProfile (bytes : List Byte) : State :=
  { hostState .singleBitTwoWire false with
    q := { buf := Memory.writeBytes [] 0 bytes, cursor := bytes.length, mode := .fourBitSerial, status := .opened } }

/-- The state with an oracle that draws these first. -/
def drawing (ds : List Draw) (s : State) : State := s.setScript ds

/-- The state with an oracle that echoes k times and then fails. -/
def failingAt (k : Nat) (s : State) : State := drawing (List.replicate k .echo ++ [.fail]) s

/-- The trace and the results after one instruction; none where it is refused. -/
def ends (i : Instr) (s : State) : Option (List Event × List CmdResult) :=
  match exec i s with
  | .next t => some (t.trace, t.results)
  | .fault _ => none
  | .refused _ => none

/-- A view of the state after one instruction. -/
def after {α : Type} (i : Instr) (s : State) (view : State → α) : Option α :=
  match exec i s with
  | .next t => some (view t)
  | .fault _ => none
  | .refused _ => none

/-- The refusal of one instruction. -/
def refusal (i : Instr) (s : State) : Option Refusal :=
  match exec i s with
  | .next _ => none
  | .fault _ => none
  | .refused r => some r

/-- L2-C1. -/
theorem test_validateClocking :
    ends (.validateClocking 25500000 10) State.reset = some ([], [.ok (.q 255000000)]) ∧
    ends (.validateClocking 12500000 20) State.reset = some ([], [.err .frequency]) ∧
    ends (.validateClocking 25000000 21) State.reset = some ([], [.err .bounds]) := by
  decide +kernel

/-- L2-C2. -/
theorem test_freqToFtw :
    ends (.freqToFtw 1 500000000) State.reset = some ([], [.ok (.u32 0x00000008)]) ∧
    ends (.freqToFtw 250000001 500000000) State.reset = some ([], [.err .bounds]) ∧
    refusal (.freqToFtw 0 (-5)) State.reset = some .nonPositiveSystemClock := by
  decide +kernel

/-- L2-C3. -/
theorem test_ftwToFreq :
    ends (.ftwToFreq 0xFFFFFFFF 500000000) State.reset =
      some ([], [.ok (.q (499999999883584678173065185546875 / 10 ^ 24))]) := by
  decide +kernel

/-- L2-C4. -/
theorem test_phaseToPow :
    ends (.phaseToPow (-1 / 16384)) State.reset = some ([], [.ok (.u16 0x3FFF)]) ∧
    ends (.phaseToPow (5 / 4)) State.reset = some ([], [.ok (.u16 0x1000)]) := by
  decide +kernel

/-- L2-C5. -/
theorem test_powToPhase : ends (.powToPhase 0x4001) State.reset = some ([], [.ok (.q (1 / 16384))]) := by decide +kernel

/-- L2-C6. -/
theorem test_ampToAcr :
    ends (.ampToAcr (2047 / 2048)) State.reset = some ([], [.ok (.u32 0x000013FF)]) ∧
    ends (.ampToAcr (10001 / 10000)) State.reset = some ([], [.err .bounds]) := by
  decide +kernel

/-- L2-C7. -/
theorem test_acrToAmp :
    ends (.acrToAmp 0x00 0x17 0x80) State.reset = some ([], [.ok (.q (7 / 8))]) ∧
    ends (.acrToAmp 0xFF 0xEF 0xFF) State.reset = some ([], [.ok (.q 1)]) := by
  decide +kernel

/-- 40_codec.md R100: 16777217/2 has 25 significant bits and is halfway between two binary32 values; ties go to even, and
one third is 11184811/33554432. -/
theorem test_round_binary32 :
    roundBinary32 (16777217 / 2) = 8388608 ∧ roundBinary32 (1 / 3) = 11184811 / 33554432 ∧ roundBinary32 (-3) = -3 := by
  decide +kernel

/-- L2-T10. -/
theorem test_configureMode :
    after (.configureMode .singleBitThreeWire) (hostState .singleBitTwoWire false) (·.a.mode) =
      some .singleBitThreeWire := by
  decide

/-- L2-T16. -/
theorem test_startStream :
    after .startStream (hostState .fourBitSerial false) (·.a) = some { mode := .fourBitSerial, streaming := true } := by
  decide

/-- L2-T1, L2-T22. -/
theorem test_xportWrite :
    ends (.xportWrite 0x00 [0xF6]) (hostState .singleBitTwoWire false) =
      some ([.write [0x00, 0x00, 0x00, 0x00, 0x11, 0x11, 0x01, 0x10] true], [.ok .none]) ∧
    ends (.xportWrite 0x00 [0x16]) (drawing [.fail] (hostState .fourBitSerial false)) =
      some ([.write [0x00, 0x16] false], [.err .aBus]) := by
  decide

/-- L2-T5, L2-T6, L2-T7. -/
theorem test_xportWrite_checks :
    ends (.xportWrite 0x04 [0x12, 0x34, 0x56, 0x78]) (hostState .singleBitTwoWire false) = some ([], [.err .aLength]) ∧
    refusal (.xportWrite 0x01 [0xA5]) (hostState .singleBitTwoWire false) = some .illFormedTransaction ∧
    ends (.xportWrite 0x84 [0x12, 0x34, 0x56, 0x78]) (hostState .singleBitTwoWire false) =
      some ([], [.err .aInvalidAddress]) := by
  decide

/-- 20_memory.md R63, R64: a read answered by the oracle, and L2-T8. -/
theorem test_xportRead :
    ends (.xportRead 0x04 4) (drawing [.data [0x12, 0x34, 0x56, 0x78]] (hostState .fourBitSerial false)) =
      some ([.read 0x84 4 (some [0x12, 0x34, 0x56, 0x78])], [.ok (.bytes [0x12, 0x34, 0x56, 0x78])]) ∧
    ends (.xportRead 0x00 1) (hostState .singleBitTwoWire false) = some ([], [.err .aInvalidState]) := by
  decide

/-- L2-T19, and the chip's view of a streamed CSR and CPOW0 record of channel one (43_profile.md R208). -/
theorem test_streamWrite :
    refusal (.streamWrite [0x00, 0x16, 0x04, 0x12, 0x34, 0x56]) (hostState .fourBitSerial true) = some .unalignedStream ∧
    after (.streamWrite [0x00, 0x16, 0x05, 0x10, 0x00, 0x07, 0x00, 0x00]) (hostState .fourBitSerial true)
      (·.env.chip.written.one.cpow0) = some 0x1000#16 := by
  decide

/-- Program P1, step 1 (the chip's reset leaves the echo oracle's written contents, 95_test_vectors.md conventions). -/
theorem test_init :
    ends (.init .fourBitSerial 25000000 4) (hostState .singleBitTwoWire false) =
      some ([.pin .update false true, .pin .reset true true, .delay 5, .pin .reset false true,
        .write [0x00, 0x00, 0x00, 0x00, 0x11, 0x11, 0x01, 0x10] true,
        .pin .update true true, .delay 5, .pin .update false true, .delay 5, .delay 5,
        .read 0x80 1 (some [0xF6]), .read 0x81 3 (some [0x00, 0x00, 0x00]),
        .write [0x01, 0x10, 0x00, 0x00] true,
        .pin .update true true, .delay 5, .pin .update false true, .delay 5], [.ok .none]) := by
  decide +kernel

/-- L2-I4. -/
theorem test_init_pin :
    ends (.init .fourBitSerial 25000000 4) (drawing [.echo, .fail] (hostState .singleBitTwoWire false)) =
      some ([.pin .update false true, .pin .reset true false], [.err .pin]) ∧
    after (.init .fourBitSerial 25000000 4) (drawing [.echo, .fail] (hostState .singleBitTwoWire false)) (·.c.phase) =
      some .failed := by
  decide

/-- L2-I3 (L1-8): another byte read back is Check, and the read-back is the last event. -/
theorem test_init_check :
    let s := drawing (List.replicate 6 .echo ++ [.data [0x00]]) (hostState .singleBitTwoWire false)
    (ends (.init .fourBitSerial 25000000 4) s).map (fun r => (r.1.length, r.1.getLast?, r.2)) =
      some (11, some (.read 0x80 1 (some [0x00])), [.err .check]) ∧
    after (.init .fourBitSerial 25000000 4) s (·.c.phase) = some .failed := by
  decide

/-- L2-I8: the clock is validated only after the read-back. -/
theorem test_init_bounds :
    (ends (.init .fourBitSerial 25000000 21) (hostState .singleBitTwoWire false)).map
      (fun r => (r.1.length, r.1.getLast?, r.2)) =
      some (11, some (.read 0x80 1 (some [0xF6])), [.err .bounds]) := by
  decide +kernel

/-- L2-M3. -/
theorem test_setFrequency :
    ends (.setFrequency 0b0011#4 1000000) (ready100 0xF6 0x100000) =
      some ([.write [0x00, 0x36] true, .write [0x04, 0x02, 0x8F, 0x5C, 0x28] true],
        [.ok (.q (999999977648258209228515625 / 10 ^ 21))]) ∧
    after (.setFrequency 0b0011#4 1000000) (ready100 0xF6 0x100000)
      (fun t => (t.env.chip.written.one.cftw0, t.env.chip.written.two.cftw0, t.env.chip.written.three.cftw0)) =
      some (0x028F5C28#32, 0x028F5C28#32, 0#32) := by
  decide +kernel

/-- L2-M14's last command, with the tuning word in the oracle's answer. -/
theorem test_getFrequency :
    ends (.getFrequency .one)
      (drawing [.echo, .echo, .data [0x19, 0x99, 0x99, 0x99]] ((ready100 0x16 0x940000).setClock 100000000 5)) =
      some ([.read 0x80 1 (some [0x16]), .write [0x00, 0x16] true, .read 0x84 4 (some [0x19, 0x99, 0x99, 0x99]),
        .write [0x00, 0x16] true], [.ok (.q (49999999930150806903839111328125 / 10 ^ 24))]) := by
  decide +kernel

/-- L2-M7. -/
theorem test_setPhase :
    ends (.setPhase 0b0001#4 (-1 / 4)) (ready100 0xF6 0x100000) =
      some ([.write [0x00, 0x16] true, .write [0x05, 0x30, 0x00] true], [.ok (.q (3 / 4))]) := by
  decide +kernel

/-- L2-M12: the restore is not made. -/
theorem test_getPhase :
    ends (.getPhase .two) (drawing [.echo, .echo, .fail] (ready100 0xF6 0x100000)) =
      some ([.read 0x80 1 (some [0xF6]), .write [0x00, 0x26] true, .read 0x85 2 none], [.err .interface]) ∧
    after (.getPhase .two) (drawing [.echo, .echo, .fail] (ready100 0xF6 0x100000)) (·.env.chip.written.csr) =
      some 0x26#8 := by
  decide

/-- 42_channel_mux.md R166, decision D18: where the restore fails, the events stop there and CSR stays at csr_for(ch), although
any prefix of another failed CSR write may have arrived. -/
theorem test_getPhase_restore_fails :
    ends (.getPhase .two) (drawing [.echo, .echo, .echo, .fail] (ready100 0xF6 0x100000)) =
      some ([.read 0x80 1 (some [0xF6]), .write [0x00, 0x26] true, .read 0x85 2 (some [0x00, 0x00]),
        .write [0x00, 0xF6] false], [.err .interface]) ∧
    after (.getPhase .two) (drawing [.echo, .echo, .echo, .fail] (ready100 0xF6 0x100000)) (·.env.chip.written.csr) =
      some 0x26#8 := by
  decide

/-- L2-M8, L2-M10. -/
theorem test_setAmplitude :
    ends (.setAmplitude 0b0001#4 1) (ready100 0xF6 0x100000) =
      some ([.write [0x00, 0x16] true, .write [0x06, 0x00, 0x00, 0x00] true], [.ok (.q 1)]) ∧
    ends (.setAmplitude 0b0001#4 (3 / 2)) (ready100 0xF6 0x100000) = some ([], [.err .bounds]) := by
  decide +kernel

/-- L2-M11. -/
theorem test_getAmplitude :
    ends (.getAmplitude .four) (ready100 0xF6 0x100000) =
      some ([.read 0x80 1 (some [0xF6]), .write [0x00, 0x86] true, .read 0x86 3 (some [0x00, 0x00, 0x00]),
        .write [0x00, 0xF6] true], [.ok (.q 1)]) := by
  decide

/-- L2-M17, L2-M18. -/
theorem test_configureSystemClock :
    ends (.configureSystemClock 25000000 4) (ready100 0xF6 0xA31234) =
      some ([.read 0x81 3 (some [0xA3, 0x12, 0x34]), .write [0x01, 0x13, 0x12, 0x34] true], [.ok (.q 100000000)]) ∧
    after (.configureSystemClock 100000000 5) (drawing [.fail] (ready100 0xF6 0x100000)) (fun t => (t.c.refHz, t.c.mult)) =
      some (25000000, 4#8) := by
  decide +kernel

/-- Program P4, step 1. -/
theorem test_selfTest :
    ends .selfTest (ready100 0x16 0x100000) =
      some ([.read 0x80 1 (some [0x16]), .write [0x00, 0xF6] true, .read 0x80 1 (some [0xF6]),
        .write [0x00, 0x06] true, .read 0x80 1 (some [0x06]), .write [0x00, 0x16] true], [.ok (.bool true)]) := by
  decide

/-- L2-M20. -/
theorem test_selfTest_soft :
    ends .selfTest (drawing [.echo, .echo, .data [0x76]] (ready100 0x16 0x100000)) =
      some ([.read 0x80 1 (some [0x16]), .write [0x00, 0xF6] true, .read 0x80 1 (some [0x76])],
        [.ok (.bool false)]) := by
  decide

/-- L2-M21. -/
theorem test_freeze :
    ends .freeze (ready100 0xF6 0x100000) = some ([], [.ok (.mode .fourBitSerial)]) ∧
    after .freeze (ready100 0xF6 0x100000) (·.c.phase) = some .frozen := by
  decide

/-- L2-M23, L2-M24, L2-M25; and a wire form of the host while a controller owns the transport (10_state.md R34; log 33). -/
theorem test_refusals :
    refusal (.xportWrite 0x00 [0x16]) (ready100 0xF6 0x100000) = some .transportOwned ∧
    refusal (.frameWideWrite 0x00#7 [0x16]) (ready100 0xF6 0x100000) = some .transportOwned ∧
    refusal (.init .fourBitSerial 25000000 4) (ready100 0xF6 0x100000) = some .controllerExists ∧
    refusal (.getPhase .one) State.reset = some .notReady := by
  decide

/-- 43_profile.md R200. -/
theorem test_profileNew :
    after (.profileNew .fourBitSerial) (openProfile [1, 2]) (fun t => (t.q.cursor, t.q.status)) = some (0, .opened) := by
  decide

/-- L2-P10. -/
theorem test_profileUpdateChannels :
    after (.profileUpdateChannels 0b0001#4 none (some 0xC000) (some 0xAB001200)) (openProfile []) (·.q.bytes) =
      some [0x00, 0x16, 0x05, 0xC0, 0x00, 0x06, 0x00, 0x12, 0x00] := by
  decide

/-- L2-P7, L2-P8. -/
theorem test_profileSetSystemClock :
    after (.profileSetSystemClock 10000000 31) (openProfile []) (fun t => (t.q.bytes, t.results)) =
      some ([0x01, 0xFC, 0x00, 0x00], [.ok (.q 310000000)]) ∧
    refusal (.profileSetSystemClock 10000000 32) (openProfile []) = some .illegalOperand := by
  decide +kernel

/-- L1-6 (three words, 90_conflicts.md C1), and L2-P15's overflow at 31 bytes. -/
theorem test_profileFinalize :
    after .profileFinalize (openProfile [0x00, 0x16, 0x04, 0x12, 0x34, 0x56, 0x78]) (fun t => (t.q.bytes, t.results)) =
      some ([0x00, 0x16, 0x04, 0x12, 0x34, 0x56, 0x78, 0x07, 0x00, 0x00, 0x00, 0x06],
        [.ok (.words [0x12041600, 0x07785634, 0x06000000])]) ∧
    after .profileFinalize (openProfile (List.replicate 31 0)) (fun t => (t.q.status, t.results)) =
      some (.opened, [.err .pOverflow]) := by
  decide

/-- 30_encoding.md R72; 41_transport.md R135, R138. -/
theorem test_frameWideWrite :
    ends (.frameWideWrite 0x00#7 [0x16]) (hostState .fourBitSerial false) =
      some ([.write [0x00, 0x16] true], [.ok .none]) ∧
    ends (.frameWideWrite 0x00#7 [0x16]) (hostState .fourBitSerial true) = some ([], [.err .aInvalidState]) := by
  decide

/-- 30_encoding.md R73. -/
theorem test_frameWideRead :
    ends (.frameWideRead 0x05#7) (drawing [.data [0x10, 0x00]] (hostState .fourBitSerial false)) =
      some ([.read 0x85 2 (some [0x10, 0x00])], [.ok (.bytes [0x10, 0x00])]) := by
  decide

/-- L2-T3's frame. -/
theorem test_frameNarrowWrite :
    ends (.frameNarrowWrite 0x05#7 [0x10, 0x00]) (hostState .singleBitTwoWire false) =
      some ([.write [0x00, 0x00, 0x01, 0x01, 0x00, 0x01, 0x00, 0x00, 0x00, 0x00, 0x00, 0x00] true], [.ok .none]) := by
  decide

/-- 30_encoding.md R77. -/
theorem test_profileRecord :
    ends (.profileRecord 0x07#7 [0x00, 0x00]) (hostState .fourBitSerial true) =
      some ([.write [0x07, 0x00, 0x00] true], [.ok .none]) := by
  decide

/-- The host's reading of a table row: the first instruction after reset (log 18). -/
theorem test_withFetchWord :
    decodeTableWord 8 0x23 = some (.setFrequency 0b0001#4 0) ∧ decodeTableWord 8 0x84 = some (.frameWideRead 0x04#7) ∧
    step (State.reset.withFetchWord 8 0x04) = exec (.phaseToPow 0) State.reset := by
  refine ⟨by decide, by decide +kernel, by rfl⟩

/-! ## Every statement with hypotheses is met by a state and operands -/

theorem witness_DecodeEncodeRoundTrip :
    Config.default.wf = true ∧
    (Instr.setFrequency 0b1000#4 0).wellFormed Config.default = true ∧
    wireModeOk .twoBitSerial (.setFrequency 0b1000#4 0) = true ∧
    (Instr.frameNarrowWrite 0x07#7 [0, 0]).wellFormed Config.default = true ∧
    wireModeOk .singleBitTwoWire (.frameNarrowWrite 0x07#7 [0, 0]) = true := by
  decide

theorem witness_DecodedPacketIsItsEncoding :
    decode Config.default .fourBitSerial (.frame [0x80]) = .ok (.frameWideRead 0x00#7) := by decide

/-- The least mode index above 3; a low bit beside a flag, and no flag; no flag and two flags; two and four bytes. -/
theorem witness_IllegalOperandsRefused :
    3 < 4 ∧ (0x11#8 &&& 0x0F#8 ≠ 0#8 ∨ 0x11#8 = 0#8) ∧ (0x00#8 &&& 0x0F#8 ≠ 0#8 ∨ 0x00#8 = 0#8) ∧
    0x00#8 ∉ [0x10#8, 0x20#8, 0x40#8, 0x80#8] ∧ 0x30#8 ∉ [0x10#8, 0x20#8, 0x40#8, 0x80#8] ∧
    ([1, 2] : List Byte).length ≠ 3 ∧ ([1, 2, 3, 4] : List Byte).length ≠ 3 ∧ (0b0001#4 : ChSet) ≠ 0 := by
  decide

theorem witness_StepRunsDecoded :
    decode State.reset.cfg State.reset.a.mode (.command 0x2A#8 []) = .ok .selfTest ∧
    decode State.reset.cfg State.reset.a.mode (.command 0x21#8 []) = .error .reservedOpcode := by
  decide

theorem witness_NarrowExpansionInverts :
    0 < 8 ∧ 7 < 8 ∧ 0x10#8 ∈ expand 0x80#8 ∧ 1 ≠ 0 ∧ 1 ≠ 4 ∧ 7 ≠ 0 ∧ 7 ≠ 4 := by decide

theorem witness_NarrowFramesKeepLinesLow : (1#4) ∈ symbols (narrowFrame 0x00 [0xF6]) := by decide

theorem witness_Fr1Payloads : Config.default.fr1Byte = 0 := rfl

/-- Every band edge, the smallest references, and the operands of each error. -/
theorem witness_ValidateClockingResult :
    State.reset.cfg.codecArith = .exact ∧
    ((4 * 25000000 : Rat) = 100000000 ∧ (8 * 20000000 : Rat) = 160000000 ∧ (5 * 100000000 : Rat) = 500000000) ∧
    ((1 : Nat) = 1 ∧ (1000000 : Rat) ≤ 1000000 ∧ (0 : Rat) ≤ 1000000 ∧ (1000000 : Rat) < 100000000) ∧
    ¬ ((1000000 : Rat) ≤ 999999) ∧ ¬ ((3 : Nat) = 1 ∨ (4 ≤ 3 ∧ 3 ≤ 20)) ∧
    (¬ ((255000000 : Rat) ≤ 7 * 25000000) ∧ ¬ ((7 * 25000000 : Rat) ≤ 160000000)) := by
  decide +kernel

theorem witness_FreqToFtwResult :
    State.reset.cfg.codecArith = .exact ∧ (0 : Rat) ≤ 0 ∧
    ((0 : Rat) < 500000000 ∧ ((-1 : Rat) < 0 ∨ (500000000 / 2 : Rat) < -1)) ∧
    ((0 : Rat) < 500000000 ∧ (0 : Rat) ≤ 250000000 ∧ (250000000 : Rat) ≤ 500000000 / 2) := by
  decide +kernel

theorem witness_DecoderResults : State.reset.cfg.decodeRound = .exact := rfl

theorem witness_PhaseToPowResult : State.reset.cfg.codecArith = .exact := rfl

theorem witness_AmpToAcrResult :
    State.reset.cfg.codecArith = .exact ∧ ((-1 / 100 : Rat) < 0 ∨ (1 : Rat) < -1 / 100) ∧
    ((10001 / 10000 : Rat) < 0 ∨ (1 : Rat) < 10001 / 10000) ∧ ((0 : Rat) ≤ 0 ∧ (0 : Rat) < 1) ∧ (1 : Rat) = 1 := by
  decide +kernel

theorem witness_PhaseRoundTrip :
    Config.default.codecArith = .exact ∧ Config.default.decodeRound = .exact ∧ (0 : Rat) ≤ 16383 / 16384 ∧
    (16383 / 16384 : Rat) < 1 := by
  decide +kernel

theorem witness_AmplitudeRoundTrip :
    Config.default.codecArith = .exact ∧ Config.default.decodeRound = .exact ∧ (0 : Rat) ≤ 1 ∧ (1 : Rat) ≤ 1 := by
  decide

theorem witness_FrequencyRoundTrip :
    Config.default.codecArith = .exact ∧ Config.default.decodeRound = .exact ∧ (0 : Rat) < 100000000 ∧
    ((0 : Rat) ≤ 10000000 ∧ (10000000 : Rat) ≤ 100000000 / 2) ∧ (100000000 / 2 : Rat) < 50000001 := by
  decide +kernel

/-- At the least threshold of the range, with a clock of the upper band. -/
theorem witness_VcoBitOfAcceptedClock :
    (160000000 : Rat) ≤ ({ Config.default with vcoThresholdHz := 160000000 } : Config).vcoThresholdHz ∧
    ({ Config.default with vcoThresholdHz := 160000000 } : Config).vcoThresholdHz < 255000000 ∧
    validateClocking { Config.default with vcoThresholdHz := 160000000 } 25500000 10 = .ok 255000000 := by
  decide +kernel

theorem witness_CodecCommandsAreStateless : (Instr.powToPhase 0).isCodec = true := rfl

theorem witness_ConfigureModeCompletes : hostOwns State.reset.c.phase = true := rfl

theorem witness_StartStreamCompletes :
    hostOwns (hostState .fourBitSerial true).c.phase = true ∧ (hostState .fourBitSerial true).a.streaming = true ∧
    (hostState .fourBitSerial true).a.mode = .fourBitSerial ∧ (0x00#8).getLsbD 7 = false ∧
    (after .startStream (hostState .fourBitSerial true) (·.a.streaming)) = some true := by
  decide

theorem witness_TransportOwnership :
    (ready100 0 0).c.phase = .ready ∧ Instr.startStream.isTransport = true ∧
    (Instr.frameNarrowWrite 0 []).isWire = true ∧ (Instr.init .fourBitSerial 0 0).isInit = true ∧ State.reset.c.phase = .absent ∧
    Instr.profileFinalize.isProfile = true := by
  decide

/-- A register of two bytes in the narrow mode, and one of four in the wide mode. -/
theorem witness_XportWriteCompletes :
    (hostState .singleBitTwoWire false).cfg.wf = true ∧ hostOwns (hostState .singleBitTwoWire false).c.phase = true ∧
    ([0x12, 0x34] : List Byte).length = regWidth .cpow0 ∧
    (hostState .singleBitTwoWire false).drawAt 0 [] ≠ .fail ∧ ([0x12, 0x34] : List Byte).length ≤ 2 ∧
    ([1, 2, 3, 4] : List Byte).length = regWidth .cftw0 ∧ (hostState .fourBitSerial false).drawAt 0 [] ≠ .fail ∧
    (hostState .fourBitSerial false).a.streaming = false ∧
    (failingAt 0 (hostState .singleBitTwoWire false)).drawAt 0 [] = .fail ∧
    (failingAt 0 (hostState .fourBitSerial false)).drawAt 0 [] = .fail := by
  decide

theorem witness_AdapterErrorsBeforeAnyEvent :
    hostOwns State.reset.c.phase = true ∧ (0x80#8).getLsbD 7 = true ∧ (0x7F#8).getLsbD 7 = false ∧
    (hostState .singleBitThreeWire false).a.mode = .singleBitThreeWire ∧
    (hostState .twoBitSerial false).a.mode = .twoBitSerial ∧ State.reset.a.mode = .singleBitTwoWire ∧
    2 < ([1, 2, 3] : List Byte).length ∧ (hostState .fourBitSerial true).a.streaming = true ∧
    State.reset.cfg.readDuringStream = .reject := by
  decide

/-- A stream under READ_DURING_STREAM = pass. -/
def passing : State :=
  { hostState .fourBitSerial true with cfg := { Config.default with readDuringStream := .pass } }

theorem witness_XportReadCompletes :
    hostOwns (hostState .fourBitSerial false).c.phase = true ∧ (hostState .fourBitSerial false).a.streaming = false ∧
    (3#8).toNat = regWidth .acr ∧
    answerOf State.reset.cfg [] State.reset.env.chip ((drawing [.data [1, 2, 3]] (hostState .fourBitSerial false)).drawAt 0 [])
      (readByte (regAddr State.reset.cfg .acr)) (regWidth .acr) = some [1, 2, 3] ∧
    (hostState .fourBitSerial false).cfg.wf = true ∧
    (failingAt 0 (hostState .fourBitSerial false)).drawAt 0 [] = .fail ∧ passing.cfg.readDuringStream = .pass ∧
    passing.a.streaming = true ∧ hostOwns passing.c.phase = true := by
  decide

/-- An address that names no register, and a width one off; a read is refused in a stream too, under READ_DURING_STREAM = pass. -/
theorem witness_IllFormedTransactionsRefused :
    hostOwns State.reset.c.phase = true ∧ (0x02#8).getLsbD 7 = false ∧
    (∀ r ∈ allRegs, writeByte (regAddr State.reset.cfg r) ≠ 0x02#8 ∨ regWidth r ≠ 1) ∧
    (∀ r ∈ allRegs, writeByte (regAddr State.reset.cfg r) ≠ 0x05#8 ∨ regWidth r ≠ 1) ∧
    State.reset.a.mode = .singleBitTwoWire ∧ ([0] : List Byte).length ≤ 2 ∧
    (hostState .fourBitSerial false).a.streaming = false ∧ hostOwns passing.c.phase = true ∧
    passing.a.mode = .fourBitSerial ∧ passing.cfg.readDuringStream = .pass ∧
    refusal (.xportRead 0x02 1) passing = some .illFormedTransaction := by
  decide

theorem witness_StreamWriteOutcomes :
    hostOwns (hostState .fourBitSerial true).c.phase = true ∧ State.reset.a.mode ≠ .fourBitSerial ∧
    (hostState .fourBitSerial true).a.streaming = true ∧ ([1, 2, 3] : List Byte).length % 4 ≠ 0 ∧
    ([] : List Byte).length % 4 = 0 ∧ (hostState .fourBitSerial true).drawAt 0 [] ≠ .fail ∧
    streamRecords State.reset.cfg [0x00, 0x16, 0x00, 0x06] = some [(.csr, [0x16]), (.csr, [0x06])] := by
  decide

theorem witness_AdapterErrorsKeepTheAdapter :
    (Instr.xportRead 0x80 1).isTransport = true ∧
    ends (.xportRead 0x80 1) State.reset = some ([], [.err .aInvalidAddress]) ∧
    ends (.xportRead 0x00 1) (drawing [.fail] (hostState .fourBitSerial false)) =
      some ([.read 0x80 1 none], [.err .aBus]) := by
  decide

theorem witness_WireFormsComplete :
    State.reset.cfg.wf = true ∧ hostOwns (hostState .fourBitSerial true).c.phase = true ∧
    (failingAt 0 (hostState .fourBitSerial false)).drawAt 0 [] = .fail ∧
    (failingAt 0 (hostState .fourBitSerial true)).drawAt 0 [] = .fail ∧
    (failingAt 0 (hostState .singleBitTwoWire false)).drawAt 0 [] = .fail ∧ ([0x16] : List Byte).length = regWidth .csr ∧ ([0x16] : List Byte).length ≤ 2 ∧
    (hostState .fourBitSerial false).a.streaming = false ∧ (hostState .fourBitSerial true).a.streaming = true ∧
    (hostState .fourBitSerial true).drawAt 0 [] ≠ .fail ∧ (hostState .singleBitTwoWire false).drawAt 0 [] ≠ .fail ∧
    passing.a.streaming = true ∧ passing.cfg.readDuringStream = .pass ∧ passing.cfg.wf = true ∧
    ends (.frameWideRead 0x00#7) passing = some ([.read 0x80 1 (some [0x00])], [.ok (.bytes [0x00])]) ∧
    answerOf State.reset.cfg [] State.reset.env.chip ((hostState .fourBitSerial false).drawAt 0 [])
      (readByte (regAddr State.reset.cfg .csr)) (regWidth .csr) = some [0x00] := by
  decide

/-- Ready-100 is Ready, wide and not streaming, and its echo oracle accepts whatever it is given. -/
theorem ready100_wide (csr : Byte) (fr1 : BitVec 24) : (ready100 csr fr1).Wide := ⟨rfl, rfl⟩

theorem ready100_accepts (csr : Byte) (fr1 : BitVec 24) (k : Nat) (trace es : List Event) :
    AcceptsAll (ready100 csr fr1) k trace es := acceptsAll_echo rfl rfl es k trace

theorem ready100_answers_csr (csr : Byte) (fr1 : BitVec 24) (k : Nat) (trace : List Event) (chip : Chip) :
    Answers (ready100 csr fr1) k trace chip .csr [chip.written.csr] :=
  answers_echo (by show Config.default.wf = true; decide) rfl rfl (by simp [readReg, beBytes])

/-- Where the oracle echoes k times and then fails, the k-th draw fails; the earlier ones answer a CSR read and accept a write. -/
theorem failingAt_draw (k : Nat) (s : State) (trace : List Event) : (failingAt k s).drawAt k trace = .fail := by
  simp [failingAt, drawing, State.drawAt, State.setScript]

theorem failingAt_echo {j k : Nat} (h : j < k) (s : State) (trace : List Event) :
    (failingAt k s).drawAt j trace = .echo := by
  obtain ⟨n, hn⟩ : ∃ n, k - j = n + 1 := ⟨k - j - 1, by omega⟩
  have hd : (List.replicate k Draw.echo ++ [Draw.fail]).drop j = .echo :: (List.replicate n .echo ++ [.fail]) := by
    rw [List.drop_append, List.drop_replicate, hn, List.length_replicate, show j - k = 0 by omega]
    rfl
  simp [failingAt, drawing, State.drawAt, State.setScript, hd]

/-- What the statements of the controller's commands suppose where their k-th transaction fails. -/
theorem ready100_failingAt (k : Nat) (csr : Byte) (fr1 : BitVec 24) :
    (failingAt k (ready100 csr fr1)).cfg.wf = true ∧ (failingAt k (ready100 csr fr1)).c.phase = .ready ∧
    (failingAt k (ready100 csr fr1)).Wide ∧ (∀ trace, (failingAt k (ready100 csr fr1)).drawAt k trace = .fail) ∧
    ∀ j, j < k → ∀ trace, (failingAt k (ready100 csr fr1)).drawAt j trace ≠ .fail ∧
      ∀ (chip : Chip) (r : Reg) (d : List Byte), readReg r chip.written = some d →
        Answers (failingAt k (ready100 csr fr1)) j trace chip r d :=
  ⟨by show Config.default.wf = true; decide, rfl, ⟨rfl, rfl⟩, failingAt_draw k _, fun j hj trace =>
    ⟨by rw [failingAt_echo hj]; nofun,
      fun _ _ _ h => answers_of_echo (by show Config.default.wf = true; decide) (failingAt_echo hj _ trace) h⟩⟩

theorem witness_SetFrequencyCompletes :
    (ready100 0xF6 0).cfg.wf = true ∧ (ready100 0xF6 0).c.phase = .ready ∧ (0xF#4 : ChSet) ≠ 0 ∧
    (0 < (ready100 0xF6 0).systemHz ∧ (ready100 0xF6 0).systemHz / 2 < 50000001 ∧
      (0 : Rat) ≤ 50000000 ∧ (50000000 : Rat) ≤ (ready100 0xF6 0).systemHz / 2) ∧
    (ready100 0xF6 0).Wide ∧ ∀ es, AcceptsAll (ready100 0xF6 0) 0 [] es :=
  ⟨by decide, rfl, by decide, by decide +kernel, ready100_wide _ _, ready100_accepts _ _ _ _⟩

theorem witness_SetPhaseCompletes :
    (ready100 0xF6 0).cfg.wf = true ∧ (ready100 0xF6 0).c.phase = .ready ∧ (ready100 0xF6 0).Wide ∧
    (0b1000#4 : ChSet) ≠ 0 ∧ ∀ es, AcceptsAll (ready100 0xF6 0) 0 [] es :=
  ⟨by decide, rfl, ready100_wide _ _, by decide, ready100_accepts _ _ _ _⟩

theorem witness_SetAmplitudeCompletes :
    (ready100 0xF6 0).cfg.wf = true ∧ (ready100 0xF6 0).c.phase = .ready ∧ (0b0001#4 : ChSet) ≠ 0 ∧
    ((1 : Rat) < 3 / 2 ∧ ampToAcr (ready100 0xF6 0).cfg 1 = .ok 0#32) ∧
    (ready100 0xF6 0).Wide ∧ ∀ es, AcceptsAll (ready100 0xF6 0) 0 [] es :=
  ⟨by decide, rfl, by decide, by decide +kernel, ready100_wide _ _, ready100_accepts _ _ _ _⟩

/-- CSR read, the write accepted, CPOW0 read and the restore accepted; for the clauses where one of them fails see
`ready100_failingAt`. -/
theorem witness_GettersComplete :
    ((ready100 0xF6 0).cfg.wf = true ∧ (ready100 0xF6 0).c.phase = .ready) ∧
    (ready100 0xF6 0).Wide ∧ Answers (ready100 0xF6 0) 0 [] (ready100 0xF6 0).env.chip .csr [0xF6] ∧
    (∀ k trace, (ready100 0xF6 0).drawAt k trace ≠ .fail) ∧
    Answers (ready100 0xF6 0) 2 [] ((ready100 0xF6 0).env.chip.write .csr [0x26]) .cpow0 [0x00, 0x00] :=
  ⟨by decide, ready100_wide _ _, ready100_answers_csr _ _ _ _ _, fun k trace => by rw [drawAt_echo rfl rfl]; nofun,
    answers_echo (by decide) rfl rfl (by decide)⟩

theorem witness_BroadcastReachesTheSet : Reg.acr = .cftw0 ∨ Reg.acr = .cpow0 ∨ Reg.acr = .acr := by decide

theorem witness_ConfigureSystemClockCompletes :
    ((ready100 0xF6 0x100000).cfg.wf = true ∧ (ready100 0xF6 0x100000).c.phase = .ready) ∧
    (ready100 0xF6 0x100000).Wide ∧ validateClocking (ready100 0xF6 0x100000).cfg 100000000 5 = .ok 500000000 ∧
    Answers (ready100 0xF6 0x100000) 0 [] (ready100 0xF6 0x100000).env.chip .fr1 [0x10, 0x00, 0x00] ∧
    ∀ trace, (ready100 0xF6 0x100000).drawAt 1 trace ≠ .fail :=
  ⟨by decide, ready100_wide _ _, by decide +kernel, answers_echo (by decide) rfl rfl (by decide),
    fun trace => by rw [drawAt_echo rfl rfl]; nofun⟩

theorem witness_ClockErrorsKeepTheClock :
    (ready100 0xF6 0x100000).c.phase = .ready ∧
    validateClocking (ready100 0xF6 0x100000).cfg 25000000 7 = .error .frequency ∧
    validateClocking (ready100 0xF6 0x100000).cfg 25000000 21 = .error .bounds ∧
    ends (.configureSystemClock 25000000 7) (ready100 0xF6 0x100000) = some ([], [.err .frequency]) ∧
    ends (.configureSystemClock 25000000 4) (drawing [.fail] (ready100 0xF6 0x100000)) =
      some ([.read 0x81 3 none], [.err .interface]) := by
  decide +kernel

theorem witness_SelfTestRestoresCsr :
    ((ready100 0x16 0).cfg.wf = true ∧ (ready100 0x16 0).c.phase = .ready) ∧
    (ready100 0x16 0).Wide ∧ csrChannels 0xF6 = 0xF#4 ∧ csrChannels 0x06 = 0x0#4 ∧
    Answers (ready100 0x16 0) 0 [] (ready100 0x16 0).env.chip .csr [0x16] ∧
    Answers (ready100 0x16 0) 2 [] ((ready100 0x16 0).env.chip.write .csr [0xF6]) .csr [0xF6] ∧
    Answers (ready100 0x16 0) 4 [] ((ready100 0x16 0).env.chip.write .csr [0x06]) .csr [0x06] ∧
    ∀ k trace, (ready100 0x16 0).drawAt k trace ≠ .fail :=
  ⟨by decide, ready100_wide _ _, by decide, by decide, ready100_answers_csr _ _ _ _ _, ready100_answers_csr _ _ _ _ _,
    ready100_answers_csr _ _ _ _ _, fun k trace => by rw [drawAt_echo rfl rfl]; nofun⟩

/-- L2-M20's and L2-M19's answers. -/
theorem witness_SelfTestSoftMismatch :
    (ready100 0x16 0).cfg.wf = true ∧ (ready100 0x16 0).c.phase = .ready ∧ (ready100 0x16 0).a.mode = .fourBitSerial ∧
    (ready100 0x16 0).a.streaming = false ∧
    csrChannels 0x76 ≠ 0xF#4 ∧ csrChannels 0xF6 = 0xF#4 ∧ csrChannels 0x16 ≠ 0x0#4 ∧
    ends .selfTest (drawing [.echo, .echo, .data [0x76]] (ready100 0x16 0)) =
      some ([.read 0x80 1 (some [0x16]), .write [0x00, 0xF6] true, .read 0x80 1 (some [0x76])], [.ok (.bool false)]) ∧
    ends .selfTest (drawing [.echo, .echo, .echo, .echo, .data [0x16]] (ready100 0x16 0)) =
      some ([.read 0x80 1 (some [0x16]), .write [0x00, 0xF6] true, .read 0x80 1 (some [0xF6]),
        .write [0x00, 0x06] true, .read 0x80 1 (some [0x16])], [.ok (.bool false)]) := by
  decide

theorem witness_FreezeCompletes :
    (ready100 0xF6 0).c.phase = .ready ∧ Instr.freeze.isSteady = true ∧ Instr.freeze.wellFormed Config.default = true ∧
    Instr.startStream.isTransport = true := by
  decide

theorem witness_SteadyCommandsNeedReady :
    Instr.selfTest.isSteady = true ∧ Instr.selfTest.wellFormed Config.default = true ∧
    State.reset.c.phase ≠ .ready := by
  decide

/-- From the reset state with the echo oracle: the chip reads CSR back as written, and FR1 as zeros. -/
theorem witness_InitCompletes :
    (hostState .singleBitTwoWire false).cfg.wf = true ∧ hostOwns (hostState .singleBitTwoWire false).c.phase = true ∧
    (hostState .singleBitTwoWire false).a.streaming = false ∧
    validateClocking (hostState .singleBitTwoWire false).cfg 25000000 4 = .ok 100000000 ∧
    (∀ k trace es, AcceptsAll (hostState .singleBitTwoWire false) k trace es) ∧
    (∀ k trace (chip : Chip), Answers (hostState .singleBitTwoWire false) k trace (chip.write .csr [0xF6]) .csr [0xF6]) :=
  ⟨by decide +kernel, rfl, rfl, by decide +kernel, fun k trace es => acceptsAll_echo rfl rfl es k trace,
    fun k trace chip => answers_echo (by decide) rfl rfl (by simp [readReg, Chip.write, Chip.withWritten, writeReg, fromBe, beBytes])⟩

/-- The read-back answered with another byte (L2-I3), and answered as written with a clock out of bounds (L2-I8). -/
theorem witness_InitEndsReadyOrFailed_readBack :
    let s := drawing (List.replicate 6 .echo ++ [.data [0x00]]) (hostState .singleBitTwoWire false)
    let u := hostState .singleBitTwoWire false
    (s.cfg.wf = true ∧ hostOwns s.c.phase = true ∧ s.a.streaming = false ∧
      (0x00#8 ≠ csrByte s.cfg .fourBitSerial 0xF#4)) ∧
    AcceptsAll s 0 s.trace (initHead s.cfg (csrByte s.cfg .fourBitSerial 0xF#4) [.pin .update true true, .delay 5,
      .pin .update false true, .delay 5]) ∧
    (∀ trace chip, Answers s 6 trace chip .csr [0x00]) ∧
    (u.cfg.wf = true ∧ hostOwns u.c.phase = true ∧ u.a.streaming = false ∧
      csrByte u.cfg .fourBitSerial 0xF#4 = 0xF6#8 ∧ validateClocking u.cfg 25000000 21 = .error .bounds) ∧
    (∀ es, AcceptsAll u 0 u.trace es) ∧
    ∀ k trace (chip : Chip), Answers u k trace (chip.write .csr [0xF6]).commit .csr [0xF6] :=
  ⟨by decide, ⟨nofun, nofun, nofun, nofun, nofun, nofun, trivial⟩, fun _ _ => rfl, by decide +kernel,
    fun es => acceptsAll_echo rfl rfl es 0 _, fun k trace chip => answers_echo (by decide) rfl rfl
      (by simp [readReg, Chip.write, Chip.commit, Chip.withWritten, writeReg, fromBe, beBytes])⟩

/-- Its first pin change fails, and its CSR write. -/
theorem witness_InitEndsReadyOrFailed :
    hostOwns State.reset.c.phase = true ∧ hostOwns .failed = true ∧
    ends (.init .fourBitSerial 25000000 4) (failingAt 0 (hostState .singleBitTwoWire false)) =
      some ([.pin .update false false], [.err .pin]) ∧
    after (.init .fourBitSerial 25000000 4) (failingAt 3 (hostState .singleBitTwoWire false)) (·.results) =
      some [.err .interface] := by
  decide

theorem witness_InitNeedsWideModeAndNoStream :
    (hostState .fourBitSerial true).cfg.wf = true ∧ hostOwns (hostState .fourBitSerial true).c.phase = true ∧
    (hostState .fourBitSerial true).a.streaming = true ∧
    (hostState .fourBitSerial true).cfg.readDuringStream = .reject ∧ Mode.twoBitSerial ≠ .fourBitSerial ∧
    (∀ es, AcceptsAll (hostState .fourBitSerial true) 0 [] es) :=
  ⟨by decide, rfl, rfl, rfl, by decide, fun es => acceptsAll_echo rfl rfl es 0 []⟩

/-- The last room there is: 14 bytes at cursor 18. -/
theorem witness_ProfileUpdateChannelsCompletes :
    (openProfile (List.replicate 18 0)).q.status = .opened ∧ (0b0001#4 : ChSet) ≠ 0 ∧
    (openProfile (List.replicate 18 0)).q.cursor + (2 + 5 + 3 + 4) ≤ 32 := by
  decide

theorem witness_ProfileSetSystemClockCompletes :
    (openProfile (List.replicate 28 0)).q.status = .opened ∧ 31 < (32#8).toNat ∧ (-1 : Rat) < 0 ∧ (31#8).toNat ≤ 31 ∧
    (0 : Rat) ≤ 0 ∧ (openProfile (List.replicate 28 0)).q.cursor + 4 ≤ 32 := by
  decide

/-- One cursor of each residue modulo 4, the largest that still fits (43_profile.md R204, R205). -/
theorem witness_ProfileFinalizeCompletes :
    (openProfile []).q.status = .opened ∧ (openProfile []).cfg.padLsrr = 0 ∧ (openProfile []).cfg.padCsr = none ∧
    (openProfile []).cfg.wordEndian = .little ∧ 32 + 0 ≤ 32 ∧ 29 + 3 ≤ 32 ∧ 30 + 2 ≤ 32 ∧ 27 + 5 ≤ 32 := by
  decide

/-- The first cursor at which each command passes 32. -/
theorem witness_ProfileOverflowChangesNothing :
    (openProfile (List.replicate 31 0)).q.status = .opened ∧ (0b0001#4 : ChSet) ≠ 0 ∧ 32 < 31 + (2 + 0 + 0 + 0) ∧
    (31#8).toNat ≤ 31 ∧ (0 : Rat) ≤ 0 ∧ 32 < 29 + 4 ∧ (openProfile (List.replicate 31 0)).q.cursor % 4 = 3 ∧
    32 < 31 + 5 := by
  decide

theorem witness_ProfileCommandsNeedAnOpenProfile :
    State.reset.q.status ≠ .opened ∧ Instr.profileFinalize.isProfile = true ∧
    Instr.profileFinalize.wellFormed State.reset.cfg = true ∧
    ends .profileFinalize (openProfile []) = some ([], [.ok (.words [])]) ∧
    after (.profileNew .fourBitSerial) State.reset (·.q.status) = some .opened := by
  decide

theorem witness_ProfileCommandsTouchOnlyTheProfile :
    Instr.profileFinalize.isProfile = true ∧ ends .profileFinalize (openProfile []) ≠ none := by
  decide

/-- Ready-100 meets the invariant, and one step from it answers a next state. -/
theorem witness_StepKeepsTheInvariant :
    (ready100 0xF6 0x100000).Inv ∧
    (match step ((ready100 0xF6 0x100000).setInbox [.command 0x2B#8 []]) with
      | .next t => t.c.phase == .frozen
      | .fault _ => false
      | .refused _ => false) = true := by
  refine ⟨⟨rfl, fun _ => ⟨rfl, rfl, rfl, ⟨100000000, by decide +kernel⟩, rfl⟩, ?_⟩, by decide +kernel⟩
  exact ⟨by decide, rfl, fun a => by simp [ready100, State.reset, Memory.read?], fun h => by cases h⟩

/-- One instruction for each clause: it writes the field. -/
theorem witness_FieldsWrittenOnlyByTheirCommands :
    after (.configureMode .fourBitSerial) State.reset (fun t => t.a.mode != State.reset.a.mode) = some true ∧
    after .startStream State.reset (fun t => t.a.streaming != State.reset.a.streaming) = some true ∧
    after .freeze (ready100 0 0) (fun t => t.c.phase != (ready100 0 0).c.phase) = some true ∧
    after (.configureSystemClock 100000000 5) (ready100 0 0) (fun t => t.c.mult != (ready100 0 0).c.mult) = some true ∧
    after (.init .fourBitSerial 25000000 4) (hostState .singleBitTwoWire false) (fun t => t.c.mode != .singleBitTwoWire) =
      some true ∧
    after (.profileNew .fourBitSerial) State.reset (fun t => t.q != State.reset.q) = some true ∧
    after (.profileNew .fourBitSerial) State.reset (fun t => t.q.mode != State.reset.q.mode) = some true ∧
    after .profileFinalize (openProfile []) (fun t => t.q.status != (openProfile []).q.status) = some true := by
  decide +kernel

theorem witness_CommandsOnlyExtendTheObservation :
    ends .startStream State.reset = some ([], [.ok .none]) ∧
    ends (.xportRead 0x00 1) (failingAt 0 (hostState .fourBitSerial false)) =
      some ([.read 0x80 1 none], [.err .aBus]) := by
  decide

theorem witness_OnlyInitPulsesAndWaits :
    Instr.selfTest.isInit = false ∧ ends .selfTest (ready100 0x16 0) ≠ none := by
  decide

theorem witness_SteadyCommandErrors :
    (Instr.setAmplitude 0b0001#4 2).isSteady = true ∧
    ends (.setAmplitude 0b0001#4 2) (ready100 0xF6 0) = some ([], [.err .bounds]) ∧
    ends (.setAmplitude 0b0001#4 1) (drawing [.fail] (ready100 0xF6 0)) =
      some ([.write [0x00, 0x16] false], [.err .interface]) := by
  decide +kernel

theorem witness_EchoedSetterIsReadBack :
    (ready100 0xF6 0).cfg.wf = true ∧ (ready100 0xF6 0).c.phase = .ready ∧ (ready100 0xF6 0).env.script = [] ∧
    (ready100 0xF6 0).env.rest = .echo ∧ (ready100 0xF6 0).a.mode = .fourBitSerial ∧
    (ready100 0xF6 0).a.streaming = false ∧
    after (.setFrequency (channelFlag .four) 50000000) (ready100 0xF6 0) (·.results) = some [.ok (.q 50000000)] ∧
    after (.setPhase (channelFlag .one) (5 / 4)) (ready100 0xF6 0) (·.results) = some [.ok (.q (1 / 4))] ∧
    after (.setAmplitude (channelFlag .two) 1) (ready100 0xF6 0) (·.results) = some [.ok (.q 1)] := by
  decide +kernel

theorem witness_EchoedSelfTestPasses :
    (ready100 0x16 0).cfg.wf = true ∧ (ready100 0x16 0).c.phase = .ready ∧ (ready100 0x16 0).env.script = [] ∧
    (ready100 0x16 0).env.rest = .echo ∧ (ready100 0x16 0).a.mode = .fourBitSerial ∧
    (ready100 0x16 0).a.streaming = false := by
  decide

end Sys2Proof.Tests
end

section
/-!
PROOFS of the encoding family (30_encoding.md): operand legality at decode, the narrow expansion, the lines of a narrow
frame, and the fields of the CSR byte. First what the decoder's operand readers, `expand`, `symbols` and `csrByte` do; then
the obligations.
-/

namespace Sys2Proof.Machine

/-! ## Command packets through the decoder (30_encoding.md R83, R84) -/

/-- The opcode byte names its opcode: R83 gives the 26 commands different bytes. -/
@[simp] theorem opcodeOfByte_opcodeByte (o : Opcode) : opcodeOfByte (opcodeByte o) = some o := by
  cases o <;> decide

theorem decode_commandPacket (cfg : Config) (mode : Mode) (o : Opcode) (operands : List Operand) :
    decode cfg mode (commandPacket o operands) = decodeOperands o operands := by
  simp [decode, commandPacket, decodeCommand]

theorem step_of_decode_error {s : State} {p : Packet} {e : DecodeError} (h : decode s.cfg s.a.mode p = .error e)
    (ps : List Packet) : step (s.setInbox (p :: ps)) = .refused (refusalOf e) := by
  simp [step, h]

/-- A command whose operands are illegal is refused before any effect. -/
theorem step_refuses_operands {o : Opcode} {operands : List Operand}
    (h : decodeOperands o operands = .error .illegalOperand) (s : State) (ps : List Packet) :
    step (s.setInbox (commandPacket o operands :: ps)) = .refused .illegalOperand :=
  step_of_decode_error ((decode_commandPacket _ _ o operands).trans h) ps

/-- A command that is decoded from one checked operand `x` is refused when the check refuses it. -/
theorem step_refuses_operand {α : Type} (o : Opcode) {operands : List Operand} {x : Except DecodeError α} {f : α → Instr}
    (hd : decodeOperands o operands = x.map f) (hx : x = .error .illegalOperand) (s : State) (ps : List Packet) :
    step (s.setInbox (commandPacket o operands :: ps)) = .refused .illegalOperand :=
  step_refuses_operands (by rw [hd, hx]; rfl) s ps

/-! ## The operand readers (30_encoding.md R84) -/

@[simp] theorem readMode_modeIndex (m : Mode) : readMode (modeIndex m) = .ok m := by
  cases m <;> rfl

theorem readMode_of_gt {n : Nat} (h : 3 < n) : readMode n = .error .illegalOperand := by
  match n, h with
  | _ + 4, _ => rfl

theorem readChSet_chSetByte {cs : ChSet} (h : cs ≠ 0) : readChSet (chSetByte cs) = .ok cs := by
  revert cs; decide

theorem readChSet_illegal {b : Byte} (h : b &&& 0x0F#8 ≠ 0#8 ∨ b = 0#8) : readChSet b = .error .illegalOperand := by
  revert b; decide

theorem readCh_illegal {b : Byte} (h : b ∉ [0x10#8, 0x20#8, 0x40#8, 0x80#8]) : readCh b = .error .illegalOperand := by
  revert b; decide

theorem decodeOperands_acrToAmp_of_length_ne {acr : List Byte} (h : acr.length ≠ 3) :
    decodeOperands .acrToAmp [.bytes acr] = .error .illegalOperand := by
  match acr, h with
  | [], _ => rfl
  | [_], _ => rfl
  | [_, _], _ => rfl
  | [_, _, _], h => exact absurd rfl h
  | _ :: _ :: _ :: _ :: _, _ => rfl

/-! ## Expanded bytes (30_encoding.md R74) -/

@[simp] theorem expandPair_bit0 (hi lo : Bool) : (expandPair hi lo).getLsbD 0 = lo := by
  revert hi lo; decide

@[simp] theorem expandPair_bit4 (hi lo : Bool) : (expandPair hi lo).getLsbD 4 = hi := by
  revert hi lo; decide

theorem expandPair_other_bit (hi lo : Bool) {k : Nat} (h0 : k ≠ 0) (h4 : k ≠ 4) :
    (expandPair hi lo).getLsbD k = false := by
  by_cases hk : k < 8
  · have low : ∀ k < 8, k ≠ 0 → k ≠ 4 → ∀ hi lo, (expandPair hi lo).getLsbD k = false := by decide
    exact low k hk h0 h4 hi lo
  · exact BitVec.getLsbD_of_ge _ _ (by omega)

theorem eq_expandPair_of_mem_expand {b e : Byte} (h : e ∈ expand b) : ∃ hi lo, e = expandPair hi lo := by
  simp only [expand, List.mem_cons, List.not_mem_nil, or_false] at h
  obtain h | h | h | h := h <;> exact ⟨_, _, h⟩

/-- The place of a logical bit: the expanded byte of its pair, bit 4 for the odd one and bit 0 for the even one. -/
theorem expand_bit (b : Byte) {k : Nat} (h : k < 8) :
    ∃ e, (expand b)[3 - k / 2]? = some e ∧ e.getLsbD (4 * (k % 2)) = b.getLsbD k := by
  match k, h with
  | 0, _ | 2, _ | 4, _ | 6, _ => exact ⟨_, rfl, expandPair_bit0 _ _⟩
  | 1, _ | 3, _ | 5, _ | 7, _ => exact ⟨_, rfl, expandPair_bit4 _ _⟩

@[simp] theorem narrowFrame_length (addr : Byte) (payload : List Byte) :
    (narrowFrame addr payload).length = 4 * (1 + payload.length) := by
  simp [narrowFrame, List.length_flatMap, Nat.mul_add, Nat.mul_comm]

/-! ## The symbols of a narrow frame (30_encoding.md R70, R74, R76) -/

/-- The four-line symbol that carries one logical bit on IO0 and holds IO1, IO2 and IO3 at 0. -/
def narrowSymbol (bit : Bool) : BitVec 4 := 0#3 ++ BitVec.ofBool bit

@[simp] theorem narrowSymbol_line0 (bit : Bool) : (narrowSymbol bit).getLsbD 0 = bit := by
  revert bit; decide

theorem narrowSymbol_upper_lines (bit : Bool) :
    (narrowSymbol bit).getLsbD 1 = false ∧ (narrowSymbol bit).getLsbD 2 = false ∧
      (narrowSymbol bit).getLsbD 3 = false := by
  revert bit; decide

/-- A byte's bits, most significant first. -/
def bitsMsbFirst (b : Byte) : List Bool := [7, 6, 5, 4, 3, 2, 1, 0].map fun k => b.getLsbD k

theorem symbols_expandPair_cons (hi lo : Bool) (frame : List Byte) :
    symbols (expandPair hi lo :: frame) = narrowSymbol hi :: narrowSymbol lo :: symbols frame := by
  have nibbles : symbols [expandPair hi lo] = [narrowSymbol hi, narrowSymbol lo] := by revert hi lo; decide
  exact congrArg (· ++ symbols frame) nibbles

theorem symbols_flatMap {α : Type} (f : α → List Byte) (xs : List α) :
    symbols (xs.flatMap f) = xs.flatMap fun x => symbols (f x) :=
  List.flatMap_assoc

/-- A logical byte is eight symbols, one for each of its bits. -/
theorem symbols_expand (b : Byte) : symbols (expand b) = (bitsMsbFirst b).map narrowSymbol := by
  simp only [expand, symbols_expandPair_cons]
  rfl

/-- A narrow frame is one symbol for each bit of the address and the payload. -/
theorem symbols_narrowFrame (addr : Byte) (payload : List Byte) :
    symbols (narrowFrame addr payload) = ((addr :: payload).flatMap bitsMsbFirst).map narrowSymbol := by
  rw [narrowFrame, symbols_flatMap, List.map_flatMap]
  simp only [symbols_expand]

/-! ## The CSR byte (30_encoding.md R79) -/

/-- The layout of the CSR byte: the channel flags, a zero bit, the mode code. -/
theorem csrByte_eq_append (cfg : Config) (m : Mode) (cs : ChSet) :
    csrByte cfg m cs = cs ++ (0#1 ++ modeCode cfg m) := by
  have disjoint : ∀ (code : BitVec 3) (cs : ChSet), (0#5 ++ code) ||| chSetByte cs = cs ++ (0#1 ++ code) := by decide
  exact disjoint (modeCode cfg m) cs

@[simp] theorem csrChannels_csrByte (cfg : Config) (m : Mode) (cs : ChSet) : csrChannels (csrByte cfg m cs) = cs := by
  rw [csrByte_eq_append]
  exact BitVec.extractLsb'_append_eq_left

theorem csrByte_bit3 (cfg : Config) (m : Mode) (cs : ChSet) : (csrByte cfg m cs).getLsbD 3 = false := by
  rw [csrByte_eq_append, BitVec.getLsbD_append, BitVec.getLsbD_append]
  rfl

theorem csrByte_modeCode (cfg : Config) (m : Mode) (cs : ChSet) :
    (csrByte cfg m cs).extractLsb' 0 3 = modeCode cfg m := by
  rw [csrByte_eq_append, BitVec.extractLsb'_append_eq_of_add_le (by decide)]
  exact BitVec.extractLsb'_append_eq_right

/-! ## The obligations -/

/-- Settles O5: each operand reader refuses its illegal values, and the decoder of every command with such an operand goes
through that reader; XPORT_WRITE's data, XPORT_READ's n and the Q operands go through none. -/
theorem illegalOperandsRefused : Obligations.IllegalOperandsRefused := by
  intro s ps
  refine ⟨fun n hn ref mult => ?mode, fun b hb x ftw acr pow => ?chSet, fun b hb => ?ch, fun acr hacr => ?acrBytes,
    fun addr n data => ?lengths, fun x y mult ftw m cs hcs => ?rationals⟩
  case mode =>
    have bad := readMode_of_gt hn
    exact ⟨step_refuses_operand .configureMode rfl bad s ps, step_refuses_operand .init rfl bad s ps,
      step_refuses_operand .profileNew rfl bad s ps⟩
  case chSet =>
    have bad := readChSet_illegal hb
    exact ⟨step_refuses_operand .setFrequency rfl bad s ps, step_refuses_operand .setPhase rfl bad s ps,
      step_refuses_operand .setAmplitude rfl bad s ps, step_refuses_operand .profileUpdateChannels rfl bad s ps⟩
  case ch =>
    have bad := readCh_illegal hb
    exact ⟨step_refuses_operand .getFrequency rfl bad s ps, step_refuses_operand .getPhase rfl bad s ps,
      step_refuses_operand .getAmplitude rfl bad s ps⟩
  case acrBytes => exact step_refuses_operands (decodeOperands_acrToAmp_of_length_ne hacr) s ps
  case lengths =>
    exact ⟨decode_commandPacket _ _ .xportWrite _, decode_commandPacket _ _ .xportRead _⟩
  case rationals =>
    have legal {f : ChSet → Instr} : (readChSet (chSetByte cs)).map f = .ok (f cs) := by rw [readChSet_chSetByte hcs]; rfl
    have init : (readMode (modeIndex m)).map (fun m => Instr.init m x mult) = .ok (.init m x mult) := by
      rw [readMode_modeIndex]; rfl
    exact ⟨decode_commandPacket _ _ .validateClocking _, decode_commandPacket _ _ .freqToFtw _,
      decode_commandPacket _ _ .ftwToFreq _, decode_commandPacket _ _ .phaseToPow _, decode_commandPacket _ _ .ampToAcr _,
      (decode_commandPacket _ _ .init _).trans init, (decode_commandPacket _ _ .setFrequency _).trans legal,
      (decode_commandPacket _ _ .setPhase _).trans legal, (decode_commandPacket _ _ .setAmplitude _).trans legal,
      decode_commandPacket _ _ .configureSystemClock _, decode_commandPacket _ _ .profileSetSystemClock _⟩

/-- Settles O7: the bits of an expanded pair, and `unexpandAll` on an expansion. -/
theorem narrowExpansionInverts : Obligations.NarrowExpansionInverts := by
  refine ⟨fun b k hk => expand_bit b hk, fun b => ⟨expand_length b, fun e he k h0 h4 => ?_⟩,
    fun addr payload => ⟨narrowFrame_length addr payload, unexpandAll_expand (addr :: payload)⟩⟩
  obtain ⟨hi, lo, rfl⟩ := eq_expandPair_of_mem_expand he
  exact expandPair_other_bit hi lo h0 h4

/-- Settles O8: every symbol of a narrow frame is the symbol of one logical bit, in order. -/
theorem narrowFramesKeepLinesLow : Obligations.NarrowFramesKeepLinesLow := by
  intro addr payload
  rw [symbols_narrowFrame]
  constructor
  · intro sym hsym
    obtain ⟨bit, -, rfl⟩ := List.mem_map.mp hsym
    exact narrowSymbol_upper_lines bit
  · simp only [List.map_map, Function.comp_def, narrowSymbol_line0, List.map_id']
    rfl

/-- Settles O9: the fields are read off the layout of the byte. -/
theorem csrByteFields : Obligations.CsrByteFields := by
  intro cfg m cs
  exact ⟨rfl, csrChannels_csrByte cfg m cs, csrByte_bit3 cfg m cs, csrByte_modeCode cfg m cs⟩

end Sys2Proof.Machine
end

section
/-!
PROOFS of the codec family (40_codec.md): the seven conversions at exact arithmetic, their round trips, and the codec
commands as computations that touch no state. First what each command and each conversion does; then the obligations.
-/

namespace Sys2Proof.Machine

/-! ## The codec commands run their conversions (40_codec.md R114) -/

/-- The result the host gets of a computation that may raise an error. -/
def codecResult {α : Type} (f : α → Value) : Except Err α → CmdResult
  | .ok v => .ok (f v)
  | .error e => .err e

@[simp] theorem codecResult_ok {α : Type} (f : α → Value) (v : α) : codecResult f (.ok v) = .ok (f v) := rfl

@[simp] theorem codecResult_error {α : Type} (f : α → Value) (e : Err) : codecResult f (.error e) = .err e := rfl

theorem complete_orRaise_eq_report {α : Type} (x : Except Err α) (f : α → Value) (s : State) :
    complete (do let v ← orRaise x; return f v) s = .next (s.report (codecResult f x)) := by
  rw [complete_orRaise]
  cases x <;> rfl

theorem exec_validateClocking (ref : Rat) (mult : Byte) (s : State) :
    exec (.validateClocking ref mult) s = .next (s.report (codecResult .q (validateClocking s.cfg ref mult))) :=
  complete_orRaise_eq_report _ _ s

theorem exec_freqToFtw {sys : Rat} (h : 0 < sys) (hz : Rat) (s : State) :
    exec (.freqToFtw hz sys) s = .next (s.report (codecResult .u32 (freqToFtw s.cfg hz sys))) :=
  (if_neg (not_le.mpr h)).trans (complete_orRaise_eq_report _ _ s)

theorem exec_freqToFtw_refused {sys : Rat} (h : sys ≤ 0) (hz : Rat) (s : State) :
    exec (.freqToFtw hz sys) s = .refused .nonPositiveSystemClock :=
  if_pos h

theorem exec_ftwToFreq (ftw : Word) (sys : Rat) (s : State) :
    exec (.ftwToFreq ftw sys) s = .next (s.report (.ok (.q (ftwToFreq s.cfg ftw sys)))) := rfl

theorem exec_phaseToPow (turns : Rat) (s : State) :
    exec (.phaseToPow turns) s = .next (s.report (.ok (.u16 (phaseToPow s.cfg turns)))) := rfl

theorem exec_powToPhase (pow : BitVec 16) (s : State) :
    exec (.powToPhase pow) s = .next (s.report (.ok (.q (powToPhase s.cfg pow)))) := rfl

theorem exec_ampToAcr (amp : Rat) (s : State) :
    exec (.ampToAcr amp) s = .next (s.report (codecResult .u32 (ampToAcr s.cfg amp))) :=
  complete_orRaise_eq_report _ _ s

theorem exec_acrToAmp (a0 a1 a2 : Byte) (s : State) :
    exec (.acrToAmp a0 a1 a2) s = .next (s.report (.ok (.q (acrToAmp s.cfg [a0, a1, a2])))) := rfl

/-! ## VALIDATE_CLOCKING (40_codec.md R101) -/

/-- R101's range conditions on the multiplier and the reference. -/
def ClockRanges (ref : Rat) (mult : Byte) : Prop :=
  (mult.toNat = 1 ∨ (4 ≤ mult.toNat ∧ mult.toNat ≤ 20)) ∧ 1000000 ≤ ref ∧ (mult.toNat ≠ 1 → 10000000 ≤ ref)

/-- R101's bands of the system clock. -/
def ClockBand (mult : Byte) (eff : Rat) : Prop :=
  (255000000 ≤ eff ∧ eff ≤ 500000000) ∨ (100000000 ≤ eff ∧ eff ≤ 160000000) ∨
    (mult.toNat = 1 ∧ 0 ≤ eff ∧ eff < 100000000)

theorem multLegal_iff {mult : Byte} :
    multLegal mult = true ↔ mult.toNat = 1 ∨ (4 ≤ mult.toNat ∧ mult.toNat ≤ 20) := by
  simp [multLegal]

theorem inBand_iff {mult : Byte} {eff : Rat} : inBand mult eff = true ↔ ClockBand mult eff := by
  simp [inBand, ClockBand, or_assoc, and_assoc]

theorem validateClocking_of_ranges {ref : Rat} {mult : Byte} (h : ClockRanges ref mult) (cfg : Config) :
    validateClocking cfg ref mult =
      if inBand mult (effHz cfg ref mult) then .ok (effHz cfg ref mult) else .error .frequency := by
  obtain ⟨hmult, href, hpll⟩ := h
  have pll : ¬ (mult.toNat ≠ 1 ∧ ref < refMinPllHz) := fun ⟨h1, hlt⟩ => (hpll h1).not_gt hlt
  simp [validateClocking, multLegal_iff.mpr hmult, pll, href.not_gt]

theorem validateClocking_of_not_ranges {ref : Rat} {mult : Byte} (h : ¬ ClockRanges ref mult) (cfg : Config) :
    validateClocking cfg ref mult = .error .bounds := by
  have ranges (hmult : ¬ (!multLegal mult) = true) (hpll : ¬ (mult.toNat ≠ 1 ∧ ref < refMinPllHz))
      (href : ¬ ref < refMinHz) : ClockRanges ref mult :=
    ⟨multLegal_iff.mp (by simpa using hmult), not_lt.mp href, fun h1 => not_lt.mp fun hlt => hpll ⟨h1, hlt⟩⟩
  unfold validateClocking
  split_ifs with hmult hpll href
  · rfl
  · rfl
  · rfl
  all_goals exact absurd (ranges hmult hpll href) h

/-! ## Exact arithmetic and rounding (40_codec.md R100) -/

section Exact

variable {cfg : Config}

theorem effHz_exact (h : cfg.codecArith = .exact) (ref : Rat) (mult : Byte) :
    effHz cfg ref mult = (mult.toNat : Rat) * ref := by
  simp only [effHz, h]

theorem ftwFloor_exact (h : cfg.codecArith = .exact) (hz sys : Rat) :
    ftwFloor cfg hz sys = ⌊hz * 2 ^ 32 / sys⌋ := by
  simp only [ftwFloor, h, show (2 : Rat) ^ 32 = 4294967296 by norm_num]
  rfl

theorem powFloor_exact (h : cfg.codecArith = .exact) (turns : Rat) : powFloor cfg turns = ⌊turns * 2 ^ 14⌋ := by
  simp only [powFloor, h, show (2 : Rat) ^ 14 = 16384 by norm_num]
  rfl

theorem codeFloor_exact (h : cfg.codecArith = .exact) (amp : Rat) : codeFloor cfg amp = ⌊amp * 2 ^ 10⌋ := by
  simp only [codeFloor, h, show (2 : Rat) ^ 10 = 1024 by norm_num]
  rfl

theorem decoded_exact (h : cfg.decodeRound = .exact) (x : Rat) : decoded cfg x = x := by
  simp only [decoded, h]

end Exact

/-! ## Floors and what they lose -/

/-- A floor of `n` codes to the full scale `u` loses less than one code. -/
theorem floor_loss (x : Rat) {u n : Rat} (hu : 0 < u) (hn : 0 < n) :
    0 ≤ x - ⌊x * n / u⌋ * u / n ∧ x - ⌊x * n / u⌋ * u / n < u / n := by
  have step : 0 < u / n := div_pos hu hn
  rw [← div_div_eq_mul_div x u n, mul_div_assoc]
  exact ⟨Int.sub_floor_div_mul_nonneg x step, Int.sub_floor_div_mul_lt x step⟩

/-- `floor_loss` at full scale 1 and `2^k` codes. -/
theorem floor_loss_two_pow (x : Rat) (k : Nat) :
    0 ≤ x - ⌊x * 2 ^ k⌋ / 2 ^ k ∧ x - ⌊x * 2 ^ k⌋ / 2 ^ k < 1 / 2 ^ k := by
  simpa using floor_loss x one_pos (n := 2 ^ k) (by positivity)

theorem floor_mul_two_pow_bounds {x : Rat} (h0 : 0 ≤ x) (h1 : x < 1) (k : Nat) :
    0 ≤ ⌊x * 2 ^ k⌋ ∧ ⌊x * 2 ^ k⌋ < 2 ^ k := by
  constructor
  · positivity
  · rw [Int.floor_lt]
    push_cast
    exact mul_lt_of_lt_one_left (by positivity) h1

theorem natCast_toNat_ofInt (w : Nat) (i : Int) : ((BitVec.ofInt w i).toNat : Int) = i % 2 ^ w := by
  rw [BitVec.toNat_ofInt, Int.toNat_of_nonneg (Int.emod_nonneg _ (by positivity))]
  simp

/-! ## Tuning words (40_codec.md R102, R103) -/

theorem freqToFtw_bounds {hz sys : Rat} (h : hz < 0 ∨ sys / 2 < hz) (cfg : Config) :
    freqToFtw cfg hz sys = .error .bounds :=
  if_pos h

/-- Up to the Nyquist bound the tuning word is the floor itself: it is at most 2^31, so no bit is cut off. -/
theorem freqToFtw_exact {cfg : Config} {hz sys : Rat} (h : cfg.codecArith = .exact) (hsys : 0 < sys) (h0 : 0 ≤ hz)
    (h1 : hz ≤ sys / 2) :
    ∃ ftw, freqToFtw cfg hz sys = .ok ftw ∧ (ftw.toNat : Int) = ⌊hz * 2 ^ 32 / sys⌋ ∧ ftw.toNat ≤ 2 ^ 31 := by
  have nonneg : 0 ≤ ⌊hz * 2 ^ 32 / sys⌋ := by positivity
  have le : ⌊hz * 2 ^ 32 / sys⌋ ≤ 2 ^ 31 := by
    have : hz * 2 ^ 32 / sys ≤ 2 ^ 31 := by rw [div_le_iff₀ hsys]; linarith
    exact_mod_cast (Int.floor_le _).trans this
  have value : ((BitVec.ofInt 32 (ftwFloor cfg hz sys)).toNat : Int) = ⌊hz * 2 ^ 32 / sys⌋ := by
    rw [natCast_toNat_ofInt, ftwFloor_exact h]
    omega
  exact ⟨_, if_neg (not_or.mpr ⟨h0.not_gt, h1.not_gt⟩), value, by omega⟩

theorem ftwToFreq_exact {cfg : Config} (h : cfg.decodeRound = .exact) (ftw : Word) (sys : Rat) :
    ftwToFreq cfg ftw sys = (ftw.toNat : Rat) * sys / 2 ^ 32 := by
  rw [ftwToFreq, decoded_exact h]
  norm_num

/-! ## Phase words (40_codec.md R104, R105) -/

theorem phaseToPow_exact {cfg : Config} (h : cfg.codecArith = .exact) (turns : Rat) :
    ((phaseToPow cfg turns).toNat : Int) = ⌊turns * 2 ^ 14⌋ % 2 ^ 14 := by
  rw [phaseToPow, powFloor_exact h, BitVec.toNat_append, ← natCast_toNat_ofInt]
  simp

theorem powToPhase_exact {cfg : Config} (h : cfg.decodeRound = .exact) (pow : BitVec 16) :
    powToPhase cfg pow = ((pow.toNat % 2 ^ 14 : Nat) : Rat) / 2 ^ 14 := by
  rw [powToPhase, decoded_exact h, BitVec.toNat_and]
  rw [show (0x3FFF#16).toNat = 2 ^ 14 - 1 from rfl, Nat.and_two_pow_sub_one_eq_mod]
  norm_num

/-! ## Amplitude words (40_codec.md R106, R107) -/

theorem ampToAcr_bounds {amp : Rat} (h : amp < 0 ∨ 1 < amp) (cfg : Config) : ampToAcr cfg amp = .error .bounds :=
  if_pos h

/-- Below full scale the word is the enable bit and the code, side by side. -/
theorem ampToAcr_of_lt_one {cfg : Config} {amp : Rat} (h : cfg.codecArith = .exact) (h0 : 0 ≤ amp) (h1 : amp < 1) :
    ∃ acr, ampToAcr cfg amp = .ok acr ∧ (acr.toNat : Int) = 4096 + ⌊amp * 2 ^ 10⌋ := by
  obtain ⟨nonneg, lt⟩ := floor_mul_two_pow_bounds h0 h1 10
  refine ⟨0x1000#32 ||| BitVec.ofInt 32 (codeFloor cfg amp), ?_, ?_⟩
  · rw [ampToAcr, if_neg (not_or.mpr ⟨h0.not_gt, h1.le.not_gt⟩), codeFloor_exact h, if_pos (by omega)]
  · have code : ((BitVec.ofInt 32 (codeFloor cfg amp)).toNat : Int) = ⌊amp * 2 ^ 10⌋ := by
      rw [natCast_toNat_ofInt, codeFloor_exact h]
      omega
    rw [BitVec.toNat_or, show (0x1000#32).toNat = 2 ^ 12 * 1 from rfl, ← Nat.two_pow_add_eq_or_of_lt (by omega), ← code]
    push_cast
    rfl

theorem ampToAcr_one {cfg : Config} (h : cfg.codecArith = .exact) : ampToAcr cfg 1 = .ok 0#32 := by
  norm_num [ampToAcr, codeFloor_exact h]

theorem acrToAmp_exact {cfg : Config} (h : cfg.decodeRound = .exact) (payload : List Byte) :
    acrToAmp cfg payload =
      if (fromBe payload).testBit 12 then ((fromBe payload % 1024 : Nat) : Rat) / 1024 else 1 := by
  have bit : (BitVec.ofNat 24 (fromBe payload)).getLsbD 12 = (fromBe payload).testBit 12 := by
    rw [BitVec.getLsbD_ofNat]
    rfl
  have code : (BitVec.ofNat 24 (fromBe payload) &&& 0x3FF#24).toNat = fromBe payload % 1024 := by
    rw [BitVec.toNat_and, show (0x3FF#24).toNat = 2 ^ 10 - 1 from rfl, Nat.and_two_pow_sub_one_eq_mod,
      BitVec.toNat_ofNat]
    omega
  rw [acrToAmp, acrValueToAmp, bit, code, decoded_exact h]

theorem fromBe_acrPayload (acr : Word) : fromBe (acrPayload acr) = acr.toNat % 2 ^ 24 :=
  fromBe_beBytes 3 acr.toNat

theorem acrToAmp_of_enabled {cfg : Config} (h : cfg.decodeRound = .exact) {payload : List Byte} {code : Nat}
    (hp : fromBe payload = 4096 + code) (hc : code < 1024) : acrToAmp cfg payload = (code : Rat) / 1024 := by
  have bit : (2 ^ 12 + code).testBit 12 = true := by
    rw [Nat.testBit_two_pow_add_eq, Nat.testBit_lt_two_pow (by omega)]
    rfl
  have low : (2 ^ 12 + code) % 1024 = code := by omega
  rw [acrToAmp_exact h, hp, show 4096 = 2 ^ 12 from rfl, if_pos bit, low]

theorem acrToAmp_of_zero {cfg : Config} (h : cfg.decodeRound = .exact) {payload : List Byte} (hp : fromBe payload = 0) :
    acrToAmp cfg payload = 1 := by
  rw [acrToAmp_exact h, hp]
  rfl

/-! ## The obligations -/

/-- Settles O11: the ranges decide between Bounds and the band test, at the exact product. -/
theorem validateClockingResult : Obligations.ValidateClockingResult := by
  intro s ref mult hexact ranges eff band
  have heff : effHz s.cfg ref mult = eff := effHz_exact hexact ref mult
  refine ⟨fun ⟨hr, hb⟩ => ?legal, fun hr => ?bounds, fun ⟨hr, hb⟩ => ?frequency,
    decode_commandPacket _ _ .validateClocking _⟩
  case legal =>
    rw [exec_validateClocking, validateClocking_of_ranges hr, heff, if_pos (inBand_iff.mpr hb), codecResult_ok]
  case bounds => rw [exec_validateClocking, validateClocking_of_not_ranges hr, codecResult_error]
  case frequency =>
    rw [exec_validateClocking, validateClocking_of_ranges hr, heff, if_neg (mt inBand_iff.mp hb), codecResult_error]

/-- Settles O12: the refused clock, the two bounds, and the floor up to Nyquist. -/
theorem freqToFtwResult : Obligations.FreqToFtwResult := by
  intro s hz sys hexact
  refine ⟨fun hsys => exec_freqToFtw_refused hsys hz s, fun hsys hb => ?bounds, fun hsys h0 h1 => ?inRange,
    decode_commandPacket _ _ .freqToFtw _⟩
  case bounds => rw [exec_freqToFtw hsys, freqToFtw_bounds hb, codecResult_error]
  case inRange =>
    obtain ⟨ftw, hok, hvalue⟩ := freqToFtw_exact hexact hsys h0 h1
    exact ⟨ftw, by rw [exec_freqToFtw hsys, hok, codecResult_ok], hvalue⟩

/-- Settles O13: each decoder's exact value, and the three payload bytes as one number. -/
theorem decoderResults : Obligations.DecoderResults := by
  intro s hexact
  refine ⟨fun ftw sys => ?ftw, fun pow => ?pow, fun a0 a1 a2 => ?acr, fun ftw sys pow a0 a1 a2 =>
    ⟨decode_commandPacket _ _ .ftwToFreq _, decode_commandPacket _ _ .powToPhase _, decode_commandPacket _ _ .acrToAmp _⟩⟩
  case ftw => rw [exec_ftwToFreq, ftwToFreq_exact hexact]
  case pow => rw [exec_powToPhase, powToPhase_exact hexact]
  case acr =>
    have value : fromBe [a0, a1, a2] = a0.toNat * 65536 + a1.toNat * 256 + a2.toNat := by
      simp [fromBe_cons, Nat.add_assoc]
    rw [exec_acrToAmp, acrToAmp_exact hexact, value]

/-- Settles O14: the low 14 bits of the floor are its residue, negative floors included. -/
theorem phaseToPowResult : Obligations.PhaseToPowResult := by
  intro s turns hexact
  exact ⟨_, exec_phaseToPow turns s, phaseToPow_exact hexact turns, decode_commandPacket _ _ .phaseToPow _⟩

/-- Settles O15: out of bounds, below full scale, and full scale. -/
theorem ampToAcrResult : Obligations.AmpToAcrResult := by
  intro s amp hexact
  refine ⟨fun hb => ?bounds, fun h0 h1 => ?code, fun h1 => ?fullScale, decode_commandPacket _ _ .ampToAcr _⟩
  case bounds => rw [exec_ampToAcr, ampToAcr_bounds hb, codecResult_error]
  case code =>
    obtain ⟨acr, hok, hvalue⟩ := ampToAcr_of_lt_one hexact h0 h1
    exact ⟨acr, by rw [exec_ampToAcr, hok, codecResult_ok], hvalue⟩
  case fullScale => rw [exec_ampToAcr, h1, ampToAcr_one hexact, codecResult_ok]

/-- Settles O16: for a phase in [0, 1) the mask cuts nothing off, so only the floor loses. -/
theorem phaseRoundTrip : Obligations.PhaseRoundTrip := by
  intro cfg turns hexact hround h0 h1
  obtain ⟨nonneg, lt⟩ := floor_mul_two_pow_bounds h0 h1 14
  have code : (((phaseToPow cfg turns).toNat % 2 ^ 14 : Nat) : Int) = ⌊turns * 2 ^ 14⌋ := by
    have := phaseToPow_exact hexact turns
    omega
  rw [powToPhase_exact hround, ← Int.cast_natCast, code]
  exact floor_loss_two_pow turns 14

/-- Settles O17: below full scale the payload holds the floored code; at full scale the word is 0, which decodes to 1. -/
theorem amplitudeRoundTrip : Obligations.AmplitudeRoundTrip := by
  intro cfg hexact hround
  refine ⟨fun amp h0 h1 => ?_, ampToAcr_one hexact, acrToAmp_of_zero hround rfl⟩
  rcases h1.lt_or_eq with h1 | rfl
  · obtain ⟨nonneg, lt⟩ := floor_mul_two_pow_bounds h0 h1 10
    obtain ⟨acr, hok, hvalue⟩ := ampToAcr_of_lt_one hexact h0 h1
    have value : fromBe (acrPayload acr) = 4096 + ⌊amp * 2 ^ 10⌋.toNat := by
      rw [fromBe_acrPayload]
      omega
    have code : ((⌊amp * 2 ^ 10⌋.toNat : Nat) : Rat) = ⌊amp * 2 ^ 10⌋ := by
      rw [← Int.cast_natCast, Int.toNat_of_nonneg nonneg]
    refine ⟨acr, hok, ?_⟩
    rw [acrToAmp_of_enabled hround value (by omega), code, show (1024 : Rat) = 2 ^ 10 by norm_num]
    exact floor_loss_two_pow amp 10
  · refine ⟨0#32, ampToAcr_one hexact, ?_⟩
    rw [acrToAmp_of_zero hround rfl]
    norm_num

/-- Settles O18: the tuning word is the floor itself, so only the floor loses. -/
theorem frequencyRoundTrip : Obligations.FrequencyRoundTrip := by
  intro cfg hz sys hexact hround hsys
  refine ⟨fun h0 h1 => ?_, fun h => freqToFtw_bounds (.inr h) cfg⟩
  obtain ⟨ftw, hok, hvalue, -⟩ := freqToFtw_exact hexact hsys h0 h1
  refine ⟨ftw, hok, ?_⟩
  rw [ftwToFreq_exact hround, ← Int.cast_natCast, hvalue]
  exact floor_loss hz hsys (by positivity)

/-- Settles O20: the result of each codec command is a function of its operands and the configuration. -/
theorem codecCommandsAreStateless : Obligations.CodecCommandsAreStateless := by
  intro i cfg hi
  cases i with
  | validateClocking ref mult => exact .inl ⟨_, fun s hs => hs ▸ exec_validateClocking ref mult s⟩
  | freqToFtw hz sys =>
    rcases le_or_gt sys 0 with h | h
    · exact .inr ⟨hz, sys, rfl, h, exec_freqToFtw_refused h hz⟩
    · exact .inl ⟨_, fun s hs => hs ▸ exec_freqToFtw h hz s⟩
  | ftwToFreq ftw sys => exact .inl ⟨_, fun s hs => hs ▸ exec_ftwToFreq ftw sys s⟩
  | phaseToPow turns => exact .inl ⟨_, fun s hs => hs ▸ exec_phaseToPow turns s⟩
  | powToPhase pow => exact .inl ⟨_, fun s hs => hs ▸ exec_powToPhase pow s⟩
  | ampToAcr amp => exact .inl ⟨_, fun s hs => hs ▸ exec_ampToAcr amp s⟩
  | acrToAmp a0 a1 a2 => exact .inl ⟨_, fun s hs => hs ▸ exec_acrToAmp a0 a1 a2 s⟩
  | _ => cases hi

end Sys2Proof.Machine
end

section
/-!
PROOFS of the transport family (41_transport.md): CONFIGURE_MODE and START_STREAM, the adapter's checks, and what an adapter
error leaves. First what each transport command runs once the host owns the transport, what each check answers, and which
effects touch the streaming bit; then the obligations.
-/

namespace Sys2Proof.Machine

variable {s t u : State}

/-! ## The transport commands while the host owns the transport (60_exceptions.md R237) -/

theorem ifHostOwns_of_owned (h : hostOwns s.c.phase = true) (k : StepOutcome) : ifHostOwns s k = k := if_pos h

theorem exec_configureMode (h : hostOwns s.c.phase = true) (m : Mode) :
    exec (.configureMode m) s = .next ((s.setAdapterMode m).report (.ok .none)) :=
  ifHostOwns_of_owned h _

theorem exec_startStream (h : hostOwns s.c.phase = true) :
    exec .startStream s = .next ((s.setStreaming true).report (.ok .none)) :=
  ifHostOwns_of_owned h _

theorem exec_xportWrite (h : hostOwns s.c.phase = true) (addr : Byte) (data : List Byte) :
    exec (.xportWrite addr data) s = gated (writeGate s addr data) sendWrite s :=
  ifHostOwns_of_owned h _

theorem exec_xportRead (h : hostOwns s.c.phase = true) (addr n : Byte) :
    exec (.xportRead addr n) s = gated (readGate s addr n.toNat) (sendRead n.toNat) s :=
  ifHostOwns_of_owned h _

/-- A check that fails ends the command with its error and nothing else (60_exceptions.md R234). -/
theorem gated_raise {α : Type} (e : Err) (body : α → Proc Value) : gated (.raise e) body s = .next (s.report (.err e)) :=
  rfl

theorem exec_xportWrite_raise {addr : Byte} {data : List Byte} {e : Err} (h : hostOwns s.c.phase = true)
    (hg : writeGate s addr data = .raise e) : exec (.xportWrite addr data) s = .next (s.report (.err e)) := by
  rw [exec_xportWrite h, hg, gated_raise]

theorem exec_xportRead_raise {addr n : Byte} {e : Err} (h : hostOwns s.c.phase = true)
    (hg : readGate s addr n.toNat = .raise e) : exec (.xportRead addr n) s = .next (s.report (.err e)) := by
  rw [exec_xportRead h, hg, gated_raise]

/-! ## What the adapter's checks answer (41_transport.md R132, R134 to R137) -/

section Gates

variable {addr : Byte} {data : List Byte} {n : Nat}

theorem writeGate_of_bit7 (h : addr.getLsbD 7 = true) : writeGate s addr data = .raise .aInvalidAddress := if_pos h

theorem readGate_of_bit7 (h : addr.getLsbD 7 = true) : readGate s addr n = .raise .aInvalidAddress := if_pos h

/-- A write in one of the two unsupported modes. -/
theorem writeGate_of_unsupported (h : addr.getLsbD 7 = false)
    (hm : s.a.mode = .singleBitThreeWire ∨ s.a.mode = .twoBitSerial) : writeGate s addr data = .raise .aInvalidState := by
  rcases hm with hm | hm <;> simp only [writeGate, h, hm, Bool.false_eq_true, if_false]

theorem writeGate_of_too_long (h : addr.getLsbD 7 = false) (hm : s.a.mode = .singleBitTwoWire)
    (hl : narrowMaxPayload < data.length) : writeGate s addr data = .raise .aLength := by
  simp only [writeGate, h, hm, narrowGate, hl, Bool.false_eq_true, if_false, if_true]

/-- A wide write in a stream. -/
theorem writeGate_of_streaming (h : addr.getLsbD 7 = false) (hm : s.a.mode = .fourBitSerial)
    (hs : s.a.streaming = true) : writeGate s addr data = .raise .aInvalidState := by
  simp only [writeGate, h, hm, wideGate, hs, Bool.false_eq_true, if_false, if_true]

/-- A read outside the wide mode. -/
theorem readGate_of_not_wide (h : addr.getLsbD 7 = false) (hm : s.a.mode ≠ .fourBitSerial) :
    readGate s addr n = .raise .aInvalidState := by
  unfold readGate
  rw [h]
  cases hmode : s.a.mode with
  | fourBitSerial => exact absurd hmode hm
  | singleBitTwoWire | singleBitThreeWire | twoBitSerial => rfl

/-- A wide read in a stream, under READ_DURING_STREAM = reject. -/
theorem readGate_of_streaming (h : addr.getLsbD 7 = false) (hm : s.a.mode = .fourBitSerial)
    (hs : s.a.streaming = true) (hr : s.cfg.readDuringStream = .reject) : readGate s addr n = .raise .aInvalidState := by
  simp only [readGate, h, hm, wideReadGate, hs, hr, Bool.false_eq_true, if_false]
  rfl

end Gates

/-! ## The streaming bit (41_transport.md R131) -/

/-- START_STREAM sets the streaming bit; every other effect leaves it as it was. -/
theorem Effect.streaming {i : Instr} (h : Effect s i u) :
    (i = .startStream ∧ u.a.streaming = true) ∨ u.a.streaming = s.a.streaming := by
  cases h with
  | bus _ _ h => exact .inr (congrArg Adapter.streaming h.a)
  | mode m _ _ h => exact .inr (by rw [h, State.setAdapterMode_a])
  | stream hi _ h => exact .inl ⟨hi, by rw [h, State.setStreaming_a]⟩
  | clock _ _ _ v _ _ hb _ h => exact .inr (by rw [h, State.setClock_a, hb.a])
  | freeze _ _ h => exact .inr (by rw [h, State.setPhase_a])
  | profile _ _ h _ _ _ => exact .inr (by rw [h, State.setProfile_a])
  | failed _ _ _ _ _ h _ => exact .inr h.streaming
  | up _ _ _ _ _ h _ _ _ _ _ => exact .inr h.streaming

theorem exec_keeps_streaming {i : Instr} (hs : s.a.streaming = true) (h : exec i s = .next t) :
    t.a.streaming = true := by
  obtain ⟨u, r, hu, rfl⟩ := exec_next_cases h
  rw [State.report_a]
  rcases hu.streaming with ⟨-, hset⟩ | hkept
  · exact hset
  · exact hkept.trans hs

/-! ## Adapter errors (41_transport.md R138) -/

/-- How a transport command that answers the error `e` ends: at a check, with nothing done, or after the one bus event that
the oracle failed. -/
inductive AdapterError (s : State) : Err → State → Prop
  | check {e : Err} (he : e = .aInvalidAddress ∨ e = .aInvalidState ∨ e = .aLength) : AdapterError s e (s.report (.err e))
  | failedWrite (chip : Chip) (bytes : List Byte) :
    AdapterError s .aBus ((s.after 1 chip [.write bytes false]).report (.err .aBus))
  | failedRead (header : Byte) (n : Nat) :
    AdapterError s .aBus ((s.after 1 s.env.chip [.read header n none]).report (.err .aBus))

theorem sendWrite_adapterError {w : WireForm × List Byte} {e : Err} (h : complete (sendWrite w) s = .next t)
    (hr : t.results = s.results ++ [.err e]) : AdapterError s e t := by
  by_cases hd : s.drawAt 0 s.trace = .fail
  · rw [sendWrite_fail hd] at h
    cases h
    obtain rfl : Err.aBus = e := by simpa using hr
    exact .failedWrite _ _
  · rw [sendWrite_ok hd] at h
    cases h
    simp at hr

theorem sendRead_adapterError {n : Nat} {header : Byte} {e : Err} (h : complete (sendRead n header) s = .next t)
    (hr : t.results = s.results ++ [.err e]) : AdapterError s e t := by
  cases ha : answerOf s.cfg s.trace s.env.chip (s.drawAt 0 s.trace) header n with
  | none =>
    rw [sendRead_fail ha] at h
    cases h
    obtain rfl : Err.aBus = e := by simpa using hr
    exact .failedRead _ _
  | some d =>
    rw [sendRead_ok ha] at h
    cases h
    simp at hr

/-- A command whose checks raise only the three codes before any event, and whose transaction can fail. -/
theorem gated_adapterError {α : Type} {g : Gate α} {body : α → Proc Value} {e : Err}
    (hg : ∀ e, g = .raise e → e = .aInvalidAddress ∨ e = .aInvalidState ∨ e = .aLength)
    (hb : ∀ v, complete (body v) s = .next t → t.results = s.results ++ [.err e] → AdapterError s e t)
    (h : gated g body s = .next t) (hr : t.results = s.results ++ [.err e]) : AdapterError s e t := by
  cases g with
  | refuse r => cases h
  | raise e' =>
    cases h
    obtain rfl : e' = e := by simpa using hr
    exact .check (hg e' rfl)
  | pass v => exact hb v h hr

theorem exec_adapterError {i : Instr} {e : Err} (hi : i.isTransport = true) (h : exec i s = .next t)
    (hr : t.results = s.results ++ [.err e]) : AdapterError s e t := by
  cases i with
  | configureMode m =>
    rw [exec_configureMode (ifHostOwns_next h).1] at h
    cases h
    simp at hr
  | startStream =>
    rw [exec_startStream (ifHostOwns_next h).1] at h
    cases h
    simp at hr
  | xportWrite addr data =>
    exact gated_adapterError (fun _ => writeGate_raise) (fun _ => sendWrite_adapterError) (ifHostOwns_next h).2 hr
  | xportRead addr n =>
    exact gated_adapterError (fun _ hg => (readGate_raise hg).imp_right .inl) (fun _ => sendRead_adapterError)
      (ifHostOwns_next h).2 hr
  | streamWrite bytes =>
    exact gated_adapterError (fun _ hg => .inr (.inl (streamGate_raise hg))) (fun _ => sendWrite_adapterError)
      (ifHostOwns_next h).2 hr
  | _ => cases hi

/-! ## The obligations -/

/-- Settles O22: the command's run, the streaming bit over every effect, and the wide path's check in a stream. -/
theorem startStreamCompletes : Obligations.StartStreamCompletes :=
  ⟨fun _ ho => exec_startStream ho,
    fun _ _ _ hs h => exec_keeps_streaming hs h,
    fun _ _ _ ho hm hs h7 => exec_xportWrite_raise ho (writeGate_of_streaming h7 hm hs),
    fun _ => decode_commandPacket _ _ .startStream [],
    rfl⟩

/-- Settles O25: each clause is one check of the write or the read path. -/
theorem adapterErrorsBeforeAnyEvent : Obligations.AdapterErrorsBeforeAnyEvent := by
  intro s addr n data ho
  refine ⟨fun h7 => ?address, fun h7 hm => ?unsupported, fun h7 hm => ?narrow, fun h7 hm hs hr => ?stream⟩
  case address =>
    exact ⟨exec_xportWrite_raise ho (writeGate_of_bit7 h7), exec_xportRead_raise ho (readGate_of_bit7 h7)⟩
  case unsupported =>
    have notWide : s.a.mode ≠ .fourBitSerial := by rcases hm with hm | hm <;> simp [hm]
    exact ⟨exec_xportWrite_raise ho (writeGate_of_unsupported h7 hm),
      exec_xportRead_raise ho (readGate_of_not_wide h7 notWide)⟩
  case narrow =>
    exact ⟨fun hl => exec_xportWrite_raise ho (writeGate_of_too_long h7 hm hl),
      exec_xportRead_raise ho (readGate_of_not_wide h7 (by simp [hm]))⟩
  case stream => exact exec_xportRead_raise ho (readGate_of_streaming h7 hm hs hr)

/-- Settles O29: an error stops a transport command at a check or at its one failed event, and neither touches the
adapter. -/
theorem adapterErrorsKeepTheAdapter : Obligations.AdapterErrorsKeepTheAdapter := by
  intro i s t e hi h hr
  cases exec_adapterError hi h hr with
  | check he => exact ⟨rfl, by tauto, fun _ => rfl, fun hbus => by simp [hbus] at he⟩
  | failedWrite chip bytes => exact ⟨rfl, by simp, fun hne => absurd rfl hne, fun _ => .inl ⟨bytes, rfl⟩⟩
  | failedRead header n => exact ⟨rfl, by simp, fun hne => absurd rfl hne, fun _ => .inr ⟨header, n, rfl⟩⟩

/-- Settles O21: the command's run, and its packet through the decoder. -/
theorem configureModeCompletes : Obligations.ConfigureModeCompletes := by
  intro s m
  have operand : (readMode (modeIndex m)).map Instr.configureMode = .ok (.configureMode m) := by
    rw [readMode_modeIndex]; rfl
  exact ⟨fun ho => exec_configureMode ho m, (decode_commandPacket _ _ .configureMode _).trans operand⟩

end Sys2Proof.Machine
end

section
/-!
PROOFS of the channel multiplexer family (42_channel_mux.md): FREEZE. First the gate of the steady-state commands outside
Ready, and what the gate of the transport commands never answers while the host owns the transport; then the obligation.
-/

namespace Sys2Proof.Machine

variable {s : State}

/-! ## The gates outside Ready (42_channel_mux.md R160; 60_exceptions.md R237) -/

theorem ifReady_of_ready (h : s.c.phase = .ready) (k : StepOutcome) : ifReady s k = k := if_pos h

theorem ifReady_of_not_ready (h : s.c.phase ≠ .ready) (k : StepOutcome) : ifReady s k = .refused .notReady := if_neg h

theorem ifNonEmpty_of_ne_zero {cs : ChSet} (h : cs ≠ 0) (k : StepOutcome) : ifNonEmpty cs k = k := if_neg h

/-- The setters test their channel set first, which a well-formed command passes; every steady command then meets the Ready
gate. -/
theorem exec_steady_of_not_ready {i : Instr} (hi : i.isSteady = true) (hw : i.wellFormed s.cfg = true)
    (hp : s.c.phase ≠ .ready) : exec i s = .refused .notReady := by
  cases i with
  | setFrequency | setPhase | setAmplitude =>
    exact (ifNonEmpty_of_ne_zero (bne_iff_ne.mp hw) _).trans (ifReady_of_not_ready hp _)
  | getFrequency | getPhase | getAmplitude | configureSystemClock | selfTest | freeze => exact ifReady_of_not_ready hp _
  | _ => cases hi

/-- Only the transport commands and the wire forms answer `transportOwned`, and only at their ownership gate. -/
theorem hostOwns_of_refused_transportOwned {i : Instr} (h : exec i s = .refused .transportOwned) :
    hostOwns s.c.phase = false := by
  have families : i.isTransport = true ∧ hostOwns s.c.phase = false ∨ i.isWire = true ∧ hostOwns s.c.phase = false := by
    simpa using exec_refused_cases h
  rcases families with ⟨-, ho⟩ | ⟨-, ho⟩ <;> exact ho

/-! ## FREEZE (42_channel_mux.md R175) -/

theorem exec_freeze (h : s.c.phase = .ready) :
    exec .freeze s = .next ((s.setPhase .frozen).report (.ok (.mode s.c.mode))) :=
  ifReady_of_ready h _

/-- Settles O40: the command's run; the frozen phase is not Ready, so the steady commands stop at their gate, and the host
owns the transport in it. -/
theorem freezeCompletes : Obligations.FreezeCompletes := by
  intro s hr t
  refine ⟨exec_freeze hr, fun i hi hw => ?refused, fun i _ hx => ?owned, decode_commandPacket _ _ .freeze []⟩
  case refused =>
    have notReady : t.c.phase ≠ .ready := (by decide : Phase.frozen ≠ .ready)
    exact exec_steady_of_not_ready hi hw notReady
  case owned =>
    have hostOwned : hostOwns t.c.phase = true := rfl
    have notOwned : hostOwns t.c.phase = false := hostOwns_of_refused_transportOwned hx
    exact Bool.noConfusion (hostOwned.symm.trans notOwned)

end Sys2Proof.Machine
end

section
/-!
PROOFS of the profile family (43_profile.md): the gate of a profile that is not open, what an effect leaves of the profile
and what a profile command's effect is, and the run of PROFILE_FINALIZE; then the obligations.
-/

namespace Sys2Proof.Machine

variable {s t u : State}

/-! ## The gate of the profile commands (43_profile.md R206) -/

theorem ifProfileOpen_of_opened (h : s.q.status = .opened) (k : StepOutcome) : ifProfileOpen s k = k := if_pos h

theorem ifProfileOpen_of_not_opened (h : s.q.status ≠ .opened) (k : StepOutcome) :
    ifProfileOpen s k = .refused .noOpenProfile := if_neg h

/-- PROFILE_UPDATE_CHANNELS tests its channel set first, which a well-formed command passes; every profile command but
PROFILE_NEW then meets the gate. -/
theorem exec_profile_of_not_opened {i : Instr} (ho : s.q.status ≠ .opened) (hi : i.isProfile = true)
    (hw : i.wellFormed s.cfg = true) (hn : ∀ m, i ≠ .profileNew m) : exec i s = .refused .noOpenProfile := by
  cases i with
  | profileNew m => exact absurd rfl (hn m)
  | profileUpdateChannels =>
    exact (ifNonEmpty_of_ne_zero (bne_iff_ne.mp hw) _).trans (ifProfileOpen_of_not_opened ho _)
  | profileSetSystemClock | profileFinalize => exact ifProfileOpen_of_not_opened ho _
  | _ => cases hi

/-! ## The profile under an effect (43_profile.md R206, R207) -/

/-- A profile command's effect is a new profile alone. -/
theorem Effect.eq_setProfile {i : Instr} (hi : i.isProfile = true) (h : Effect s i u) : u = s.setProfile u.q := by
  cases h with
  | bus _ hp _ => exact absurd hi (by simp [hp])
  | profile q _ h _ _ _ => rw [h, State.setProfile_q]
  | mode _ hi' _ _ | stream hi' _ _ | clock _ _ _ _ hi' _ _ _ _ | freeze hi' _ _ | failed _ _ _ hi' _ _ _
  | up _ _ _ hi' _ _ _ _ _ _ _ => subst hi'; cases hi

/-- Only PROFILE_NEW and PROFILE_FINALIZE write the profile's status. -/
theorem Effect.profile_status {i : Instr} (h : Effect s i u) :
    (∃ m, i = .profileNew m) ∨ i = .profileFinalize ∨ u.q.status = s.q.status := by
  have kept : u.q = s.q → (∃ m, i = .profileNew m) ∨ i = .profileFinalize ∨ u.q.status = s.q.status :=
    fun hq => .inr (.inr (congrArg Profile.status hq))
  cases h with
  | bus _ _ h => exact kept h.q
  | mode m _ _ h => exact kept (by rw [h, State.setAdapterMode_q])
  | stream _ _ h => exact kept (by rw [h, State.setStreaming_q])
  | clock _ _ _ v _ _ hb _ h => exact kept (by rw [h, State.setClock_q, hb.q])
  | freeze _ _ h => exact kept (by rw [h, State.setPhase_q])
  | profile q _ h _ _ hst => rwa [h, State.setProfile_q]
  | failed _ _ _ _ _ h _ => exact kept h.q
  | up _ _ _ _ _ h _ _ _ _ _ => exact kept h.q

/-- PROFILE_FINALIZE runs only on an open profile, so a command that opens one is PROFILE_NEW. -/
theorem eq_profileNew_of_opens {i : Instr} (h : exec i s = .next t) (hs : s.q.status ≠ .opened)
    (ht : t.q.status = .opened) : ∃ m, i = .profileNew m := by
  obtain ⟨u, r, hu, rfl⟩ := exec_next_cases h
  rcases hu.profile_status with hnew | rfl | hkept
  · exact hnew
  · exact absurd (ifProfileOpen_next h).1 hs
  · exact absurd (hkept.symm.trans ht) hs

/-! ## The runs of PROFILE_NEW and PROFILE_FINALIZE (43_profile.md R200, R204) -/

theorem exec_profileNew (m : Mode) (s : State) :
    exec (.profileNew m) s =
      .next ((s.setProfile { buf := [], cursor := 0, mode := m, status := .opened }).report (.ok .none)) :=
  rfl

/-- A command whose body starts with a check. -/
theorem complete_require_bind (b : Bool) (e : Err) (body : Unit → Proc Value) (s : State) :
    complete (require b e >>= body) s = if b then complete (body ()) s else .next (s.report (.err e)) := by
  cases b <;> simp [complete_def]

theorem exec_profileFinalize (h : s.q.status = .opened) :
    exec .profileFinalize s =
      if s.q.cursor + (pad1 s.q.cursor + pad2 s.q.cursor) ≤ profileCap then
        .next ((s.setProfile { s.q.padded s.cfg with status := .finalized }).report
          (.ok (.words (wordsOf s.cfg.wordEndian (s.q.padded s.cfg).bytes))))
      else .next (s.report (.err .pOverflow)) := by
  refine (ifProfileOpen_of_opened h _).trans ((complete_require_bind _ _ _ s).trans ?_)
  simp only [decide_eq_true_eq]
  rfl

/-- Where PROFILE_FINALIZE answers words it had room for the pads, and the profile is finalized. -/
theorem finalized_of_words {words : List Word} (h : exec .profileFinalize s = .next t)
    (hr : t.results = s.results ++ [.ok (.words words)]) : t.q.status = .finalized := by
  rw [exec_profileFinalize (ifProfileOpen_next h).1] at h
  split at h
  · cases h
    rfl
  · cases h
    simp at hr

/-! ## The obligations -/

/-- Settles O50: the gate; a PROFILE_FINALIZE that answers words ends with a finalized profile; and the effects that write
the profile's status. -/
theorem profileCommandsNeedAnOpenProfile : Obligations.ProfileCommandsNeedAnOpenProfile := by
  refine ⟨fun s i ho hi hw hn => exec_profile_of_not_opened ho hi hw hn, fun s t words h hr => ?_,
    fun i s t h hs ht => eq_profileNew_of_opens h hs ht⟩
  rw [finalized_of_words h hr]
  decide

/-- Settles O51: the effect of a profile command is a new profile, and its end reports one result. -/
theorem profileCommandsTouchOnlyTheProfile : Obligations.ProfileCommandsTouchOnlyTheProfile := by
  intro i s t hi h
  obtain ⟨u, r, hu, rfl⟩ := exec_next_cases h
  rw [hu.eq_setProfile hi]
  rfl

/-- Settles O45: the command's run, and its packet through the decoder. -/
theorem profileNewCompletes : Obligations.ProfileNewCompletes := by
  intro s m
  have operand : (readMode (modeIndex m)).map Instr.profileNew = .ok (.profileNew m) := by
    rw [readMode_modeIndex]; rfl
  exact ⟨⟨[], exec_profileNew m s⟩, (decode_commandPacket _ _ .profileNew _).trans operand⟩

end Sys2Proof.Machine
end

section
/-!
PROOFS of the bring-up family (70_reset_and_hazards.md): INIT outside the wide mode or in a stream. First what the controller's
reads do where the adapter's check stops them, then the end of an INIT that raises an error; then the obligation.
-/

namespace Sys2Proof.Machine

variable {s t : State} {m : Mode} {ref : Rat} {mult : Byte} {e : Err}

/-! ## A read that the adapter stops (41_transport.md R136, R137, R141) -/

/-- The adapter's error surfaces as Interface, with no event. -/
theorem ctlRead_of_gate_raise {r : Reg} (h : readGate s (writeByte (regAddr s.cfg r)) (regWidth r) = .raise e) :
    ctlRead r s = .error .interface s := by
  unfold ctlRead
  rw [h]

/-- Outside the wide mode, or in a stream whose reads are rejected, the read-back stops at the adapter's check. -/
theorem verifyMode_stopped (w : Byte)
    (h : s.a.mode ≠ .fourBitSerial ∨ s.a.streaming = true ∧ s.cfg.readDuringStream = .reject) :
    verifyMode w s = .error .interface s := by
  have gate : readGate s (writeByte (regAddr s.cfg .csr)) (regWidth .csr) = .raise .aInvalidState := by
    by_cases hm : s.a.mode = .fourBitSerial
    · obtain ⟨hs, hr⟩ := h.resolve_left (not_not_intro hm)
      exact readGate_of_streaming (writeByte_bit7 _) hm hs hr
    · exact readGate_of_not_wide (writeByte_bit7 _) hm
  exact Proc.bind_of_error (Proc.bind_of_error (ctlRead_of_gate_raise gate))

/-! ## An INIT that raises an error (70_reset_and_hazards.md R262, R264, R265) -/

/-- An INIT whose sequence raises an error reports it and ends Failed. -/
theorem exec_init_of_error (ho : hostOwns s.c.phase = true) (h : initSequence m ref mult s = .error e t) :
    exec (.init m ref mult) s = .next ((t.setPhase .failed).report (.err e)) := by
  have failed : orFailed (initSequence m ref mult) s = .error e (t.setPhase .failed) := by
    unfold orFailed
    rw [h]
  calc exec (.init m ref mult) s
    _ = complete (orFailed (initSequence m ref mult)) s := if_pos ho
    _ = .next ((t.setPhase .failed).report (.err e)) := by rw [complete_def, failed, finish_error]

/-- With another mode, or in a stream, the sequence raises an error, whatever the oracle does. -/
theorem initSequence_raises (ref : Rat) (mult : Byte) (h : m ≠ .fourBitSerial ∨ s.a.streaming = true) :
    ∃ e t, initSequence m ref mult s = .error e t := by
  cases hx : initSequence m ref mult s with
  | error e t => exact ⟨e, t, rfl⟩
  | ok v t =>
    obtain ⟨hm, hs, -⟩ := initSequence_eq_ok hx
    simp [hm, hs] at h

/-- With another mode, or in a stream whose reads are rejected, and every event up to the read-back accepted, the sequence
stops at the read-back. -/
theorem initSequence_stopped_at_readBack (hcfg : s.cfg.wf = true)
    (hstop : m ≠ .fourBitSerial ∨ s.a.streaming = true ∧ s.cfg.readDuringStream = .reject)
    (ha : AcceptsAll s 0 s.trace (initHead s.cfg (csrByte s.cfg m allChannels) (pulseOf s.cfg)))
    (h : initSequence m ref mult s = .error e t) :
    e = .interface ∧ t.trace = s.trace ++ initHead s.cfg (csrByte s.cfg m allChannels) (pulseOf s.cfg) ∧ t.a.mode = m := by
  rw [initSequence_head hcfg ha, Proc.bind_of_error (verifyMode_stopped _ hstop)] at h
  cases h
  exact ⟨rfl, rfl, rfl⟩

/-! ## The obligation -/

/-- Settles O44: a successful sequence says the mode is wide and no stream is active, so this one raises an error; where the
adapter stops the read-back, it raises it there. -/
theorem initNeedsWideModeAndNoStream : Obligations.InitNeedsWideModeAndNoStream := by
  intro s m ref mult hcfg ho hbad
  obtain ⟨e, u, hx⟩ := initSequence_raises ref mult hbad
  have kept : BringupOnly m s u := by
    have within := within_initSequence (m := m) ref mult s
    rwa [hx] at within
  refine ⟨_, e, exec_init_of_error ho hx, ?results, rfl, fun hstop ha => ?readBack⟩
  case results => rw [State.report_results, State.setPhase_results, kept.results]
  case readBack =>
    have stopped : m ≠ .fourBitSerial ∨ s.a.streaming = true ∧ s.cfg.readDuringStream = .reject := by tauto
    obtain ⟨he, htrace, hmode⟩ := initSequence_stopped_at_readBack hcfg stopped ha hx
    exact ⟨he, htrace, hmode⟩

end Sys2Proof.Machine
end

section
/-!
PROOFS of the decoder (30_encoding.md sections 2 and 4): the round trip, that a decoded packet is its instruction's encoding,
the reserved opcodes, and a step as the run of what the next packet decodes to. First one lemma that says everything the
decoder of a command answers and one for each frame form, in both directions; then the obligations.
-/

namespace Sys2Proof.Machine

variable {cfg : Config} {mode : Mode} {i : Instr}

/-! ## The operand readers, both ways (30_encoding.md R84) -/

/-- A Mode operand is refused or is the index of the mode read. -/
theorem readMode_cases (n : Nat) : readMode n = .error .illegalOperand ∨ ∃ m, readMode n = .ok m ∧ modeIndex m = n := by
  match n with
  | 0 => exact .inr ⟨.singleBitTwoWire, rfl, rfl⟩
  | 1 => exact .inr ⟨.singleBitThreeWire, rfl, rfl⟩
  | 2 => exact .inr ⟨.twoBitSerial, rfl, rfl⟩
  | 3 => exact .inr ⟨.fourBitSerial, rfl, rfl⟩
  | _ + 4 => exact .inl rfl

theorem chSetOfByte_eq_some {b : Byte} {cs : ChSet} (h : chSetOfByte b = some cs) : chSetByte cs = b := by
  have all : ∀ b, (chSetOfByte b).all (chSetByte · == b) = true := by decide
  simpa [h] using all b

theorem channelOfSet_eq_some {cs : ChSet} {ch : Channel} (h : channelOfSet cs = some ch) : channelFlag ch = cs := by
  revert cs; cases ch <;> decide

/-- A channel set operand is refused or is the byte of the non-empty set read. -/
theorem readChSet_cases (b : Byte) :
    readChSet b = .error .illegalOperand ∨ ∃ cs, readChSet b = .ok cs ∧ chSetByte cs = b ∧ cs ≠ 0 := by
  unfold readChSet
  split
  next cs h =>
    by_cases h0 : cs = 0
    · exact .inl (if_pos h0)
    · exact .inr ⟨cs, if_neg h0, chSetOfByte_eq_some h, h0⟩
  next => exact .inl rfl

/-- A Ch operand is refused or is the byte of the channel read. -/
theorem readCh_cases (b : Byte) :
    readCh b = .error .illegalOperand ∨ ∃ ch, readCh b = .ok ch ∧ chSetByte (channelFlag ch) = b := by
  unfold readCh
  split
  next ch h =>
    obtain ⟨cs, hcs, hch⟩ := Option.bind_eq_some_iff.mp h
    exact .inr ⟨ch, rfl, by rw [channelOfSet_eq_some hch, chSetOfByte_eq_some hcs]⟩
  next => exact .inl rfl

@[simp] theorem readCh_channelFlag (ch : Channel) : readCh (chSetByte (channelFlag ch)) = .ok ch := by
  cases ch <;> rfl

/-! ## Everything the decoder of a command answers (30_encoding.md R83, R84) -/

/-- The operands of a command decode to the legal instruction they are the encoding of, or they are illegal. -/
inductive OperandsDecode (o : Opcode) (operands : List Operand) : Except DecodeError Instr → Prop
  | illegal : OperandsDecode o operands (.error .illegalOperand)
  | legal (i : Instr) (packet : encode i = commandPacket o operands) (wf : ∀ cfg, i.wellFormed cfg = true)
      (wire : ∀ mode, wireModeOk mode i = true) : OperandsDecode o operands (.ok i)

/-- A command decoded from one checked operand: illegal where the check refuses it, else the encoding of what was read. -/
theorem OperandsDecode.checked {α : Type} {o : Opcode} {operands : List Operand} {x : Except DecodeError α}
    {f : α → Instr} {P : α → Prop} (hx : x = .error .illegalOperand ∨ ∃ v, x = .ok v ∧ P v)
    (packet : ∀ v, P v → encode (f v) = commandPacket o operands) (wf : ∀ v, P v → ∀ cfg, (f v).wellFormed cfg = true)
    (wire : ∀ v mode, wireModeOk mode (f v) = true) : OperandsDecode o operands (x.map f) := by
  rcases hx with rfl | ⟨v, rfl, hv⟩
  · exact .illegal
  · exact .legal (f v) (packet v hv) (wf v hv) (wire v)

theorem decodeOperands_legal_or_illegal (o : Opcode) (operands : List Operand) :
    OperandsDecode o operands (decodeOperands o operands) := by
  cases o with
  | configureMode | init | profileNew =>
    unfold decodeOperands
    dsimp only
    split
    · exact .checked (readMode_cases _) (by rintro m rfl; rfl) (fun _ _ _ => rfl) fun _ _ => rfl
    · exact .illegal
  | setFrequency | setPhase | setAmplitude | profileUpdateChannels =>
    unfold decodeOperands
    dsimp only
    split
    · exact .checked (readChSet_cases _) (by rintro cs ⟨rfl, -⟩; rfl) (fun _ h _ => bne_iff_ne.mpr h.2) fun _ _ => rfl
    · exact .illegal
  | getFrequency | getPhase | getAmplitude =>
    unfold decodeOperands
    dsimp only
    split
    · exact .checked (readCh_cases _) (by rintro ch rfl; rfl) (fun _ _ _ => rfl) fun _ _ => rfl
    · exact .illegal
  | _ =>
    unfold decodeOperands
    dsimp only
    split
    · exact .legal _ rfl (fun _ => rfl) fun _ => rfl
    · exact .illegal

theorem opcodeByte_of_opcodeOfByte {b : Byte} {o : Opcode} (h : opcodeOfByte b = some o) : opcodeByte o = b := by
  simpa using List.find?_some h

/-- The bytes outside the table of R83 name no opcode. -/
theorem opcodeOfByte_eq_none_iff (b : Byte) : opcodeOfByte b = none ↔
    b.toNat ∉ [0x01, 0x02, 0x03, 0x04, 0x05, 0x06, 0x07, 0x10, 0x11, 0x12, 0x13, 0x14, 0x20, 0x23, 0x24, 0x25, 0x26,
      0x27, 0x28, 0x29, 0x2A, 0x2B, 0x30, 0x31, 0x32, 0x33] := by
  have table : [0x01, 0x02, 0x03, 0x04, 0x05, 0x06, 0x07, 0x10, 0x11, 0x12, 0x13, 0x14, 0x20, 0x23, 0x24, 0x25, 0x26,
      0x27, 0x28, 0x29, 0x2A, 0x2B, 0x30, 0x31, 0x32, 0x33] = allOpcodes.map fun o => (opcodeByte o).toNat := rfl
  rw [table, opcodeOfByte, List.find?_eq_none]
  simp only [List.mem_map, not_exists, not_and, beq_iff_eq, BitVec.toNat_inj]

/-! ## The frames through the decoder (30_encoding.md R72, R73, R75, R77) -/

theorem exists_reg_of_wellFormedTxn {a : RegAddr} {n : Nat} (h : wellFormedTxn cfg (writeByte a) n = true) :
    ∃ r, regAddr cfg r = a ∧ n = regWidth r := by
  obtain ⟨r, ha, hn⟩ := wellFormedTxn_iff.mp h
  exact ⟨r, (writeByte_inj _ _).mp ha, hn.symm⟩

/-- A transaction of the register at an address, at its width, moves a whole register. -/
theorem wellFormedTxn_of_regOfAddr {a : RegAddr} {r : Reg} {n : Nat} (h : regOfAddr cfg a = some r)
    (hn : n = regWidth r) : wellFormedTxn cfg (writeByte a) n = true :=
  wellFormedTxn_iff.mpr ⟨r, by rw [regAddr_of_regOfAddr h], hn.symm⟩

theorem decodeWide_read {a : RegAddr} (h : (regOfAddr cfg a).isSome = true) :
    decodeWide cfg [readByte a] = .ok (.frameWideRead a) := by
  obtain ⟨r, hr⟩ := Option.isSome_iff_exists.mp h
  simp [decodeWide, hr]

theorem decodeRecord_write (h : cfg.wf = true) {r : Reg} {v : List Byte} (hv : v.length = regWidth r) :
    decodeRecord cfg (wideFrame (writeByte (regAddr cfg r)) v) = .ok (.profileRecord (regAddr cfg r) v) := by
  simp [decodeRecord, wideFrame, regOfAddr_regAddr h, hv]

/-- A wide frame that decodes is a whole register's write, or the header of a register's read. -/
theorem decodeWide_eq_ok {bytes : List Byte} (h : decodeWide cfg bytes = .ok i) :
    encode i = .frame bytes ∧ i.wellFormed cfg = true ∧ wireModeOk .fourBitSerial i = true := by
  unfold decodeWide at h
  split at h
  next => cases h
  next b rest =>
    split at h
    next => cases h
    next r hr =>
      split_ifs at h with h7 hrest hlen
      · cases h
        subst hrest
        exact ⟨by rw [encode, readByte_addrOfByte b h7], Option.isSome_iff_exists.mpr ⟨r, hr⟩, rfl⟩
      · cases h
        rw [Bool.not_eq_true] at h7
        exact ⟨by rw [encode, wideFrame, writeByte_addrOfByte b h7], wellFormedTxn_of_regOfAddr hr hlen, rfl⟩

/-- A narrow frame that decodes is the expansion of the write of a whole register of at most two bytes. -/
theorem decodeNarrow_eq_ok {bytes : List Byte} (h : decodeNarrow cfg bytes = .ok i) :
    encode i = .frame bytes ∧ i.wellFormed cfg = true ∧ wireModeOk .singleBitTwoWire i = true := by
  unfold decodeNarrow at h
  split at h
  next => cases h
  next => cases h
  next b rest hbytes =>
    split_ifs at h with h7
    rw [Bool.not_eq_true] at h7
    split at h
    next => cases h
    next r hr =>
      split_ifs at h with hlen
      cases h
      obtain ⟨hwidth, hmax⟩ := hlen
      refine ⟨?_, ?_, rfl⟩
      · rw [encode, writeByte_addrOfByte b h7, narrowFrame, expand_unexpandAll hbytes]
      · rw [Instr.wellFormed, decide_eq_true hmax, wellFormedTxn_of_regOfAddr hr hwidth]
        rfl

/-- A record that decodes is a whole register's write. -/
theorem decodeRecord_eq_ok {bytes : List Byte} (h : decodeRecord cfg bytes = .ok i) :
    encode i = .record bytes ∧ i.wellFormed cfg = true ∧ wireModeOk mode i = true := by
  unfold decodeRecord at h
  split at h
  next => cases h
  next b rest =>
    split_ifs at h with h7
    rw [Bool.not_eq_true] at h7
    split at h
    next => cases h
    next r hr =>
      split_ifs at h with hlen
      cases h
      exact ⟨by rw [encode, wideFrame, writeByte_addrOfByte b h7], wellFormedTxn_of_regOfAddr hr hlen, rfl⟩

/-! ## A step on a command packet -/

theorem step_of_decode_ok {s : State} {p : Packet} (h : decode s.cfg s.a.mode p = .ok i) (ps : List Packet) :
    step (s.setInbox (p :: ps)) = exec i (s.setInbox ps) := by
  simp [step, h]

/-- No meaning answers `reservedOpcode`: it is the decoder's refusal alone. -/
theorem exec_ne_reservedOpcode (i : Instr) (s : State) : exec i s ≠ .refused .reservedOpcode := by
  intro h
  simpa using exec_refused_cases h

/-- A command whose opcode is in the table is not refused as reserved, whatever its operands. -/
theorem step_command_ne_reservedOpcode {b : Byte} {o : Opcode} (h : opcodeOfByte b = some o) (s : State)
    (operands : List Operand) (ps : List Packet) :
    step (s.setInbox (.command b operands :: ps)) ≠ .refused .reservedOpcode := by
  have decoded : decode s.cfg s.a.mode (.command b operands) = decodeOperands o operands := by
    simp [decode, decodeCommand, h]
  generalize hx : decodeOperands o operands = x at decoded
  cases hx ▸ decodeOperands_legal_or_illegal o operands with
  | illegal =>
    rw [step_of_decode_error decoded]
    intro h
    cases h
  | legal i =>
    rw [step_of_decode_ok decoded]
    exact exec_ne_reservedOpcode i _

/-! ## The obligations -/

/-- Settles O1: the operand readers invert the operand encodings, and each frame decoder reads the frame of a whole
register. -/
theorem decodeEncodeRoundTrip : Obligations.DecodeEncodeRoundTrip := by
  intro cfg mode i hcfg hw hm
  have modeRead {f : Mode → Instr} (m : Mode) : (readMode (modeIndex m)).map f = .ok (f m) := by
    rw [readMode_modeIndex]; rfl
  have setRead {f : ChSet → Instr} {cs : ChSet} (h : (cs != 0) = true) :
      (readChSet (chSetByte cs)).map f = .ok (f cs) := by
    rw [readChSet_chSetByte (bne_iff_ne.mp h)]; rfl
  have chRead {f : Channel → Instr} (ch : Channel) : (readCh (chSetByte (channelFlag ch))).map f = .ok (f ch) := by
    rw [readCh_channelFlag]; rfl
  cases i with
  | configureMode m | init m _ _ | profileNew m => exact (decode_commandPacket _ _ _ _).trans (modeRead m)
  | setFrequency | setPhase | setAmplitude | profileUpdateChannels =>
    exact (decode_commandPacket _ _ _ _).trans (setRead hw)
  | getFrequency ch | getPhase ch | getAmplitude ch => exact (decode_commandPacket _ _ _ _).trans (chRead ch)
  | frameWideWrite a p =>
    obtain rfl : mode = .fourBitSerial := by simpa [wireModeOk] using hm
    obtain ⟨r, rfl, hlen⟩ := exists_reg_of_wellFormedTxn hw
    exact decodeWide_write hcfg hlen
  | frameWideRead a =>
    obtain rfl : mode = .fourBitSerial := by simpa [wireModeOk] using hm
    exact decodeWide_read hw
  | frameNarrowWrite a p =>
    obtain rfl : mode = .singleBitTwoWire := by simpa [wireModeOk] using hm
    obtain ⟨hmax, htxn⟩ : p.length ≤ narrowMaxPayload ∧ wellFormedTxn cfg (writeByte a) p.length = true := by
      simpa [Instr.wellFormed] using hw
    obtain ⟨r, rfl, hlen⟩ := exists_reg_of_wellFormedTxn htxn
    exact decodeNarrow_write hcfg hlen hmax
  | profileRecord a p =>
    obtain ⟨r, rfl, hlen⟩ := exists_reg_of_wellFormedTxn hw
    exact decodeRecord_write hcfg hlen
  | _ => exact decode_commandPacket _ _ _ _

/-- Settles O2: a packet is a command, whose operands decode to the instruction they encode, or a frame or a record, which
decodes to the whole register's transfer it is. -/
theorem decodedPacketIsItsEncoding : Obligations.DecodedPacketIsItsEncoding := by
  intro cfg mode p i h
  cases p with
  | command b operands =>
    have h : decodeCommand b operands = .ok i := h
    unfold decodeCommand at h
    split at h
    next o ho =>
      cases h ▸ decodeOperands_legal_or_illegal o operands with
      | legal _ packet wf wire => exact ⟨by rw [packet, commandPacket, opcodeByte_of_opcodeOfByte ho], wf cfg, wire mode⟩
    next => cases h
  | frame bytes =>
    cases mode with
    | fourBitSerial => exact decodeWide_eq_ok h
    | singleBitTwoWire => exact decodeNarrow_eq_ok h
    | singleBitThreeWire | twoBitSerial => cases h
  | record bytes => exact decodeRecord_eq_ok h

/-- Settles O4: a byte outside the table names no opcode, which the decoder refuses as reserved; for one in the table
neither the operand decoder nor a meaning answers that refusal. -/
theorem reservedOpcodesRefused : Obligations.ReservedOpcodesRefused := by
  intro s b operands ps
  rw [← opcodeOfByte_eq_none_iff]
  cases ho : opcodeOfByte b with
  | none =>
    have decoded : decode s.cfg s.a.mode (.command b operands) = .error .reservedOpcode := by
      simp [decode, decodeCommand, ho]
    exact iff_of_true (step_of_decode_error decoded ps) rfl
  | some o => exact iff_of_false (step_command_ne_reservedOpcode ho s operands ps) (Option.some_ne_none o)

/-- Settles O3: each packet is written out, and the decoder evaluates it. -/
theorem writtenOutWordsDecode : Obligations.WrittenOutWordsDecode :=
  ⟨rfl, rfl, rfl, rfl, rfl, rfl, rfl⟩

/-- Settles O6: the two answers of the decoder, and the empty inbox. -/
theorem stepRunsDecoded : Obligations.StepRunsDecoded :=
  fun _ _ ps => ⟨fun _ h => step_of_decode_ok h ps, fun _ h => step_of_decode_error h ps, rfl⟩

end Sys2Proof.Machine
end

section
/-!
PROOFS about the whole machine: the block's invariant (10_state.md section 1), which command writes which field (R20), what
every command appends to the observation, and that only INIT pulses and waits. Each is a short use of the inversion of `exec`
(Laws/Exec.lean): what an effect keeps, and then the one result reported.
-/

namespace Sys2Proof.Machine

variable {s t u : State} {i : Instr}

/-! ## The invariant under the effects (10_state.md R23, R24, R26, R27, R34) -/

/-- The invariant reads the parameters, the adapter, the controller, the pins and the profile. -/
theorem State.Inv.of_eq (h : s.Inv) (hcfg : u.cfg = s.cfg) (ha : u.a = s.a) (hc : u.c = s.c) (hp : u.p = s.p)
    (hq : u.q = s.q) : u.Inv := by
  refine ⟨by rw [hc]; exact h.between, fun hr => ?_, by rw [hq]; exact h.profile⟩
  obtain ⟨adapter, controller, streaming, clock, pins⟩ := h.ready (by rwa [hc] at hr)
  exact ⟨by rwa [ha], by rwa [ha, hc], by rwa [ha], by rwa [hcfg, hc], by rwa [hp]⟩

theorem BusOnly.inv (h : BusOnly s u) (hs : s.Inv) : u.Inv := hs.of_eq h.cfg h.a h.c h.p h.q

/-- While the host owns the transport no controller is Ready. -/
theorem ne_ready_of_hostOwns {ph : Phase} (h : hostOwns ph = true) : ph ≠ .ready := by
  rintro rfl
  cases h

/-- Outside Ready the invariant asks nothing of the adapter, the clock and the pins. -/
theorem State.Inv.of_not_ready (hb : betweenCommands u.c.phase = true) (hr : u.c.phase ≠ .ready) (hq : u.q.WF) : u.Inv :=
  ⟨hb, fun h => absurd h hr, hq⟩

theorem State.Inv.report (h : s.Inv) (r : CmdResult) : (s.report r).Inv := h.of_eq rfl rfl rfl rfl rfl

theorem State.Inv.setInbox (h : s.Inv) (ps : List Packet) : (s.setInbox ps).Inv := h.of_eq rfl rfl rfl rfl rfl

/-- Every effect keeps the invariant: the host's commands run outside Ready, CONFIGURE_SYSTEM_CLOCK stores a validated clock,
and an INIT that succeeds ends with what Ready asks. -/
theorem Effect.inv (h : Effect s i u) (hs : s.Inv) : u.Inv := by
  cases h with
  | bus _ _ h => exact h.inv hs
  | mode _ _ ho h | stream _ ho h =>
    subst h
    exact .of_not_ready hs.between (ne_ready_of_hostOwns ho) hs.profile
  | clock ref eff mult v _ hr hb hv h =>
    subst h
    have hvInv := hb.inv hs
    have ok := hvInv.ready (by rw [hb.c]; exact hr)
    have clock : validateClocking v.cfg ref mult = .ok eff := by rw [hb.cfg]; exact hv
    exact ⟨hvInv.between, fun _ => ⟨ok.adapter, ok.controller, ok.streaming, ⟨eff, clock⟩, ok.pins⟩, hvInv.profile⟩
  | freeze _ _ h =>
    subst h
    exact .of_not_ready rfl (by decide : Phase.frozen ≠ .ready) hs.profile
  | profile q _ h wf _ _ =>
    subst h
    exact ⟨hs.between, fun hr => ⟨(hs.ready hr).adapter, (hs.ready hr).controller, (hs.ready hr).streaming,
      (hs.ready hr).clock, (hs.ready hr).pins⟩, wf hs.profile⟩
  | failed _ _ _ _ _ h hc =>
    exact .of_not_ready (by rw [hc]; rfl) (by rw [hc]; decide) (by rw [h.q]; exact hs.profile)
  | up ref eff mult _ _ h _ ha hc hp hv =>
    exact ⟨by rw [hc]; rfl, fun _ => ⟨by rw [ha], by rw [ha, hc], by rw [ha], ⟨eff, by rw [h.cfg, hc]; exact hv⟩, hp⟩,
      by rw [h.q]; exact hs.profile⟩

theorem exec_keeps_inv (hs : s.Inv) (h : exec i s = .next t) : t.Inv := by
  obtain ⟨u, r, hu, rfl⟩ := exec_next_cases h
  exact (hu.inv hs).report r

/-- The profile of the state at reset: nothing is written below a cursor of 0. -/
theorem Profile.wf_reset : State.reset.q.WF :=
  ⟨Nat.zero_le _, rfl, fun _ => by simp [State.reset, Memory.read?], fun h => by cases h⟩

/-! ## Which fields an effect writes (10_state.md R20) -/

/-- Each field that differs after an effect of the instruction is one its rule lets the instruction write. -/
structure WritesOnlyOwn (i : Instr) (s u : State) : Prop where
  cfg       : u.cfg = s.cfg
  inbox     : u.inbox = s.inbox
  mode      : u.a.mode ≠ s.a.mode → (∃ m, i = .configureMode m) ∨ i.isInit = true
  streaming : u.a.streaming ≠ s.a.streaming → i = .startStream
  phase     : u.c.phase ≠ s.c.phase → i = .freeze ∨ i.isInit = true
  clock     : u.c.refHz ≠ s.c.refHz ∨ u.c.mult ≠ s.c.mult →
    (∃ ref mult, i = .configureSystemClock ref mult) ∨ i.isInit = true
  ctlMode   : u.c.mode ≠ s.c.mode → i.isInit = true
  pins      : u.p ≠ s.p → i.isInit = true
  profile   : u.q ≠ s.q → i.isProfile = true
  qMode     : u.q.mode ≠ s.q.mode → ∃ m, i = .profileNew m
  qStatus   : u.q.status ≠ s.q.status → (∃ m, i = .profileNew m) ∨ i = .profileFinalize

/-- INIT may write what is not the streaming bit, the profile, the parameters or the inbox. -/
theorem BringupOnly.writesOnlyOwn {m : Mode} (h : BringupOnly m s u) (hi : i.isInit = true) : WritesOnlyOwn i s u where
  cfg := h.cfg
  inbox := h.inbox
  mode _ := .inr hi
  streaming := absurd h.streaming
  phase _ := .inr hi
  clock _ := .inr hi
  ctlMode _ := hi
  pins _ := hi
  profile := absurd h.q
  qMode := absurd (congrArg Profile.mode h.q)
  qStatus := absurd (congrArg Profile.status h.q)

theorem Effect.writesOnlyOwn (h : Effect s i u) : WritesOnlyOwn i s u := by
  cases h with
  | bus _ _ h => constructor <;> simp [h.cfg, h.inbox, h.a, h.c, h.p, h.q]
  | mode m hi _ h => constructor <;> simp [h, hi]
  | stream hi _ h => constructor <;> simp [h, hi]
  | clock ref _ mult v hi _ hb _ h => constructor <;> simp [h, hi, hb.cfg, hb.inbox, hb.a, hb.c, hb.p, hb.q]
  | freeze hi _ h => constructor <;> simp [h, hi]
  | profile q hi h _ hm hst =>
    subst h
    exact { cfg := rfl, inbox := rfl, mode := absurd rfl, streaming := absurd rfl, phase := absurd rfl
            clock := by simp
            ctlMode := absurd rfl, pins := absurd rfl
            profile := fun _ => hi
            qMode := hm.resolve_right
            qStatus := fun hne => hst.imp_right (·.resolve_right hne) }
  | failed _ _ _ hi _ h _ => exact h.writesOnlyOwn (by rw [hi]; rfl)
  | up _ _ _ hi _ h _ _ _ _ _ => exact h.writesOnlyOwn (by rw [hi]; rfl)

/-! ## Only INIT touches the pins and waits (20_memory.md R61; 60_exceptions.md R239, R240) -/

/-- Bus events alone are appended, and the pins and (but for the channel enables) the contents in active use are kept. -/
def OnlyBusEvents (s u : State) : Prop :=
  (∃ es, u.trace = s.trace ++ es ∧ es.all Event.isBus = true) ∧ u.p = s.p ∧
    SameActive s.env.chip.active u.env.chip.active

/-- What keeps the trace, the pins and the chip appends no event. -/
theorem onlyBusEvents_of_quiet (htrace : u.trace = s.trace) (hp : u.p = s.p) (hchip : u.env.chip = s.env.chip) :
    OnlyBusEvents s u :=
  ⟨⟨[], by rw [htrace, List.append_nil], rfl⟩, hp, by rw [hchip]; exact SameActive.refl _⟩

theorem Effect.onlyBusEvents (h : Effect s i u) (hi : i.isInit = false) : OnlyBusEvents s u := by
  cases h with
  | bus _ _ h => exact ⟨h.trace, h.p, h.active⟩
  | clock _ _ _ v _ _ hb _ h =>
    subst h
    exact ⟨hb.trace, hb.p, hb.active⟩
  | mode _ _ _ h | stream _ _ h | freeze _ _ h | profile _ _ h _ _ _ =>
    subst h
    exact onlyBusEvents_of_quiet rfl rfl rfl
  | failed _ _ _ hi' _ _ _ | up _ _ _ hi' _ _ _ _ _ _ _ =>
    subst hi'
    cases hi

/-! ## The obligations -/

/-- Settles O54: a step is the run of a decoded instruction, whose effect keeps the invariant. -/
theorem stepKeepsTheInvariant : Obligations.StepKeepsTheInvariant := by
  intro s t hs h
  unfold step at h
  split at h
  next =>
    cases h
    exact hs
  next p ps _ =>
    split at h
    next i _ => exact exec_keeps_inv (hs.setInbox ps) h
    next => cases h

/-- Settles O53: the phase at reset is Absent, and the empty profile has its shape. -/
theorem invariantHoldsAtReset : Obligations.InvariantHoldsAtReset :=
  .of_not_ready rfl (by decide) Profile.wf_reset

/-- Settles O52: the fields of the reset state. -/
theorem resetState : Obligations.ResetState := ⟨rfl, rfl, rfl, rfl, rfl, rfl⟩

/-- Settles O55: reporting a result writes none of these fields, so they differ only where the effect wrote them. -/
theorem fieldsWrittenOnlyByTheirCommands : Obligations.FieldsWrittenOnlyByTheirCommands := by
  intro i s t h
  obtain ⟨u, r, hu, rfl⟩ := exec_next_cases h
  obtain ⟨cfg, inbox, mode, streaming, phase, clock, ctlMode, pins, profile, qMode, qStatus⟩ := hu.writesOnlyOwn
  exact ⟨cfg, inbox, mode, streaming, phase, clock, ctlMode, pins, profile, qMode, qStatus⟩

/-- Settles O56: every instruction is precise (Laws/Trace.lean). -/
theorem commandsOnlyExtendTheObservation : Obligations.CommandsOnlyExtendTheObservation :=
  fun _ _ _ h => exec_precise h

/-- Settles O57: outside INIT an effect is a run of bus transactions or a change of one field. -/
theorem onlyInitPulsesAndWaits : Obligations.OnlyInitPulsesAndWaits := by
  intro i s t hi h
  obtain ⟨u, r, hu, rfl⟩ := exec_next_cases h
  exact hu.onlyBusEvents hi

end Sys2Proof.Machine
end

section
/-!
PROOFS about FR1 (30_encoding.md section 3) and the VCO bit (40_codec.md R108): the layout of the FR1 field byte, and the band
of an accepted clock; then the obligations.
-/

namespace Sys2Proof.Machine

variable {cfg : Config}

/-! ## The FR1 field byte (30_encoding.md R80) -/

/-- The byte with the VCO bit in bit 7, the multiplier in bits 6:2 and two kept bits. -/
def fr1Layout (vco : Bool) (mult : BitVec 5) (kept : BitVec 2) : Byte := (BitVec.ofBool vco ++ mult) ++ kept

theorem fr1Layout_bit7 (vco : Bool) (mult : BitVec 5) (kept : BitVec 2) :
    (fr1Layout vco mult kept).getLsbD 7 = vco := by
  revert vco mult kept; decide

theorem fr1Layout_mult (vco : Bool) (mult : BitVec 5) (kept : BitVec 2) :
    (fr1Layout vco mult kept).extractLsb' 2 5 = mult := by
  revert vco mult kept; decide

theorem fr1Layout_kept (vco : Bool) (mult : BitVec 5) (kept : BitVec 2) :
    (fr1Layout vco mult kept).extractLsb' 0 2 = kept :=
  BitVec.extractLsb'_append_eq_right

theorem fr1Layout_and (vco : Bool) (mult : BitVec 5) (kept : BitVec 2) :
    fr1Layout vco mult kept &&& 0xFC#8 = fr1Layout vco mult 0#2 := by
  revert vco mult kept; decide

theorem fr1Field_eq_layout (cfg : Config) (mult : Byte) (eff : Rat) :
    fr1Field cfg mult eff = fr1Layout (vcoBit cfg eff) (mult.extractLsb' 0 5) 0#2 := by
  have layout : ∀ (vco : Bool) (mult : Byte),
      ((if vco then 1#8 else 0#8) <<< 7) ||| ((mult &&& 0x1F#8) <<< 2) = fr1Layout vco (mult.extractLsb' 0 5) 0#2 := by
    decide
  exact layout (vcoBit cfg eff) mult

/-- The bits that fr1_merge keeps fill the layout's last place. -/
theorem fr1Layout_or_kept (vco : Bool) (mult : BitVec 5) (old : Byte) :
    fr1Layout vco mult 0#2 ||| (old &&& 0x03#8) = fr1Layout vco mult (old.extractLsb' 0 2) := by
  have low : ∀ old : Byte, old &&& 0x03#8 = 0#6 ++ old.extractLsb' 0 2 := by decide
  have fill : ∀ (vco : Bool) (mult : BitVec 5) (kept : BitVec 2),
      fr1Layout vco mult 0#2 ||| (0#6 ++ kept) = fr1Layout vco mult kept := by decide
  rw [low old]
  exact fill vco mult _

theorem fr1Merge_byte0 (h : cfg.fr1Byte = 0) (f0 f1 f2 mult : Byte) (eff : Rat) :
    fr1Merge cfg [f0, f1, f2] mult eff =
      [fr1Layout (vcoBit cfg eff) (mult.extractLsb' 0 5) (f0.extractLsb' 0 2), f1, f2] := by
  rw [← fr1Layout_or_kept, ← fr1Field_eq_layout, fr1Merge, h]
  rfl

theorem fr1Fresh_byte0 (h : cfg.fr1Byte = 0) (mult : Byte) (eff : Rat) :
    fr1Fresh cfg mult eff = [fr1Layout (vcoBit cfg eff) (mult.extractLsb' 0 5) 0#2, 0x00#8, 0x00#8] := by
  rw [← fr1Field_eq_layout, fr1Fresh, h]
  rfl

/-! ## The band of an accepted clock (40_codec.md R101, R108) -/

/-- VALIDATE_CLOCKING accepts no clock outside the supported bands. -/
theorem clockBand_of_accepted {ref eff : Rat} {mult : Byte} (h : validateClocking cfg ref mult = .ok eff) :
    ClockBand mult eff := by
  by_cases hr : ClockRanges ref mult
  · rw [validateClocking_of_ranges hr] at h
    split at h
    next hband =>
      cases h
      exact inBand_iff.mp hband
    next => cases h
  · rw [validateClocking_of_not_ranges hr] at h
    cases h

theorem vcoBit_iff (eff : Rat) : vcoBit cfg eff = true ↔ cfg.vcoThresholdHz < eff := decide_eq_true_iff

/-- A threshold between the two upper bands tells them apart. -/
theorem upper_band_iff {mult : Byte} {eff threshold : Rat} (h : ClockBand mult eff) (hlow : 160000000 ≤ threshold)
    (hhigh : threshold < 255000000) : threshold < eff ↔ 255000000 ≤ eff ∧ eff ≤ 500000000 := by
  rcases h with ⟨h1, h2⟩ | ⟨-, h2⟩ | ⟨-, -, h2⟩
  · exact iff_of_true (hhigh.trans_le h1) ⟨h1, h2⟩
  · exact iff_of_false (h2.trans hlow).not_gt fun ⟨h, _⟩ => by linarith
  · exact iff_of_false (by linarith) fun ⟨h, _⟩ => by linarith

/-! ## The obligations -/

/-- Settles O10: both payloads are read off the layout of the field byte. -/
theorem fr1Payloads : Obligations.Fr1Payloads := by
  intro cfg f0 f1 f2 mult eff h
  have mod32 : (mult.extractLsb' 0 5).toNat = mult.toNat % 32 := by simp [BitVec.extractLsb'_toNat]
  exact ⟨_, fr1Merge_byte0 h f0 f1 f2 mult eff, fr1Layout_bit7 _ _ _, by rw [fr1Layout_mult, mod32],
    fr1Layout_kept _ _ _, by rw [fr1Layout_and, fr1Fresh_byte0 h]⟩

/-- Settles O19: an accepted clock lies in a band, and the threshold lies between the upper two. -/
theorem vcoBitOfAcceptedClock : Obligations.VcoBitOfAcceptedClock :=
  fun _ _ eff _ => ⟨rfl, vcoBit_iff eff, fun hlow hhigh hv =>
    (vcoBit_iff eff).trans (upper_band_iff (clockBand_of_accepted hv) hlow hhigh)⟩

end Sys2Proof.Machine
end

section
/-!
PROOFS of the transport: who owns it (60_exceptions.md R237; 70_reset_and_hazards.md R261), the transactions of XPORT_WRITE,
XPORT_READ and STREAM_WRITE (41_transport.md), and the wire forms (30_encoding.md). First the ownership gate, then one lemma
for every command that is one write and one for every command that is one read; then the obligations.
-/

namespace Sys2Proof.Machine

variable {s : State} {i : Instr}

/-! ## Who owns the transport (60_exceptions.md R237; 10_state.md R34) -/

theorem ifHostOwns_of_not_owned (h : hostOwns s.c.phase = false) (k : StepOutcome) :
    ifHostOwns s k = .refused .transportOwned :=
  if_neg (Bool.eq_false_iff.mp h)

/-- The transport commands and the wire forms meet the ownership gate first. -/
theorem exec_of_not_owned (hi : i.isTransport = true ∨ i.isWire = true) (h : hostOwns s.c.phase = false) :
    exec i s = .refused .transportOwned := by
  cases i with
  | configureMode | startStream | xportWrite | xportRead | streamWrite
  | frameWideWrite | frameWideRead | frameNarrowWrite | profileRecord => exact ifHostOwns_of_not_owned h _
  | _ => rcases hi with hi | hi <;> cases hi

theorem exec_init_of_not_owned (hi : i.isInit = true) (h : hostOwns s.c.phase = false) :
    exec i s = .refused .controllerExists := by
  cases i with
  | init => exact if_neg (Bool.eq_false_iff.mp h)
  | _ => cases hi

/-- Only INIT answers `controllerExists`, and only while a controller exists. -/
theorem hostOwns_of_refused_controllerExists (h : exec i s = .refused .controllerExists) : hostOwns s.c.phase = false := by
  have families : i.isInit = true ∧ hostOwns s.c.phase = false := by simpa using exec_refused_cases h
  exact families.2

/-- A codec or profile command belongs to no other family. -/
theorem family_of_codec_or_profile (hi : i.isCodec = true ∨ i.isProfile = true) :
    i.isTransport = false ∧ i.isSteady = false ∧ i.isInit = false ∧ i.isWire = false := by
  cases i with
  | validateClocking | freqToFtw | ftwToFreq | phaseToPow | powToPhase | ampToAcr | acrToAmp
  | profileNew | profileUpdateChannels | profileSetSystemClock | profileFinalize => exact ⟨rfl, rfl, rfl, rfl⟩
  | _ => rcases hi with hi | hi <;> cases hi

/-- A codec or profile command is refused for its operands or its profile alone. -/
theorem refusal_of_codec_or_profile {r : Refusal} (hi : i.isCodec = true ∨ i.isProfile = true)
    (h : exec i s = .refused r) : r = .nonPositiveSystemClock ∨ r = .illegalOperand ∨ r = .noOpenProfile := by
  obtain ⟨transport, steady, init, wire⟩ := family_of_codec_or_profile hi
  have cases := exec_refused_cases h
  simp only [transport, steady, init, wire, Bool.false_eq_true, false_and, false_or, or_false] at cases
  rcases cases with ⟨-, h⟩ | ⟨-, h | ⟨-, h⟩⟩ <;> simp [h]

/-! ## A command that is one write transaction -/

/-- The chip takes a transaction that is one register's write as that write. -/
theorem receive_of_wireWrites {cfg : Config} {form : WireForm} {bytes : List Byte} {r : Reg} {v : List Byte}
    (h : wireWrites cfg form bytes = some [(r, v)]) (trace : List Event) (chip : Chip) :
    chip.receive cfg trace form bytes = chip.write r v := by
  unfold Chip.receive
  rw [h]
  rfl

/-- One write transaction of a whole register, accepted or failed. -/
theorem write_transaction {form : WireForm} {frame : List Byte} {r : Reg} {v : List Byte}
    (hx : exec i s = gated (.pass (form, frame)) sendWrite s) (hw : wireWrites s.cfg form frame = some [(r, v)])
    (hv : v.length = regWidth r) :
    (s.drawAt 0 s.trace ≠ .fail →
      exec i s = .next ((s.after 1 (s.env.chip.write r v) [.write frame true]).report (.ok .none))) ∧
    WriteFails i s .aBus 0 s.env.chip [] frame r v := by
  have run : exec i s = complete (sendWrite (form, frame)) s := hx
  constructor
  · intro hd
    rw [run, sendWrite_ok hd, receive_of_wireWrites hw]
  · intro hd
    rw [List.append_nil] at hd
    exact ⟨_, leftBy_receivePart hw hv s.trace s.env.chip, by rw [run, sendWrite_fail hd]; rfl⟩

/-! ## A command that is one read transaction -/

/-- One read transaction of a whole register, answered or failed. -/
theorem read_transaction {r : Reg}
    (hx : exec i s = gated (.pass (readByte (regAddr s.cfg r))) (sendRead (regWidth r)) s) :
    (∀ d, Answers s 0 s.trace s.env.chip r d →
      exec i s = .next ((s.after 1 s.env.chip [readR s.cfg r d]).report (.ok (.bytes d)))) ∧
    ReadFails i s .aBus 0 s.env.chip [] r := by
  have run : exec i s = complete (sendRead (regWidth r) (readByte (regAddr s.cfg r))) s := hx
  constructor
  · intro d hd
    rw [run, sendRead_ok hd]
    rfl
  · intro hd
    rw [List.append_nil] at hd
    rw [run, sendRead_fail (answerOf_eq_none.mpr hd)]
    rfl

/-! ## The checks, passed and refused (41_transport.md R134 to R137, R140; 20_memory.md R52) -/

/-- Outside a stream, or under READ_DURING_STREAM = pass, the streaming test lets a read through. -/
theorem read_not_rejected {cfg : Config} {streaming : Bool} (h : streaming = false ∨ cfg.readDuringStream = .pass) :
    (streaming && cfg.readDuringStream == .reject) = false := by
  rcases h with h | h <;> simp [h]

/-- The wide read of a whole register passes, in a stream too under READ_DURING_STREAM = pass. -/
theorem wideReadGate_reg {cfg : Config} {streaming : Bool} (h : streaming = false ∨ cfg.readDuringStream = .pass)
    (r : Reg) : wideReadGate cfg streaming (writeByte (regAddr cfg r)) (regWidth r) = .pass (readByte (regAddr cfg r)) := by
  simp [wideReadGate, read_not_rejected h]

theorem wellFormedTxn_eq_false {cfg : Config} {addr : Byte} {n : Nat}
    (h : ∀ r, writeByte (regAddr cfg r) ≠ addr ∨ regWidth r ≠ n) : wellFormedTxn cfg addr n = false := by
  refine Bool.eq_false_iff.mpr fun hw => ?_
  obtain ⟨r, ha, hn⟩ := wellFormedTxn_iff.mp hw
  exact (h r).elim (· ha) (· hn)

/-- A write that passes the adapter's own checks and moves no whole register. -/
theorem writeGate_ill_formed {addr : Byte} {data : List Byte} (h7 : addr.getLsbD 7 = false)
    (hw : wellFormedTxn s.cfg addr data.length = false)
    (hm : (s.a.mode = .singleBitTwoWire ∧ data.length ≤ narrowMaxPayload) ∨
      (s.a.mode = .fourBitSerial ∧ s.a.streaming = false)) :
    writeGate s addr data = .refuse .illFormedTransaction := by
  rcases hm with ⟨hm, hl⟩ | ⟨hm, hs⟩
  · simp only [writeGate, h7, hm, narrowGate, hw, hl.not_gt, Bool.false_eq_true, if_false]
  · simp only [writeGate, h7, hm, wideGate, hs, hw, Bool.false_eq_true, if_false]

/-- A wide read that passes the adapter's own checks and moves no whole register. -/
theorem readGate_ill_formed {addr : Byte} {n : Nat} (h7 : addr.getLsbD 7 = false)
    (hw : wellFormedTxn s.cfg addr n = false) (hm : s.a.mode = .fourBitSerial)
    (hs : s.a.streaming = false ∨ s.cfg.readDuringStream = .pass) :
    readGate s addr n = .refuse .illFormedTransaction := by
  simp only [readGate, h7, hm, wideReadGate, read_not_rejected hs, hw, Bool.false_eq_true, if_false]

theorem exec_streamWrite (h : hostOwns s.c.phase = true) (bytes : List Byte) :
    exec (.streamWrite bytes) s = gated (streamGate s bytes) sendWrite s :=
  ifHostOwns_of_owned h _

theorem streamGate_of_no_stream {bytes : List Byte} (h : s.a.mode ≠ .fourBitSerial ∨ s.a.streaming = false) :
    streamGate s bytes = .raise .aInvalidState := if_pos h

/-- In a stream the one check is the length. -/
theorem streamGate_of_stream (hm : s.a.mode = .fourBitSerial) (hs : s.a.streaming = true) (bytes : List Byte) :
    streamGate s bytes = if bytes.length % 4 ≠ 0 then .refuse .unalignedStream else .pass (.stream, bytes) :=
  if_neg (by simp [hm, hs])

/-! ## The obligations -/

/-- Settles O23: the ownership gate and INIT's, met in Ready; and which families answer those refusals at all. -/
theorem transportOwnership : Obligations.TransportOwnership := by
  intro i s
  refine ⟨fun hr hi => ?owned, fun hr hi => ?existing, fun hp => ?free, fun hi => ?stateless⟩
  case owned => exact exec_of_not_owned hi (by rw [hr]; rfl)
  case existing => exact exec_init_of_not_owned hi (by rw [hr]; rfl)
  case free =>
    have ho : hostOwns s.c.phase = true := by rcases hp with hp | hp | hp <;> rw [hp] <;> rfl
    have notOwned : ¬ hostOwns s.c.phase = false := by simp [ho]
    exact ⟨fun h => notOwned (hostOwns_of_refused_transportOwned h),
      fun h => notOwned (hostOwns_of_refused_controllerExists h)⟩
  case stateless =>
    refine ⟨fun h => ?_, fun h => ?_, fun h => ?_⟩ <;> simpa using refusal_of_codec_or_profile hi h

/-- Settles O24: in each mode the adapter passes the frame of that mode, which the chip takes as the register's write. -/
theorem xportWriteCompletes : Obligations.XportWriteCompletes := by
  intro s r data hcfg ho hv
  refine ⟨fun hm hn => ?_, fun hm hs => ?_⟩
  · exact write_transaction (by rw [exec_xportWrite ho, writeGate_narrow hm hv hn]; rfl)
      (wireWrites_narrow hcfg hv hn) hv
  · exact write_transaction (by rw [exec_xportWrite ho, writeGate_wide ⟨hm, hs⟩ hv]; rfl) (wireWrites_wide hcfg hv) hv

/-- Settles O26: the adapter passes the register's read header; an answer has the register's width, so an observer reads the
frame. -/
theorem xportReadCompletes : Obligations.XportReadCompletes := by
  intro s r n d ho hm hs hn
  have gate : readGate s (writeByte (regAddr s.cfg r)) n.toNat = .pass (readByte (regAddr s.cfg r)) := by
    rw [hn]
    simp [readGate, hm, wideReadGate_reg hs r]
  obtain ⟨answered, failed⟩ := read_transaction (i := .xportRead (writeByte (regAddr s.cfg r)) n) (r := r)
    (by rw [exec_xportRead ho, gate, hn])
  exact ⟨fun ha => ⟨answered d ha, fun hcfg => by rw [hm]; exact observeFrame_read hcfg (ha.length hcfg)⟩, failed⟩

/-- Settles O27: the register test is the last of each path's checks. -/
theorem illFormedTransactionsRefused : Obligations.IllFormedTransactionsRefused := by
  intro s addr n data ho h7
  refine ⟨fun hw hm => ?_, fun hw hm hs => ?_⟩
  · rw [exec_xportWrite ho, writeGate_ill_formed h7 (wellFormedTxn_eq_false hw) hm]
    rfl
  · rw [exec_xportRead ho, readGate_ill_formed h7 (wellFormedTxn_eq_false hw) hm hs]
    rfl

/-- Settles O28: the two checks of STREAM_WRITE, and then its one event. -/
theorem streamWriteOutcomes : Obligations.StreamWriteOutcomes := by
  intro s bytes ho
  refine ⟨fun hno => ?outside, fun hm hs => ?inside, decode_commandPacket _ _ .streamWrite _⟩
  case outside => rw [exec_streamWrite ho, streamGate_of_no_stream hno, gated_raise]
  case inside =>
    have run := (exec_streamWrite ho bytes).trans (by rw [streamGate_of_stream hm hs])
    refine ⟨fun hl => by rw [run, if_pos hl]; rfl, fun hl hd recs hrecs => ?records, fun hl => ?events⟩
    all_goals
      rw [if_neg (not_not_intro hl)] at run
      have run : exec (.streamWrite bytes) s = complete (sendWrite (.stream, bytes)) s := run
    case records =>
      have received : s.env.chip.receive s.cfg s.trace .stream bytes =
          recs.foldl (fun c w => c.write w.1 w.2) s.env.chip := by
        simp [Chip.receive, wireWrites, hrecs]
      rw [run, sendWrite_ok hd, received]
      rfl
    case events =>
      by_cases hd : s.drawAt 0 s.trace = .fail
      · exact ⟨_, run.trans (sendWrite_fail hd), rfl, .inr ⟨hd, rfl, rfl⟩⟩
      · exact ⟨_, run.trans (sendWrite_ok hd), rfl, .inl ⟨hd, rfl, rfl⟩⟩

/-- Settles O30: each wire form passes the checks of its path as one transaction of a whole register. -/
theorem wireFormsComplete : Obligations.WireFormsComplete := by
  intro s r payload d hcfg ho hv
  have wideWrite (hm : s.a.mode = .fourBitSerial) (hs : s.a.streaming = false) :=
    write_transaction (i := .frameWideWrite (regAddr s.cfg r) payload)
      ((ifHostOwns_of_owned ho _).trans (by rw [if_pos hm, hs, wideGate_reg hv])) (wireWrites_wide hcfg hv) hv
  have wideRead (hm : s.a.mode = .fourBitSerial) (hs : s.a.streaming = false ∨ s.cfg.readDuringStream = .pass) :=
    read_transaction (i := .frameWideRead (regAddr s.cfg r)) (r := r)
      ((ifHostOwns_of_owned ho _).trans (by
        have width : widthAt s.cfg (regAddr s.cfg r) = regWidth r := by simp [widthAt, regOfAddr_regAddr hcfg]
        rw [if_pos hm, width, wideReadGate_reg hs]))
  have narrowWrite (hm : s.a.mode = .singleBitTwoWire) (hn : payload.length ≤ 2) :=
    write_transaction (i := .frameNarrowWrite (regAddr s.cfg r) payload)
      ((ifHostOwns_of_owned ho _).trans (by rw [if_pos hm, narrowGate_reg hv hn])) (wireWrites_narrow hcfg hv hn) hv
  have record (hm : s.a.mode = .fourBitSerial) (hs : s.a.streaming = true) :=
    write_transaction (i := .profileRecord (regAddr s.cfg r) payload)
      ((ifHostOwns_of_owned ho _).trans (by simp only [recordGate, hm, hs, hv]; simp)) (wireWrites_record hcfg hv) hv
  exact ⟨fun hm hs => (wideWrite hm hs).1, fun hm hs => (wideRead hm hs).1 d, fun hm hn => (narrowWrite hm hn).1,
    fun hm hs => (record hm hs).1, fun hm hs => (wideWrite hm hs).2, fun hm hs => (wideRead hm hs).2,
    fun hm hn => (narrowWrite hm hn).2, fun hm hs => (record hm hs).2⟩

end Sys2Proof.Machine
end

section
/-!
PROOFS of the steady-state controller commands (42_channel_mux.md): the setters, the getters, CONFIGURE_SYSTEM_CLOCK,
SELF_TEST, and the errors they end with. First how a command ends where its procedure ends, then one lemma for the three
setters and one for the three getters; then the obligations.
-/

namespace Sys2Proof.Machine

variable {s t : State} {i : Instr} {e : Err}

/-! ## How a command ends where its procedure ends -/

theorem complete_of_ok {body : Proc Value} {v : Value} {u : State} (h : body s = .ok v u) :
    complete body s = .next (u.report (.ok v)) := by
  rw [complete_def, h, finish_ok]

theorem complete_of_error {body : Proc Value} {u : State} (h : body s = .error e u) :
    complete body s = .next (u.report (.err e)) := by
  rw [complete_def, h, finish_error]

/-- A command that answers an error ended its procedure with it. -/
theorem error_of_complete {body : Proc Value} (hp : Precise body) (h : complete body s = .next t)
    (hr : t.results = s.results ++ [.err e]) : ∃ u, body s = .error e u ∧ t = u.report (.err e) := by
  have kept := hp s
  cases hb : body s with
  | ok v u =>
    rw [complete_of_ok hb] at h
    rw [hb] at kept
    cases h
    rw [State.report_results, kept.1] at hr
    simp at hr
  | error e' u =>
    rw [complete_of_error hb] at h
    rw [hb] at kept
    cases h
    rw [State.report_results, kept.1] at hr
    obtain rfl : e' = e := by simpa using hr
    exact ⟨u, rfl, rfl⟩

/-- Where the procedure's failed write leaves what a failed write can leave, the command ends with it. -/
theorem ctlWriteFails_of_error {body : Proc Value} {k : Nat} {chip : Chip} {es : List Event} {r : Reg} {v : List Byte}
    (hx : exec i s = complete body s)
    (h : s.drawAt k (s.trace ++ es) = .fail → ∃ chip', LeftByFailedWrite r v chip chip' ∧ body s =
      .error .interface (s.after (k + 1) chip' (es ++ [.write (writeByte (regAddr s.cfg r) :: v) false]))) :
    CtlWriteFails i s k chip es r v := by
  intro hd
  obtain ⟨chip', hl, he⟩ := h hd
  exact ⟨chip', hl, hx.trans (complete_of_error he)⟩

theorem readFails_of_error {body : Proc Value} {k : Nat} {chip : Chip} {es : List Event} {r : Reg}
    (hx : exec i s = complete body s)
    (h : s.drawAt k (s.trace ++ es) = .fail → body s =
      .error .interface (s.after (k + 1) chip (es ++ [.read (readByte (regAddr s.cfg r)) (regWidth r) none]))) :
    ReadFails i s .interface k chip es r :=
  fun hd => hx.trans (complete_of_error (h hd))

/-! ## The setters (42_channel_mux.md R165, R167, R169, R171) -/

/-- The body of a setter, once its operand is encoded as the payload v and the value x is what it returns. -/
def setterBody (cs : ChSet) (r : Reg) (v : List Byte) (x : Rat) : Proc Value := do
  modifyChannel cs r v
  return .q x

section Setter

variable {cs : ChSet} {r : Reg} {v : List Byte} {x : Rat}

/-- Both writes accepted. -/
theorem setter_accepted (hx : exec i s = complete (setterBody cs r v x) s) (hcfg : s.cfg.wf = true) (h : s.Wide)
    (hv : v.length = regWidth r)
    (ha : AcceptsAll s 0 s.trace [wideW s.cfg .csr [csrByte s.cfg s.c.mode cs], wideW s.cfg r v]) :
    exec i s = .next ((s.after 2 ((s.env.chip.write .csr [csrByte s.cfg s.c.mode cs]).write r v)
      [wideW s.cfg .csr [csrByte s.cfg s.c.mode cs], wideW s.cfg r v]).report (.ok (.q x))) :=
  hx.trans (complete_of_ok (Proc.bind_of_ok (modifyChannel_wide hcfg h hv ha)))

/-- The write that selects the channels fails. -/
theorem setter_select_fails (hx : exec i s = complete (setterBody cs r v x) s) (hcfg : s.cfg.wf = true) (h : s.Wide) :
    CtlWriteFails i s 0 s.env.chip [] .csr [csrByte s.cfg s.c.mode cs] :=
  ctlWriteFails_of_error hx fun hd =>
    have ⟨chip, hl, he⟩ := modifyChannel_select_fail hcfg h hd
    ⟨chip, hl, Proc.bind_of_error he⟩

/-- The write of the register fails. -/
theorem setter_write_fails (hx : exec i s = complete (setterBody cs r v x) s) (hcfg : s.cfg.wf = true) (h : s.Wide)
    (hv : v.length = regWidth r) (h0 : s.drawAt 0 s.trace ≠ .fail) :
    CtlWriteFails i s 1 (s.env.chip.write .csr [csrByte s.cfg s.c.mode cs])
      [wideW s.cfg .csr [csrByte s.cfg s.c.mode cs]] r v :=
  ctlWriteFails_of_error hx fun hd =>
    have ⟨chip, hl, he⟩ := modifyChannel_write_fail hcfg h hv h0 hd
    ⟨chip, hl, Proc.bind_of_error he⟩

end Setter

/-- A setter in Ready with a legal channel set passes its two gates. -/
theorem setter_gates {cs : ChSet} (hcs : cs ≠ 0) (hr : s.c.phase = .ready) (k : StepOutcome) :
    ifNonEmpty cs (ifReady s k) = k :=
  (ifNonEmpty_of_ne_zero hcs _).trans (ifReady_of_ready hr k)

/-! A command whose operand is encoded first: the rest runs, or the encoder's error ends it. -/

theorem complete_encoded {α : Type} {y : Except Err α} {v : α} (h : y = .ok v) (body : α → Proc Value) (s : State) :
    complete (orRaise y >>= body) s = complete (body v) s := by
  simp [h, complete_def]

theorem complete_not_encoded {α : Type} {y : Except Err α} (h : y = .error e) (body : α → Proc Value) (s : State) :
    complete (orRaise y >>= body) s = .next (s.report (.err e)) := by
  simp [h, complete_def]

/-- SET_FREQUENCY with a positive system clock, its operand in range. -/
theorem exec_setFrequency {cs : ChSet} {hz : Rat} {ftw : Word} (hcs : cs ≠ 0) (hr : s.c.phase = .ready)
    (hsys : 0 < s.systemHz) (h : freqToFtw s.cfg hz s.systemHz = .ok ftw) :
    exec (.setFrequency cs hz) s =
      complete (setterBody cs .cftw0 (ftwPayload ftw) (ftwToFreq s.cfg ftw s.systemHz)) s :=
  (setter_gates hcs hr _).trans ((if_neg (not_le.mpr hsys)).trans (complete_encoded h _ s))

theorem exec_setFrequency_out_of_range {cs : ChSet} {hz : Rat} (hcs : cs ≠ 0) (hr : s.c.phase = .ready)
    (hsys : 0 < s.systemHz) (h : freqToFtw s.cfg hz s.systemHz = .error e) :
    exec (.setFrequency cs hz) s = .next (s.report (.err e)) :=
  (setter_gates hcs hr _).trans ((if_neg (not_le.mpr hsys)).trans (complete_not_encoded h _ s))

theorem exec_setPhase {cs : ChSet} (hcs : cs ≠ 0) (hr : s.c.phase = .ready) (turns : Rat) :
    exec (.setPhase cs turns) s =
      complete (setterBody cs .cpow0 (powPayload (phaseToPow s.cfg turns))
        (powToPhase s.cfg (phaseToPow s.cfg turns))) s :=
  setter_gates hcs hr _

theorem exec_setAmplitude {cs : ChSet} {amp : Rat} {acr : Word} (hcs : cs ≠ 0) (hr : s.c.phase = .ready)
    (h : ampToAcr s.cfg amp = .ok acr) :
    exec (.setAmplitude cs amp) s =
      complete (setterBody cs .acr (acrPayload acr) (acrToAmp s.cfg (acrPayload acr))) s :=
  (setter_gates hcs hr _).trans (complete_encoded h _ s)

theorem exec_setAmplitude_out_of_range {cs : ChSet} {amp : Rat} (hcs : cs ≠ 0) (hr : s.c.phase = .ready)
    (h : ampToAcr s.cfg amp = .error e) : exec (.setAmplitude cs amp) s = .next (s.report (.err e)) :=
  (setter_gates hcs hr _).trans (complete_not_encoded h _ s)

theorem freqToFtw_of_in_range {hz sys : Rat} (h0 : 0 ≤ hz) (h1 : hz ≤ sys / 2) (cfg : Config) :
    freqToFtw cfg hz sys = .ok (BitVec.ofInt 32 (ftwFloor cfg hz sys)) :=
  if_neg (not_or.mpr ⟨not_lt.mpr h0, not_lt.mpr h1⟩)

@[simp] theorem ftwPayload_length (ftw : Word) : (ftwPayload ftw).length = regWidth .cftw0 := beBytes_length _ _

@[simp] theorem powPayload_length (pow : BitVec 16) : (powPayload pow).length = regWidth .cpow0 := beBytes_length _ _

@[simp] theorem acrPayload_length (acr : Word) : (acrPayload acr).length = regWidth .acr := by
  simp [acrPayload, regWidth]

/-! ## The getters (42_channel_mux.md R166, R168, R170, R172) -/

/-- The body of a getter that returns f of the register's bytes. -/
def getterBody (ch : Channel) (r : Reg) (f : List Byte → Rat) : Proc Value := do
  let d ← readChannel ch r
  return .q (f d)

theorem exec_getFrequency (hr : s.c.phase = .ready) (ch : Channel) :
    exec (.getFrequency ch) s =
      complete (getterBody ch .cftw0 fun d => ftwToFreq s.cfg (BitVec.ofNat 32 (fromBe d)) s.systemHz) s :=
  ifReady_of_ready hr _

theorem exec_getPhase (hr : s.c.phase = .ready) (ch : Channel) :
    exec (.getPhase ch) s =
      complete (getterBody ch .cpow0 fun d => powToPhase s.cfg (BitVec.ofNat 16 (fromBe d))) s :=
  ifReady_of_ready hr _

theorem exec_getAmplitude (hr : s.c.phase = .ready) (ch : Channel) :
    exec (.getAmplitude ch) s = complete (getterBody ch .acr (acrToAmp s.cfg)) s :=
  ifReady_of_ready hr _

/-- Each of the three getters is a run of READ_CHANNEL. -/
theorem exec_getter {ch : Channel} {r : Reg} (hr : s.c.phase = .ready)
    (hi : (r = .cftw0 ∧ i = .getFrequency ch) ∨ (r = .cpow0 ∧ i = .getPhase ch) ∨ (r = .acr ∧ i = .getAmplitude ch)) :
    ∃ f, exec i s = complete (getterBody ch r f) s := by
  rcases hi with ⟨rfl, rfl⟩ | ⟨rfl, rfl⟩ | ⟨rfl, rfl⟩
  · exact ⟨_, exec_getFrequency hr ch⟩
  · exact ⟨_, exec_getPhase hr ch⟩
  · exact ⟨_, exec_getAmplitude hr ch⟩

section Getter

variable {ch : Channel} {r : Reg} {f : List Byte → Rat} {saved : Byte} {d : List Byte}

/-- All four transactions accepted. -/
theorem getter_answered (hx : exec i s = complete (getterBody ch r f) s) (hcfg : s.cfg.wf = true) (h : s.Wide)
    (h0 : Answers s 0 s.trace s.env.chip .csr [saved])
    (h1 : s.drawAt 1 (s.trace ++ [readR s.cfg .csr [saved]]) ≠ .fail) :
    let w := csrByte s.cfg s.c.mode (channelFlag ch)
    Answers s 2 (s.trace ++ [readR s.cfg .csr [saved], wideW s.cfg .csr [w]]) (s.env.chip.write .csr [w]) r d →
    s.drawAt 3 (s.trace ++ [readR s.cfg .csr [saved], wideW s.cfg .csr [w], readR s.cfg r d]) ≠ .fail →
      exec i s = .next ((s.after 4 ((s.env.chip.write .csr [w]).write .csr [saved]) [readR s.cfg .csr [saved],
        wideW s.cfg .csr [w], readR s.cfg r d, wideW s.cfg .csr [saved]]).report (.ok (.q (f d)))) :=
  fun h2 h3 => hx.trans (complete_of_ok (Proc.bind_of_ok (readChannel_wide hcfg h h0 h1 h2 h3)))

theorem getter_csr_read_fails (hx : exec i s = complete (getterBody ch r f) s) (h : s.Wide) :
    ReadFails i s .interface 0 s.env.chip [] .csr :=
  readFails_of_error hx fun hd => Proc.bind_of_error (readChannel_read_csr_fail h hd)

theorem getter_select_fails (hx : exec i s = complete (getterBody ch r f) s) (hcfg : s.cfg.wf = true) (h : s.Wide)
    (h0 : Answers s 0 s.trace s.env.chip .csr [saved]) :
    CtlWriteFails i s 1 s.env.chip [readR s.cfg .csr [saved]] .csr [csrByte s.cfg s.c.mode (channelFlag ch)] :=
  ctlWriteFails_of_error hx fun hd =>
    have ⟨chip, hl, he⟩ := readChannel_select_fail hcfg h h0 hd
    ⟨chip, hl, Proc.bind_of_error he⟩

theorem getter_read_fails (hx : exec i s = complete (getterBody ch r f) s) (hcfg : s.cfg.wf = true) (h : s.Wide)
    (h0 : Answers s 0 s.trace s.env.chip .csr [saved])
    (h1 : s.drawAt 1 (s.trace ++ [readR s.cfg .csr [saved]]) ≠ .fail) :
    let w := csrByte s.cfg s.c.mode (channelFlag ch)
    ReadFails i s .interface 2 (s.env.chip.write .csr [w]) [readR s.cfg .csr [saved], wideW s.cfg .csr [w]] r :=
  readFails_of_error hx fun hd => Proc.bind_of_error (readChannel_read_fail hcfg h h0 h1 hd)

theorem getter_restore_fails (hx : exec i s = complete (getterBody ch r f) s) (hcfg : s.cfg.wf = true) (h : s.Wide)
    (h0 : Answers s 0 s.trace s.env.chip .csr [saved])
    (h1 : s.drawAt 1 (s.trace ++ [readR s.cfg .csr [saved]]) ≠ .fail) :
    let w := csrByte s.cfg s.c.mode (channelFlag ch)
    Answers s 2 (s.trace ++ [readR s.cfg .csr [saved], wideW s.cfg .csr [w]]) (s.env.chip.write .csr [w]) r d →
    RestoreFails i s 3 (s.env.chip.write .csr [w])
      [readR s.cfg .csr [saved], wideW s.cfg .csr [w], readR s.cfg r d] saved :=
  fun h2 hd => hx.trans (complete_of_error (Proc.bind_of_error (readChannel_restore_fail hcfg h h0 h1 h2 hd)))

end Getter

/-! ## CONFIGURE_SYSTEM_CLOCK (42_channel_mux.md R173) -/

/-- The body of CONFIGURE_SYSTEM_CLOCK. -/
def clockBody (ref : Rat) (mult : Byte) : Proc Value := do
  let eff ← configureClock ref mult
  return .q eff

theorem exec_configureSystemClock (hr : s.c.phase = .ready) (ref : Rat) (mult : Byte) :
    exec (.configureSystemClock ref mult) s = complete (clockBody ref mult) s :=
  ifReady_of_ready hr _

theorem precise_clockBody (ref : Rat) (mult : Byte) : Precise (clockBody ref mult) :=
  (precise_configureClock ref mult).bind fun _ => .pure _

/-- Where CONFIGURE_SYSTEM_CLOCK answers an error, it is VALIDATE_CLOCKING's with nothing done, or Interface after bus events
alone. -/
theorem clock_error_cases {ref : Rat} {mult : Byte} (h : exec (.configureSystemClock ref mult) s = .next t)
    (hr : t.results = s.results ++ [.err e]) :
    (validateClocking s.cfg ref mult = .error e ∧ t = s.report (.err e)) ∨
      (e = .interface ∧ (∃ eff, validateClocking s.cfg ref mult = .ok eff) ∧ t.c = s.c) := by
  rw [exec_configureSystemClock (ifReady_next h).1] at h
  obtain ⟨u, hu, rfl⟩ := error_of_complete (precise_clockBody ref mult) h hr
  rcases configureClock_cases ref mult s with ⟨e', hv, hx⟩ | ⟨eff, hv, ⟨u', hb, hx⟩ | ⟨u', -, hx, -⟩⟩
  · cases hu.symm.trans (Proc.bind_of_error hx)
    exact .inl ⟨hv, rfl⟩
  · cases hu.symm.trans (Proc.bind_of_error hx)
    exact .inr ⟨rfl, ⟨eff, hv⟩, hb.c⟩
  · cases hu.symm.trans (Proc.bind_of_ok hx)

/-! ## The errors of the steady-state commands (42_channel_mux.md R161; 41_transport.md R141) -/

/-- VALIDATE_CLOCKING's errors are Bounds and Frequency. -/
theorem validateClocking_error {cfg : Config} {ref : Rat} {mult : Byte} (h : validateClocking cfg ref mult = .error e) :
    e = .bounds ∨ e = .frequency := by
  by_cases hr : ClockRanges ref mult
  · rw [validateClocking_of_ranges hr] at h
    split at h <;> cases h
    exact .inr rfl
  · rw [validateClocking_of_not_ranges hr] at h
    cases h
    exact .inl rfl

theorem freqToFtw_error {cfg : Config} {hz sys : Rat} (h : freqToFtw cfg hz sys = .error e) : e = .bounds := by
  unfold freqToFtw at h
  split at h <;> cases h
  rfl

theorem ampToAcr_error {cfg : Config} {amp : Rat} (h : ampToAcr cfg amp = .error e) : e = .bounds := by
  unfold ampToAcr at h
  split_ifs at h
  cases h
  rfl

/-- How a steady-state command can answer an error: Interface, or Bounds or Frequency with nothing done. -/
def SteadyError (s t : State) (e : Err) : Prop :=
  e = .interface ∨ ((e = .bounds ∨ e = .frequency) ∧ t = s.report (.err e))

/-- A procedure that raises Interface alone. -/
theorem steadyError_of_raises {body : Proc Value} (hp : Precise body) (hi : Raises (· = .interface) body)
    (h : complete body s = .next t) (hr : t.results = s.results ++ [.err e]) : SteadyError s t e := by
  obtain ⟨u, hu, -⟩ := error_of_complete hp h hr
  exact .inl (hi s e u hu)

/-- A procedure that encodes its operand first, with no error but Bounds, and then raises Interface alone. -/
theorem steadyError_of_encoder {α : Type} {y : Except Err α} {body : α → Proc Value}
    (hy : ∀ e, y = .error e → e = .bounds) (hp : ∀ v, Precise (body v)) (hi : ∀ v, Raises (· = .interface) (body v))
    (h : complete (orRaise y >>= body) s = .next t) (hr : t.results = s.results ++ [.err e]) : SteadyError s t e := by
  cases y with
  | ok v => exact steadyError_of_raises (hp v) (hi v) ((complete_encoded rfl body s).symm.trans h) hr
  | error e' =>
    cases (complete_not_encoded rfl body s).symm.trans h
    obtain rfl : e' = e := by simpa using hr
    exact .inr ⟨.inl (hy e' rfl), rfl⟩

theorem precise_setterBody (cs : ChSet) (r : Reg) (v : List Byte) (x : Rat) : Precise (setterBody cs r v x) :=
  (precise_modifyChannel cs r v).bind fun _ => .pure _

theorem raises_setterBody (cs : ChSet) (r : Reg) (v : List Byte) (x : Rat) :
    Raises (· = .interface) (setterBody cs r v x) :=
  (raises_modifyChannel cs r v).bind fun _ => .pure _

theorem precise_getterBody (ch : Channel) (r : Reg) (f : List Byte → Rat) : Precise (getterBody ch r f) :=
  (precise_readChannel ch r).bind fun _ => .pure _

theorem raises_getterBody (ch : Channel) (r : Reg) (f : List Byte → Rat) :
    Raises (· = .interface) (getterBody ch r f) :=
  (raises_readChannel ch r).bind fun _ => .pure _

/-- The error of every steady-state command. -/
theorem exec_steadyError (hi : i.isSteady = true) (h : exec i s = .next t) (hr : t.results = s.results ++ [.err e]) :
    SteadyError s t e := by
  have setter {cs : ChSet} {k : StepOutcome} (h : ifNonEmpty cs (ifReady s k) = .next t) : k = .next t :=
    (ifReady_next (ifNonEmpty_next h)).2
  cases i with
  | setFrequency cs hz =>
    have h := setter h
    split at h
    · cases h
    · exact steadyError_of_encoder (fun _ => freqToFtw_error) (fun _ => precise_setterBody _ _ _ _)
        (fun _ => raises_setterBody _ _ _ _) h hr
  | setPhase cs turns =>
    exact steadyError_of_raises (precise_setterBody _ _ _ _) (raises_setterBody _ _ _ _) (setter h) hr
  | setAmplitude cs amp =>
    exact steadyError_of_encoder (fun _ => ampToAcr_error) (fun _ => precise_setterBody _ _ _ _)
      (fun _ => raises_setterBody _ _ _ _) (setter h) hr
  | getFrequency | getPhase | getAmplitude =>
    exact steadyError_of_raises (precise_getterBody _ _ _) (raises_getterBody _ _ _) (ifReady_next h).2 hr
  | configureSystemClock ref mult =>
    rcases clock_error_cases h hr with ⟨hv, ht⟩ | ⟨rfl, -⟩
    · exact .inr ⟨validateClocking_error hv, ht⟩
    · exact .inl rfl
  | selfTest => exact steadyError_of_raises precise_selfTest raises_selfTest (ifReady_next h).2 hr
  | freeze =>
    rw [exec_freeze (ifReady_next h).1] at h
    cases h
    simp at hr
  | _ => cases hi

/-! ## The obligations -/

/-- Settles O31: the encoder's Bounds test, and then a setter of CFTW0. -/
theorem setFrequencyCompletes : Obligations.SetFrequencyCompletes := by
  intro s cs hz hcfg hr h hcs hsys
  refine ⟨fun hout => exec_setFrequency_out_of_range hcs hr hsys (freqToFtw_bounds hout s.cfg), fun h0 h1 => ?_⟩
  have run := exec_setFrequency hcs hr hsys (freqToFtw_of_in_range h0 h1 s.cfg)
  exact ⟨setter_accepted run hcfg h (ftwPayload_length _), setter_select_fails run hcfg h,
    setter_write_fails run hcfg h (ftwPayload_length _)⟩

/-- Settles O32: a setter of CPOW0, whose encoder never fails. -/
theorem setPhaseCompletes : Obligations.SetPhaseCompletes := by
  intro s cs turns hcfg hr h hcs
  have run := exec_setPhase hcs hr turns
  exact ⟨setter_accepted run hcfg h (powPayload_length _), setter_select_fails run hcfg h,
    setter_write_fails run hcfg h (powPayload_length _)⟩

/-- Settles O33: the encoder's Bounds test, and then a setter of ACR. -/
theorem setAmplitudeCompletes : Obligations.SetAmplitudeCompletes := by
  intro s cs amp hcfg hr h hcs
  refine ⟨fun hout => exec_setAmplitude_out_of_range hcs hr (ampToAcr_bounds hout s.cfg), fun acr hacr => ?_⟩
  have run := exec_setAmplitude hcs hr hacr
  exact ⟨setter_accepted run hcfg h (acrPayload_length _), setter_select_fails run hcfg h,
    setter_write_fails run hcfg h (acrPayload_length _)⟩

/-- Settles O34: each getter is READ_CHANNEL and its decoder, and READ_CHANNEL's four transactions fail one by one. -/
theorem gettersComplete : Obligations.GettersComplete := by
  intro s ch saved r d hcfg hr h w t1 t2 t3 chip1 after
  have ht2 : t2 = s.trace ++ [readR s.cfg .csr [saved], wideW s.cfg .csr [w]] := List.append_assoc _ _ _
  have ht3 : t3 = s.trace ++ [readR s.cfg .csr [saved], wideW s.cfg .csr [w], readR s.cfg r d] := by
    simp only [t3, ht2, List.append_assoc, List.cons_append, List.nil_append]
  refine ⟨fun h0 h1 h2 h3 => ?answered, ?selected, fun i hi => ?failed⟩
  case answered =>
    rw [ht2] at h2
    rw [ht3] at h3
    have last : ∀ x, after x = (s.after 4 (chip1.write .csr [saved]) [readR s.cfg .csr [saved], wideW s.cfg .csr [w],
        readR s.cfg r d, wideW s.cfg .csr [saved]]).report (.ok (.q x)) := by
      intro x
      simp only [after, ht3, List.append_assoc, List.cons_append, List.nil_append]
      rfl
    refine ⟨?_, ?_, ?_⟩ <;> rintro rfl <;> rw [last]
    · exact getter_answered (exec_getFrequency hr ch) hcfg h h0 h1 h2 h3
    · exact getter_answered (exec_getPhase hr ch) hcfg h h0 h1 h2 h3
    · exact getter_answered (exec_getAmplitude hr ch) hcfg h h0 h1 h2 h3
  case selected => simp [chip1, Chip.write, Chip.withWritten, writeReg, fromBe_cons]
  case failed =>
    obtain ⟨f, run⟩ := exec_getter hr hi
    exact ⟨getter_csr_read_fails run h, fun h0 => ⟨getter_select_fails run hcfg h h0, fun h1 =>
      ⟨getter_read_fails run hcfg h h0 h1, fun h2 => getter_restore_fails run hcfg h h0 h1 (ht2 ▸ h2)⟩⟩⟩

/-- Settles O36: the read, the write and the stored clock, or the one that fails. -/
theorem configureSystemClockCompletes : Obligations.ConfigureSystemClockCompletes := by
  intro s ref eff mult old hcfg hr h hv t1 new
  have run := exec_configureSystemClock hr ref mult
  refine ⟨fun h0 h1 => ?completed, ?readFails, fun h0 => ?writeFails⟩
  case completed =>
    have done : clockBody ref mult s = .ok (.q eff) _ := Proc.bind_of_ok (configureClock_wide hcfg h hv h0 h1)
    rw [run, complete_of_ok done]
    simp [State.report, State.setClock, State.after, t1, new, hr]
  case readFails => exact readFails_of_error run fun hd => Proc.bind_of_error (configureClock_read_fail h hv hd)
  case writeFails =>
    refine ctlWriteFails_of_error run fun hd => ?_
    obtain ⟨chip, hl, he⟩ := configureClock_write_fail hcfg h hv h0 hd
    exact ⟨chip, hl, Proc.bind_of_error he⟩

/-- Settles O37: a rejected clock ends the command before the read, and every other error leaves the controller. -/
theorem clockErrorsKeepTheClock : Obligations.ClockErrorsKeepTheClock := by
  refine ⟨fun s ref mult e hr hv => ?_, fun s t ref mult e h hres => ?_⟩
  · rw [exec_configureSystemClock hr]
    exact complete_of_error (Proc.bind_of_error (configureClock_rejected hv))
  · rcases clock_error_cases h hres with ⟨hv, rfl⟩ | ⟨he, hv, hc⟩
    · exact ⟨rfl, .inl ⟨hv, rfl⟩⟩
    · exact ⟨hc, .inr ⟨he, hv⟩⟩

/-- Settles O41: the gate of the steady-state commands. -/
theorem steadyCommandsNeedReady : Obligations.SteadyCommandsNeedReady :=
  fun _ _ hi hw hp => exec_steady_of_not_ready hi hw hp

/-- Settles O58: an error with nothing done has no failed event, so where an event failed the error is Interface. -/
theorem steadyCommandErrors : Obligations.SteadyCommandErrors := by
  intro i s t hi h
  refine ⟨fun e hr => exec_steadyError hi h hr, fun es hes hfailed => ?_⟩
  obtain ⟨es', r, hes', hr, cases⟩ := exec_precise h
  obtain rfl : es' = es := List.append_cancel_left (hes'.symm.trans hes)
  rcases cases with hall | ⟨e, rfl, -⟩
  · simp [hall] at hfailed
  · rcases exec_steadyError hi h hr with rfl | ⟨-, rfl⟩
    · exact hr
    · have none : es' = [] := List.append_right_eq_self.mp hes'.symm
      simp [none] at hfailed

end Sys2Proof.Machine
end

section
/-!
PROOFS of SELF_TEST (42_channel_mux.md R174), of the reach of a setter's two writes (R163, R165), and of what the echo oracle
reads back (20_memory.md R64). First SELF_TEST stage by stage and what register writes leave of the chip; then the obligations.
-/

namespace Sys2Proof.Machine

variable {s t : State} {i : Instr}

/-! ## SELF_TEST, stage by stage (42_channel_mux.md R174) -/

/-- SELF_TEST from the look at the cleared enables on. -/
def selfTestLookClear (saved : Byte) : Proc Value := do
  let w ← readCsr
  if csrChannels w = 0#4 then do
    ctlWrite .csr [saved]
    return .bool true
  else return .bool false

/-- SELF_TEST from the look at the set enables on. -/
def selfTestLookSet (saved : Byte) : Proc Value := do
  let w ← readCsr
  if csrChannels w = 0xF#4 then selfTestClear saved w else return .bool false

/-- SELF_TEST from the write that sets the enables on. -/
def selfTestSet (saved : Byte) : Proc Value := do
  ctlWrite .csr [saved ||| 0xF0#8]
  selfTestLookSet saved

section Stages

variable {k : Nat} {chip : Chip} {es : List Event} {saved w : Byte}

theorem selfTest_start (h : s.Wide) (ha : Answers s 0 s.trace s.env.chip .csr [saved]) :
    selfTestBody s = selfTestSet saved (s.after 1 s.env.chip [readR s.cfg .csr [saved]]) :=
  Proc.bind_of_ok (readCsr_wide h ha)

theorem selfTestSet_after (hcfg : s.cfg.wf = true) (h : s.Wide) (hd : s.drawAt k (s.trace ++ es) ≠ .fail) :
    selfTestSet saved (s.after k chip es) = selfTestLookSet saved (s.after (k + 1)
      (chip.write .csr [saved ||| 0xF0#8]) (es ++ [wideW s.cfg .csr [saved ||| 0xF0#8]])) :=
  Proc.bind_of_ok (ctlWrite_after hcfg h rfl hd)

theorem selfTestLookSet_after (h : s.Wide) (ha : Answers s k (s.trace ++ es) chip .csr [w]) :
    selfTestLookSet saved (s.after k chip es) =
      (if csrChannels w = 0xF#4 then selfTestClear saved w else pure (.bool false) : Proc Value)
        (s.after (k + 1) chip (es ++ [readR s.cfg .csr [w]])) :=
  Proc.bind_of_ok (readCsr_after h ha)

theorem selfTestClear_after (hcfg : s.cfg.wf = true) (h : s.Wide) (hd : s.drawAt k (s.trace ++ es) ≠ .fail) :
    selfTestClear saved w (s.after k chip es) = selfTestLookClear saved (s.after (k + 1)
      (chip.write .csr [w &&& 0x0F#8]) (es ++ [wideW s.cfg .csr [w &&& 0x0F#8]])) :=
  Proc.bind_of_ok (ctlWrite_after hcfg h rfl hd)

theorem selfTestLookClear_after (h : s.Wide) (ha : Answers s k (s.trace ++ es) chip .csr [w]) :
    selfTestLookClear saved (s.after k chip es) =
      (if csrChannels w = 0#4 then (do ctlWrite .csr [saved]; return .bool true) else pure (.bool false) : Proc Value)
        (s.after (k + 1) chip (es ++ [readR s.cfg .csr [w]])) :=
  Proc.bind_of_ok (readCsr_after h ha)

theorem selfTestRestore_after (hcfg : s.cfg.wf = true) (h : s.Wide) (hd : s.drawAt k (s.trace ++ es) ≠ .fail) :
    (do ctlWrite .csr [saved]; return .bool true : Proc Value) (s.after k chip es) =
      .ok (.bool true) (s.after (k + 1) (chip.write .csr [saved]) (es ++ [wideW s.cfg .csr [saved]])) :=
  Proc.bind_of_ok (ctlWrite_after hcfg h rfl hd)

/-- The command whose procedure has come to a register write, where the oracle fails it. -/
theorem ctlWriteFails_at {body : Proc Value} {rest : Unit → Proc Value} {r : Reg} {v : List Byte}
    (hx : exec i s = complete body s) (hcfg : s.cfg.wf = true) (h : s.Wide) (hv : v.length = regWidth r)
    (run : body s = (ctlWrite r v >>= rest) (s.after k chip es)) : CtlWriteFails i s k chip es r v :=
  ctlWriteFails_of_error hx fun hd =>
    have ⟨chip', hl, he⟩ := ctlWrite_after_fail hcfg h hv hd
    ⟨chip', hl, run.trans (Proc.bind_of_error he)⟩

/-- The command whose procedure has come to a read of CSR, where the oracle fails it. -/
theorem readCsrFails_at {body : Proc Value} {rest : Byte → Proc Value} (hx : exec i s = complete body s) (h : s.Wide)
    (run : body s = (readCsr >>= rest) (s.after k chip es)) : ReadFails i s .interface k chip es .csr :=
  readFails_of_error hx fun hd => run.trans (Proc.bind_of_error (readCsr_after_fail h hd))

end Stages

theorem exec_selfTest (hr : s.c.phase = .ready) : exec .selfTest s = complete selfTestBody s := ifReady_of_ready hr _

/-! ## What register writes leave of the chip (20_memory.md R64; 10_state.md R33, R41) -/

/-- The written contents after a CSR write: only CSR differs. -/
theorem write_csr_written (chip : Chip) (b : Byte) : (chip.write .csr [b]).written = { chip.written with csr := b } := by
  simp [Chip.write, Chip.withWritten, writeReg, fromBe_cons]

/-- The registers that a setter writes exist once per channel (10_state.md R32). -/
def isTuning (r : Reg) : Prop := r = .cftw0 ∨ r = .cpow0 ∨ r = .acr

theorem writeReg_tuning {r : Reg} (h : isTuning r) (v : List Byte) (f : RegFile) : writeReg r v f = writeLanes r v f := by
  rcases h with rfl | rfl | rfl <;> rfl

theorem write_tuning_written {r : Reg} (h : isTuning r) (v : List Byte) (chip : Chip) :
    (chip.write r v).written = writeLanes r v chip.written :=
  writeReg_tuning h v chip.written

/-- The bit of CSR that enables a channel (10_state.md R33). -/
def enableBit : Channel → Nat
  | .one => 4
  | .two => 5
  | .three => 6
  | .four => 7

theorem not_in_set_iff (b : Byte) (ch : Channel) :
    channelFlag ch &&& csrChannels b = 0 ↔ b.getLsbD (enableBit ch) = false := by
  cases ch <;> revert b <;> decide

/-- A per-channel write reaches the channels of CSR's set and no other (42_channel_mux.md R163). -/
theorem laneOf_writeLanes (r : Reg) (v : List Byte) (f : RegFile) (ch : Channel) :
    laneOf (writeLanes r v f) ch =
      if channelFlag ch &&& csrChannels f.csr = 0 then laneOf f ch else writeLane r v (laneOf f ch) := by
  have swap (b : Bool) (x y : LaneRegs) : (if b then x else y) = if b = false then y else x := by cases b <;> rfl
  simp only [not_in_set_iff]
  cases ch <;> exact swap _ _ _

/-- The enables in active use are those written. -/
theorem csrChannels_enableChannels (written active : Byte) :
    csrChannels (enableChannels written active) = csrChannels written := by
  unfold csrChannels enableChannels
  ext i hi
  simp only [BitVec.getElem_extractLsb', BitVec.getLsbD_or, BitVec.getLsbD_and]
  interval_cases i <;> simp

theorem enableChannels_again (written active : Byte) :
    enableChannels written (enableChannels written active) = enableChannels written active := by
  have low := enableChannels_low written active
  unfold enableChannels at low ⊢
  rw [low]

/-- Writing back the CSR byte the chip holds after a write changes nothing. -/
theorem write_csr_self (chip : Chip) (r : Reg) (v : List Byte) {w : Byte} (h : (chip.write r v).written.csr = w) :
    (chip.write r v).write .csr [w] = chip.write r v := by
  have written : (chip.write r v).written = { (chip.write r v).written with csr := w } := by rw [← h]
  have hw : writeReg .csr [w] (chip.write r v).written = (chip.write r v).written := by
    exact (write_csr_written (chip.write r v) w).trans written.symm
  rw [Chip.write, hw]
  simp [Chip.write, Chip.withWritten, enableChannels_again]

/-! ## What a read gives back (20_memory.md R53, R64) -/

@[simp] theorem beBytes_one (b : Byte) : beBytes 1 b.toNat = [b] := by
  have := beBytes_fromBe [b]
  simpa [fromBe_cons] using this

/-- The value of a payload fits the payload's width. -/
theorem fromBe_mod (v : List Byte) : fromBe v % 256 ^ v.length = fromBe v := by
  rw [← fromBe_beBytes, beBytes_fromBe]

/-- A tuning register of a lane reads back as the payload written to it. -/
theorem readLane_writeLane {r : Reg} (h : isTuning r) {v : List Byte} (hv : v.length = regWidth r) (l : LaneRegs) :
    readLane r (writeLane r v l) = v := by
  have stored : beBytes v.length (fromBe v % 256 ^ v.length) = v := by rw [fromBe_mod, beBytes_fromBe]
  rw [hv] at stored
  rcases h with rfl | rfl | rfl
  · simpa [readLane, writeLane, regWidth] using stored
  · simpa [readLane, writeLane, regWidth] using stored
  · simpa [readLane, writeLane, regWidth] using stored

/-- With one channel selected, a tuning register reads as that channel's. -/
theorem readReg_tuning {r : Reg} (h : isTuning r) {f : RegFile} {ch : Channel} (hc : csrChannels f.csr = channelFlag ch) :
    readReg r f = some (readLane r (laneOf f ch)) := by
  have one : channelOfSet (channelFlag ch) = some ch := by cases ch <;> rfl
  rcases h with rfl | rfl | rfl <;> simp [readReg, hc, one]

theorem ofNat_fromBe_ftwPayload (ftw : Word) : BitVec.ofNat 32 (fromBe (ftwPayload ftw)) = ftw := by
  apply BitVec.eq_of_toNat_eq
  simpa [ftwPayload, fromBe_beBytes] using ftw.isLt

theorem ofNat_fromBe_powPayload (pow : BitVec 16) : BitVec.ofNat 16 (fromBe (powPayload pow)) = pow := by
  apply BitVec.eq_of_toNat_eq
  simpa [powPayload, fromBe_beBytes] using pow.isLt

/-! ## A setter and then its getter, under the echo oracle -/

section Echo

variable {ch : Channel} {r : Reg} {v : List Byte} {x : Rat} {f : List Byte → Rat}

/-- The chip as a setter of one channel leaves it. -/
def setterChip (s : State) (ch : Channel) (r : Reg) (v : List Byte) : Chip :=
  (s.env.chip.write .csr [csrByte s.cfg s.c.mode (channelFlag ch)]).write r v

theorem setterChip_csr (h : isTuning r) : (setterChip s ch r v).written.csr = csrByte s.cfg s.c.mode (channelFlag ch) := by
  rw [setterChip, write_tuning_written h, write_csr_written]
  rfl

/-- The channel set by the setter reads back as the payload. -/
theorem readReg_setterChip (h : isTuning r) (hv : v.length = regWidth r) :
    readReg r (setterChip s ch r v).written = some v := by
  have inSet : channelFlag ch &&& channelFlag ch ≠ 0 := by cases ch <;> decide
  rw [readReg_tuning h (ch := ch) (by rw [setterChip_csr h, csrChannels_csrByte]), setterChip, write_tuning_written h,
    write_csr_written, laneOf_writeLanes]
  simp only [csrChannels_csrByte, if_neg inSet, readLane_writeLane h hv]

/-- A getter under the echo oracle, with CSR already at its channel: it reads the register, and CSR is where it was. -/
theorem getter_echoed (hget : exec i s = complete (getterBody ch r f) s) (hcfg : s.cfg.wf = true) (h : s.Wide)
    (hs : s.env.script = []) (he : s.env.rest = .echo)
    (hcsr : s.env.chip.written.csr = csrByte s.cfg s.c.mode (channelFlag ch))
    (keep : s.env.chip.write .csr [csrByte s.cfg s.c.mode (channelFlag ch)] = s.env.chip)
    (hv : readReg r s.env.chip.written = some v) :
    ∃ u, exec i s = .next u ∧ u.results = s.results ++ [.ok (.q (f v))] ∧ u.env.chip = s.env.chip := by
  have accepted (k : Nat) (trace : List Event) : s.drawAt k trace ≠ .fail := by
    rw [drawAt_echo hs he]
    decide
  have csr : readReg .csr s.env.chip.written = some [csrByte s.cfg s.c.mode (channelFlag ch)] := by
    rw [readReg, hcsr, beBytes_one]
  exact ⟨_, getter_answered hget hcfg h (answers_echo hcfg hs he csr) (accepted _ _)
    (answers_echo hcfg hs he (by rw [keep]; exact hv)) (accepted _ _), rfl,
    (congrArg (Chip.write · .csr _) keep).trans keep⟩

/-- What a setter of one channel wrote its getter reads, and it leaves the chip as it was. -/
theorem getter_after_setter (hr : isTuning r) (hv : v.length = regWidth r) (hcfg : s.cfg.wf = true) (h : s.Wide)
    (hs : s.env.script = []) (he : s.env.rest = .echo) (hset : exec i s = complete (setterBody (channelFlag ch) r v x) s)
    (ht : exec i s = .next t) :
    t.results = s.results ++ [.ok (.q x)] ∧ t.cfg = s.cfg ∧ t.c = s.c ∧
      ∀ {j : Instr} {f : List Byte → Rat}, exec j t = complete (getterBody ch r f) t →
        ∃ u, exec j t = .next u ∧ u.results = t.results ++ [.ok (.q (f v))] ∧ u.env.chip = t.env.chip := by
  have accepted := setter_accepted hset hcfg h hv (acceptsAll_echo hs he _ _ _)
  obtain rfl := Host.Outcome.next.inj (ht.symm.trans accepted)
  have noScript : s.env.script.drop 2 = [] := by rw [hs]; rfl
  exact ⟨rfl, rfl, rfl, fun hget => getter_echoed hget hcfg ⟨h.mode, h.streaming⟩ noScript he (setterChip_csr hr)
    (write_csr_self _ r v (setterChip_csr hr)) (readReg_setterChip hr hv)⟩

/-- A command that answers a value encoded its operand, where the encoder's error would be its result. -/
theorem encoded_of_answered {α : Type} {y : Except Err α} {v : Value} (ht : exec i s = .next t)
    (hres : t.results = s.results ++ [.ok v]) (herr : ∀ e, y = .error e → exec i s = .next (s.report (.err e))) :
    ∃ x, y = .ok x := by
  cases y with
  | ok x => exact ⟨x, rfl⟩
  | error e =>
    obtain rfl := Host.Outcome.next.inj (ht.symm.trans (herr e rfl))
    simp at hres

end Echo

/-! ## The obligations -/

/-- Settles O35: the CSR write puts the set in CSR's channel bits, which the register write reads. -/
theorem broadcastReachesTheSet : Obligations.BroadcastReachesTheSet := by
  intro cfg m cs chip r v hr after
  have written : after.written = writeLanes r v { chip.written with csr := csrByte cfg m cs } := by
    rw [← write_csr_written]
    exact write_tuning_written hr v _
  refine ⟨by rw [written]; rfl, by rw [written]; rfl, fun ch => ?lanes,
    (sameActive_write _ _ _).trans (sameActive_write _ _ _), ?enables⟩
  case lanes =>
    rw [written, laneOf_writeLanes, csrChannels_csrByte]
    cases ch <;> rfl
  case enables =>
    have active : after.active.csr = enableChannels after.written.csr (chip.write .csr [csrByte cfg m cs]).active.csr := rfl
    rw [active, csrChannels_enableChannels, written]
    exact csrChannels_csrByte cfg m cs

/-- Settles O38: the six stages, each accepted or failed. -/
theorem selfTestRestoresCsr : Obligations.SelfTestRestoresCsr := by
  intro s saved w1 w2 hcfg hr h hw1 hw2 t1 t2 t3 t4 t5 chip1 chip2 es2 es4
  have ht2 : t2 = s.trace ++ es2 := List.append_assoc _ _ _
  have ht3 : t3 = s.trace ++ (es2 ++ [readR s.cfg .csr [w1]]) := by rw [← List.append_assoc, ← ht2]
  have ht4 : t4 = s.trace ++ es4 := by simp only [t4, ht3, es4, List.append_assoc, List.cons_append, List.nil_append]
  have ht5 : t5 = s.trace ++ (es4 ++ [readR s.cfg .csr [w2]]) := by rw [← List.append_assoc, ← ht4]
  have es4_eq : es2 ++ [readR s.cfg .csr [w1]] ++ [wideW s.cfg .csr [w1 &&& 0x0F#8]] = es4 := List.append_assoc _ _ _
  rw [ht2, ht3, ht4, ht5]
  have hx := exec_selfTest hr
  -- where the procedure stands after each of the first five transactions, the ones before it accepted
  have run1 (h0 : Answers s 0 s.trace s.env.chip .csr [saved]) := selfTest_start h h0
  have run2 (h0) (h1 : s.drawAt 1 t1 ≠ .fail) := (run1 h0).trans (selfTestSet_after hcfg h h1)
  have run3 (h0 h1) (h2 : Answers s 2 (s.trace ++ es2) chip1 .csr [w1]) : selfTestBody s = selfTestClear saved w1 _ :=
    (run2 h0 h1).trans ((selfTestLookSet_after h h2).trans (by rw [if_pos hw1]))
  have run4 (h0 h1 h2) (h3 : s.drawAt 3 (s.trace ++ (es2 ++ [readR s.cfg .csr [w1]])) ≠ .fail) :
      selfTestBody s = selfTestLookClear saved (s.after 4 chip2 es4) :=
    (run3 h0 h1 h2).trans ((selfTestClear_after hcfg h h3).trans (by rw [es4_eq]))
  have run5 (h0 h1 h2 h3) (h4 : Answers s 4 (s.trace ++ es4) chip2 .csr [w2]) :
      selfTestBody s = (do ctlWrite .csr [saved]; return .bool true : Proc Value) _ :=
    (run4 h0 h1 h2 h3).trans ((selfTestLookClear_after h h4).trans (by rw [if_pos hw2]))
  refine ⟨fun h0 h1 h2 h3 h4 h5 => ?passed, readCsrFails_at hx h (by rw [State.after_zero]; rfl), fun h0 =>
    ⟨ctlWriteFails_at hx hcfg h rfl (run1 h0), fun h1 => ⟨readCsrFails_at hx h (run2 h0 h1), fun h2 =>
      ⟨ctlWriteFails_at hx hcfg h rfl (run3 h0 h1 h2), fun h3 => ⟨readCsrFails_at hx h (run4 h0 h1 h2 h3), fun h4 =>
        ctlWriteFails_at hx hcfg h rfl (run5 h0 h1 h2 h3 h4)⟩⟩⟩⟩⟩
  case passed =>
    rw [hx, complete_of_ok ((run5 h0 h1 h2 h3 h4).trans (selfTestRestore_after hcfg h h5))]
    simp only [List.append_assoc]
    rfl

/-- Settles O39: a mismatch at either look ends the command with the value false. -/
theorem selfTestSoftMismatch : Obligations.SelfTestSoftMismatch := by
  intro s saved w1 hcfg hr h t1 t2 t3 t4 chip1 chip2 h0 h1 h2
  have run := (selfTest_start h h0).trans ((selfTestSet_after hcfg h h1).trans
    (selfTestLookSet_after h (w := w1) (by simpa [t2, t1] using h2)))
  refine ⟨fun hw1 => ?first, fun hw1 h3 w2 hw2 h4 => ?second⟩
  case first =>
    rw [if_neg hw1] at run
    rw [exec_selfTest hr, complete_of_ok run]
    simp only [t3, t2, t1, List.append_assoc]
    rfl
  case second =>
    rw [if_pos hw1] at run
    have run := run.trans ((selfTestClear_after hcfg h (by simpa [t3, t2, t1] using h3)).trans
      (selfTestLookClear_after h (w := w2) (by simpa [t4, t3, t2, t1] using h4)))
    rw [if_neg hw2] at run
    rw [exec_selfTest hr, complete_of_ok run]
    simp only [t4, t3, t2, t1, List.append_assoc]
    rfl

/-- Settles O59: the getter's decoder inverts the setter's payload, on the value that the setter returned. -/
theorem echoedSetterIsReadBack : Obligations.EchoedSetterIsReadBack := by
  intro s t ch v hcfg hr h hs he
  have hcs : channelFlag ch ≠ 0 := by cases ch <;> decide
  refine ⟨fun hz ht hres => ?frequency, fun turns ht hres => ?phase, fun amp ht hres => ?amplitude⟩
  case frequency =>
    have hsys : 0 < s.systemHz := by
      by_contra hle
      exact nomatch ht.symm.trans ((setter_gates hcs hr _).trans (if_pos (not_lt.mp hle)))
    obtain ⟨ftw, hftw⟩ := encoded_of_answered ht hres fun _ => exec_setFrequency_out_of_range hcs hr hsys
    obtain ⟨hx, hcfg', hc, get⟩ :=
      getter_after_setter (.inl rfl) (ftwPayload_length _) hcfg h hs he (exec_setFrequency hcs hr hsys hftw) ht
    obtain rfl : Value.q (ftwToFreq s.cfg ftw s.systemHz) = v := by simpa using hx.symm.trans hres
    have read := get (exec_getFrequency (by rw [hc]; exact hr) ch)
    rwa [ofNat_fromBe_ftwPayload, State.systemHz, hcfg', hc] at read
  case phase =>
    obtain ⟨hx, hcfg', hc, get⟩ :=
      getter_after_setter (.inr (.inl rfl)) (powPayload_length _) hcfg h hs he (exec_setPhase hcs hr turns) ht
    obtain rfl : Value.q (powToPhase s.cfg (phaseToPow s.cfg turns)) = v := by simpa using hx.symm.trans hres
    have read := get (exec_getPhase (by rw [hc]; exact hr) ch)
    rwa [ofNat_fromBe_powPayload, hcfg'] at read
  case amplitude =>
    obtain ⟨acr, hacr⟩ := encoded_of_answered ht hres fun _ => exec_setAmplitude_out_of_range hcs hr
    obtain ⟨hx, hcfg', hc, get⟩ :=
      getter_after_setter (.inr (.inr rfl)) (acrPayload_length _) hcfg h hs he (exec_setAmplitude hcs hr hacr) ht
    obtain rfl : Value.q (acrToAmp s.cfg (acrPayload acr)) = v := by simpa using hx.symm.trans hres
    have read := get (exec_getAmplitude (by rw [hc]; exact hr) ch)
    rwa [hcfg'] at read

/-- Settles O60: under the echo oracle each look reads what SELF_TEST wrote, and the last write is the saved byte. -/
theorem echoedSelfTestPasses : Obligations.EchoedSelfTestPasses := by
  intro s hcfg hr h hs he
  have allSet : ∀ b : Byte, csrChannels (b ||| 0xF0#8) = 0xF#4 := by decide
  have allClear : ∀ b : Byte, csrChannels (b &&& 0x0F#8) = 0#4 := by decide
  have accepted (k : Nat) (trace : List Event) : s.drawAt k trace ≠ .fail := by
    rw [drawAt_echo hs he]
    decide
  have reads (chip : Chip) (b : Byte) : readReg .csr (chip.write .csr [b]).written = some [b] := by
    rw [write_csr_written, readReg, beBytes_one]
  have first : readReg .csr s.env.chip.written = some [s.env.chip.written.csr] := by rw [readReg, beBytes_one]
  obtain ⟨passed, -⟩ := selfTestRestoresCsr s s.env.chip.written.csr (s.env.chip.written.csr ||| 0xF0#8)
    ((s.env.chip.written.csr ||| 0xF0#8) &&& 0x0F#8) hcfg hr h (allSet _) (allClear _)
  refine ⟨_, passed (answers_echo hcfg hs he first) (accepted _ _) (answers_echo hcfg hs he (reads _ _)) (accepted _ _)
    (answers_echo hcfg hs he (reads _ _)) (accepted _ _), rfl, ?_⟩
  simp [write_csr_written]

end Sys2Proof.Machine
end

section
/-!
PROOFS of INIT (70_reset_and_hazards.md R262, R264): its whole run, its two ends at the read-back, and everything it can end
in. First the end of an INIT that succeeds, the clock step that stops at a rejected clock, and what a failed last event says
of a result; then the obligations.
-/

namespace Sys2Proof.Machine

variable {s t : State} {m : Mode} {ref : Rat} {mult : Byte} {e : Err}

/-! ## The ends of INIT -/

/-- An INIT whose sequence succeeds reports no value. -/
theorem exec_init_of_ok (ho : hostOwns s.c.phase = true) (h : initSequence m ref mult s = .ok () t) :
    exec (.init m ref mult) s = .next (t.report (.ok .none)) := by
  have done : orFailed (initSequence m ref mult) s = .ok .none t := by
    unfold orFailed
    rw [h]
  exact (if_pos ho).trans (complete_of_ok done)

/-- A clock that VALIDATE_CLOCKING rejects stops INIT's clock step before its first event. -/
theorem initClock_rejected (h : validateClocking s.cfg ref mult = .error e) : initClock ref mult s = .error e s :=
  Proc.bind_of_error (configureClock_rejected h)

/-! ## A failed last event and the result (60_exceptions.md R233) -/

/-- A command whose last event failed answers an error that reports that event. -/
theorem result_of_failed_event {i : Instr} {r : CmdResult} {es : List Event} {ev : Event} (h : exec i s = .next t)
    (hr : t.results = s.results ++ [r]) (hes : t.trace = s.trace ++ es ++ [ev]) (hev : Event.accepted ev = false) :
    ∃ e, r = .err e ∧ Event.blames ev e = true := by
  obtain ⟨es', r', hes', hr', cases⟩ := exec_precise h
  obtain rfl : r' = r := by simpa using hr'.symm.trans hr
  obtain rfl : es' = es ++ [ev] := List.append_cancel_left (hes'.symm.trans (hes.trans (List.append_assoc _ _ _)))
  rcases cases with hall | ⟨e, he, fs, ev', heq, -, -, hblames⟩
  · simp [hev] at hall
  · obtain ⟨-, rfl⟩ := List.append_inj' heq rfl |>.imp_right (List.cons.inj · |>.1)
    exact ⟨e, he, hblames⟩

/-- INIT reports a failed transaction as Interface and a failed pin change as Pin. -/
theorem initError_of_blames {ev : Event} (he : initError e) (h : Event.blames ev e = true) :
    e = if Event.isBus ev then .interface else .pin := by
  cases ev with
  | write | read =>
    rcases (by simpa [Event.blames] using h : e = .aBus ∨ e = .interface) with rfl | rfl
    · simp [initError] at he
    · rfl
  | pin => exact eq_of_beq h
  | delay => cases h

/-! ## The obligations -/

/-- Settles O42: the run up to the read-back, the read-back of the byte written, and the clock step with the second pulse. -/
theorem initCompletes : Obligations.InitCompletes := by
  intro s ref eff mult old hcfg ho hs hv w lead pulse head t1 t2 t3 new tail chip1 hhead hread hold htail
  have ht2 : t2 = s.trace ++ (head ++ [readR s.cfg .csr [w]]) := List.append_assoc _ _ _
  have toClock : initSequence .fourBitSerial ref mult s = _ :=
    Eq.trans (initSequence_readBack hcfg hs hhead hread) (if_pos rfl)
  have clock : initClock ref mult (s.mid _ _ _ _ _ _) = .ok () _ :=
    initClock_mid (a := { mode := .fourBitSerial, streaming := false })
      (c := { s.c with mode := .fourBitSerial, phase := .csrVerified }) hcfg rfl rfl hv (ht2 ▸ hold)
      (by rw [← ht2]; exact htail)
  rw [exec_init_of_ok ho (toClock.trans clock)]
  have trace : t3 ++ tail = s.trace ++ (head ++ [readR s.cfg .csr [w]] ++ readR s.cfg .fr1 old :: tail) := by
    simp only [t3, ht2, List.append_assoc, List.cons_append, List.nil_append]
  rw [trace]
  rfl

/-- Settles O43: at the read-back INIT stops at its check or at the clock; and whatever the oracle does, it ends with what a
successful sequence says or Failed with one of its errors, which reports the failed event if there is one. -/
theorem initEndsReadyOrFailed : Obligations.InitEndsReadyOrFailed := by
  constructor
  · intro s ref mult b e hcfg ho hs w lead head t1 chip1 hhead hread hcase
    have readBack := initSequence_readBack (ref := ref) (mult := mult) hcfg hs hhead hread
    have trace : t1 ++ [readR s.cfg .csr [b]] = s.trace ++ (head ++ [readR s.cfg .csr [b]]) := List.append_assoc _ _ _
    rw [trace]
    rcases hcase with ⟨hb, rfl⟩ | ⟨rfl, hv⟩
    · exact exec_init_of_error ho (Eq.trans readBack (if_neg hb))
    · exact exec_init_of_error ho (Eq.trans readBack ((if_pos rfl).trans (initClock_rejected hv)))
  · intro s m ref mult ho
    have kept := within_initSequence (m := m) ref mult s
    have mode {m' : Mode} (h : m' = s.a.mode ∨ m' = m ∨ m' = .singleBitTwoWire) :
        m' = m ∨ m' = .singleBitTwoWire ∨ m' = s.a.mode := by tauto
    cases hx : initSequence m ref mult s with
    | ok v u =>
      rw [hx] at kept
      have kept : BringupOnly m s u := kept
      have run := exec_init_of_ok ho hx
      have hresults : (u.report (.ok .none)).results = s.results ++ [.ok .none] := by
        rw [State.report_results, kept.results]
      obtain ⟨hm, -, ha, hc, hp, -⟩ := initSequence_eq_ok hx
      refine ⟨_, _, run, hresults, kept.cfg, kept.q, kept.streaming, mode kept.mode,
        .inl ⟨rfl, hc, (congrArg Adapter.mode ha).trans hm.symm, hp⟩, fun es ev hes hev => ?_⟩
      obtain ⟨e, he, -⟩ := result_of_failed_event run hresults hes hev
      cases he
    | error e u =>
      rw [hx] at kept
      have kept : BringupOnly m s u := kept
      have hinit : initError e := raises_initSequence ref mult s e u hx
      have run := exec_init_of_error ho hx
      have hresults : ((u.setPhase .failed).report (.err e)).results = s.results ++ [.err e] := by
        rw [State.report_results, State.setPhase_results, kept.results]
      refine ⟨_, _, run, hresults, kept.cfg, kept.q, kept.streaming, mode kept.mode,
        .inr ⟨e, rfl, rfl, hinit⟩, fun es ev hes hev => ?_⟩
      obtain ⟨e', he, hblames⟩ := result_of_failed_event run hresults hes hev
      cases he
      rw [← initError_of_blames hinit hblames]

end Sys2Proof.Machine
end

section
/-!
PROOFS of the profile serializer (43_profile.md R202 to R205): what PROFILE_UPDATE_CHANNELS, PROFILE_SET_SYSTEM_CLOCK and
PROFILE_FINALIZE append, and that an overflow changes nothing. First the run of each command on an open profile and the pads
by the cursor modulo 4; then the obligations.
-/

namespace Sys2Proof.Machine

variable {s : State}

/-! ## The runs on an open profile (43_profile.md R202, R203, R205) -/

theorem exec_profileUpdateChannels {cs : ChSet} (ho : s.q.status = .opened) (hcs : cs ≠ 0) (ftw acr : Option Word)
    (pow : Option (BitVec 16)) :
    exec (.profileUpdateChannels cs ftw pow acr) s =
      if s.q.cursor + updateNeed ftw pow acr ≤ profileCap then
        .next ((s.setProfile (s.q.append (updateRecords s.cfg s.q.mode cs ftw pow acr))).report (.ok .none))
      else .next (s.report (.err .pOverflow)) := by
  rw [← Profile.addUpdate_eq]
  refine (ifNonEmpty_of_ne_zero hcs _).trans
    ((ifProfileOpen_of_opened ho _).trans ((complete_require_bind _ _ _ s).trans ?_))
  simp only [decide_eq_true_eq]
  rfl

theorem exec_profileSetSystemClock_illegal {ref : Rat} {mult : Byte} (ho : s.q.status = .opened)
    (h : 31 < mult.toNat ∨ ref < 0) : exec (.profileSetSystemClock ref mult) s = .refused .illegalOperand :=
  (ifProfileOpen_of_opened ho _).trans (if_pos h)

theorem exec_profileSetSystemClock {ref : Rat} {mult : Byte} (ho : s.q.status = .opened) (hm : mult.toNat ≤ 31)
    (hr : 0 ≤ ref) :
    exec (.profileSetSystemClock ref mult) s =
      if s.q.cursor + 4 ≤ profileCap then
        .next ((s.setProfile
          (s.q.append (writeByte (regAddr s.cfg .fr1) :: fr1Fresh s.cfg mult (effHz s.cfg ref mult)))).report
          (.ok (.q (effHz s.cfg ref mult))))
      else .next (s.report (.err .pOverflow)) := by
  rw [← Profile.addReg_eq]
  have legal : ¬ (31 < mult.toNat ∨ ref < 0) := not_or.mpr ⟨hm.not_gt, hr.not_gt⟩
  refine (ifProfileOpen_of_opened ho _).trans ((if_neg legal).trans ((complete_require_bind _ _ _ s).trans ?_))
  simp only [decide_eq_true_eq]
  rfl

@[simp] theorem fr1Fresh_length (cfg : Config) (mult : Byte) (eff : Rat) : (fr1Fresh cfg mult eff).length = 3 := by
  simp [fr1Fresh]

/-! ## The pads, by the cursor modulo 4 (43_profile.md R204) -/

theorem mod_four_cases (n : Nat) : n % 4 = 0 ∨ n % 4 = 1 ∨ n % 4 = 2 ∨ n % 4 = 3 := by omega

/-- The record of the LSRR pad. -/
def lsrrRecord (cfg : Config) : List Byte := writeByte (regAddr cfg .lsrr) :: lsrrPad cfg

/-- The record of the CSR pad. -/
def csrRecord (cfg : Config) (m : Mode) : List Byte := [writeByte (regAddr cfg .csr), csrPad cfg m]

/-- The LSRR pad goes first where the cursor is odd, and then the CSR pad where two bytes are left. -/
theorem padRecords_eq (cfg : Config) (q : Profile) :
    padRecords cfg q = (if q.cursor % 4 = 1 ∨ q.cursor % 4 = 3 then lsrrRecord cfg else []) ++
      (if q.cursor % 4 = 2 ∨ q.cursor % 4 = 3 then csrRecord cfg q.mode else []) := by
  have odd : q.cursor % 2 = 1 ↔ q.cursor % 4 = 1 ∨ q.cursor % 4 = 3 := by omega
  have left2 : (q.cursor + pad1 q.cursor) % 4 = 2 ↔ q.cursor % 4 = 2 ∨ q.cursor % 4 = 3 := by
    unfold pad1
    split_ifs <;> omega
  simp only [padRecords, odd, left2]
  rfl

/-- The default payload of the CSR pad: the mode code alone. -/
theorem csrPad_default {cfg : Config} (h : cfg.padCsr = none) (m : Mode) : csrPad cfg m = 0#5 ++ modeCode cfg m := by
  have noChannel : ∀ code : BitVec 3, (0#5 ++ code) ||| chSetByte 0 = 0#5 ++ code := by decide
  rw [csrPad, h]
  exact noChannel _

theorem lsrrPad_default {cfg : Config} (h : cfg.padLsrr = 0) : lsrrPad cfg = [0x00#8, 0x00#8] := by
  rw [lsrrPad, h]
  rfl

/-! ## The obligations -/

/-- Settles O46: with room the records are appended, and appending leaves every other byte. -/
theorem profileUpdateChannelsCompletes : Obligations.ProfileUpdateChannelsCompletes := by
  intro s cs ftw acr pow ho hcs recs hroom
  have hrecs : recs = updateRecords s.cfg s.q.mode cs ftw pow acr := by
    cases ftw <;> cases pow <;> cases acr <;> simp only [recs, updateRecords, optRecord, writeByte_cftw0] <;> rfl
  rw [hrecs] at hroom ⊢
  rw [updateRecords_length] at hroom
  exact ⟨_, (exec_profileUpdateChannels ho hcs ftw acr pow).trans (if_pos hroom), Profile.append_bytes _ _,
    Profile.append_cursor _ _, rfl, ho, Profile.append_read? _ _⟩

/-- Settles O47: the operand test, and then one FR1 record appended. -/
theorem profileSetSystemClockCompletes : Obligations.ProfileSetSystemClockCompletes := by
  intro s ref mult ho
  refine ⟨exec_profileSetSystemClock_illegal ho, fun hm hr hroom => ?_⟩
  have cursor : (s.q.append (writeByte (regAddr s.cfg .fr1) :: fr1Fresh s.cfg mult (effHz s.cfg ref mult))).cursor =
      s.q.cursor + 4 := by simp
  exact ⟨fun harith => effHz_exact harith ref mult, _, (exec_profileSetSystemClock ho hm hr).trans (if_pos hroom),
    Profile.append_bytes _ _, cursor, rfl, ho, Profile.append_read? _ _⟩

/-- Settles O48: with room the pads are appended, which aligns the cursor, and the words are the groups of four bytes. -/
theorem profileFinalizeCompletes : Obligations.ProfileFinalizeCompletes := by
  intro s ho hl hc hw lsrr csr pad hroom
  have hpad : pad = padRecords s.cfg s.q := by
    have hlsrr : lsrrRecord s.cfg = lsrr := by rw [lsrrRecord, lsrrPad_default hl]
    have hcsr : csrRecord s.cfg s.q.mode = csr := by rw [csrRecord, csrPad_default hc]
    rw [padRecords_eq, hlsrr, hcsr]
    rcases mod_four_cases s.q.cursor with h | h | h | h <;> simp [pad, h]
  rw [hpad] at hroom ⊢
  have aligned : (s.q.cursor + (padRecords s.cfg s.q).length) % 4 = 0 := by
    rw [padRecords_length]
    exact padded_aligned _
  have run := exec_profileFinalize ho
  rw [if_pos (by rwa [padRecords_length] at hroom), Profile.padded_eq, hw] at run
  have bytes : (s.q.append (padRecords s.cfg s.q)).bytes.length = s.q.cursor + (padRecords s.cfg s.q).length :=
    Memory.bytesBelow_length _ _
  have words : 4 * (wordsOf .little (s.q.append (padRecords s.cfg s.q)).bytes).length =
      s.q.cursor + (padRecords s.cfg s.q).length := by
    rw [wordsOf_length, bytes]
    omega
  have group (k : Nat) (hk : k < (wordsOf .little (s.q.append (padRecords s.cfg s.q)).bytes).length) :
      4 * k + 4 ≤ (s.q.append (padRecords s.cfg s.q)).bytes.length := by omega
  exact ⟨_, _, run, Profile.append_bytes _ _, rfl, aligned, rfl, rfl, words,
    fun k hk => wordsOf_get .little _ k (group k hk), Profile.append_read? _ _⟩

/-- Settles O49: each command tests the whole length before it appends anything. -/
theorem profileOverflowChangesNothing : Obligations.ProfileOverflowChangesNothing := by
  intro s ho
  refine ⟨fun cs ftw acr pow hcs hover => ?update, fun ref mult hm hr hover => ?clock, fun hover => ?finalize⟩
  case update => exact (exec_profileUpdateChannels ho hcs ftw acr pow).trans (if_neg hover.not_ge)
  case clock => exact (exec_profileSetSystemClock ho hm hr).trans (if_neg hover.not_ge)
  case finalize =>
    refine (exec_profileFinalize ho).trans (if_neg fun hroom => ?_)
    rw [← padRecords_length s.q s.cfg, padRecords_eq] at hroom
    rcases mod_four_cases s.q.cursor with h | h | h | h <;>
      simp [h, lsrrRecord, lsrrPad, csrRecord, profileCap] at hover hroom <;> omega

end Sys2Proof.Machine
end
